-- ==== Sys2Proof/Word.lean ====
section
/-! DEFINITION. Bytes, 16-bit words and the enumerated values of the block (rules R6, R12, R89).
The numeric codes of the enumerations are in Decode.lean and Machine/Flags.lean: no meaning uses them. -/

namespace Sys2Proof

/-- One byte: `BYTE_W = 8` (R6). -/
abbrev Byte := BitVec 8

/-- A 16-bit value: `ACC_W = ID_W = 16` (R6). -/
abbrev Word := BitVec 16

/-- The five stored decoder states (R21). -/
inductive DSt where
  | waitSync1 | waitSync2 | readId | readPayload | readCrc
  deriving DecidableEq, Repr

/-- The eight encoder states, in the order of the wire format (R31). -/
inductive ESt where
  | idle | sync1 | sync2 | idHi | idLo | payload | crcHi | crcLo
  deriving DecidableEq, Repr

/-- The three values of `rx_status` (R28). -/
inductive RxStatus where
  | noFlags | newData | dataLost
  deriving DecidableEq, Repr

/-- The decoder-side step results (R90). -/
inductive RxResult where
  | noProgress | consumed | accepted | rejected | truncated | quiet
  deriving DecidableEq, Repr

/-- The encoder-side step results (R90). -/
inductive TxResult where
  | idle | started | progress | retry | done | transportBusy
  deriving DecidableEq, Repr

/-- The four error conditions with the values their `raise` names (R200; R130, R145, R173). -/
inductive Condition where
  | desync
  | checksumMismatch (received computed : Word)
  | transportBusy (st : ESt) (cur : Nat)
  | truncated (st : DSt) (cur : Nat)
  deriving DecidableEq, Repr

/-- Whose accumulator a CRC Engine primitive works on: `d_crc` or `e_crc` (R110, R111). -/
inductive CrcUser where
  | decoder | encoder
  deriving DecidableEq, Repr

end Sys2Proof
end

