-- ==== Sys2Proof/Config.lean ====
section
/-! DEFINITION. The parameters of the block (rules R6 to R9) as plain data, and the free values: the contents of
buffer cells nothing has written (decision D27). -/

namespace Sys2Proof

/-- `crcUpdate` as a parameter (R7, R37, R110): the most-significant-bit-first division by a polynomial, or any other
function of 16 bits and a byte, written out as a table with a value for the pairs it does not list (assumption 2). What
each means is `Machine.crcUpdate`. -/
inductive CrcFn where
  | division (poly : Word)
  | table (entries : List ((Word × Byte) × Word)) (default : Word)
  deriving DecidableEq, Repr

/-- The configuration of one instance (R6, R7, R8), constant over a run but for the application's own changes of
the length mapping between frames (R37, R174). `sync`, `crcInit`, `crcFn` default to R6's and decision D1's
values. `lenOf` is held as a table with a default (assumption 1), `crcUpdate` as `crcFn` (assumption 2).
`WATCHDOG_LIMIT` is none or a natural number from 1 up, as R8 says. -/
structure Config where
  sync : Byte := 0xFF
  crcInit : Word := 0xFFFF
  crcFn : CrcFn := .division 0x1021
  maxLen : Nat
  lens : List (Word × Nat) := []
  lenDefault : Nat := 0
  retryBudget : Nat := 0
  watchdogLimit : Option PNat := none
  deriving DecidableEq, Repr

/-- The first entry of a mapping for an id, else the default (the trace lines `len iiii=n` and `len *=n`, R99). -/
def lookupLen (d : Nat) (id : Word) : List (Word × Nat) → Nat
  | [] => d
  | (k, n) :: rest => if k = id then n else lookupLen d id rest

/-- `lenOf`, total on 16-bit ids (R8, R174, decision D24). -/
def Config.lenOf (c : Config) (id : Word) : Nat := lookupLen c.lenDefault id c.lens

/-- `LEN_W = ceil(log2(MAX_LEN + 1))`, the width of a length or cursor register (R8). -/
def Config.lenW (c : Config) : Nat := if c.maxLen = 0 then 0 else Nat.log2 c.maxLen + 1

/-- A mapping answers every id with a value in `0..MAX_LEN` (R8, R244 (3)). -/
abbrev lensWithin (maxLen : Nat) (lens : List (Word × Nat)) (d : Nat) : Prop :=
  d ≤ maxLen ∧ ∀ e ∈ lens, e.2 ≤ maxLen

/-- A value that a register of `LEN_W` bits holds (R8). -/
abbrev Config.fitsLen (c : Config) (n : Nat) : Prop := n < 2 ^ c.lenW

/-- What R8 requires of the parameters beside their types: `lenOf` stays in `0..MAX_LEN`. -/
abbrev Config.Wf (c : Config) : Prop := lensWithin c.maxLen c.lens c.lenDefault

/-- The values this hardware takes where the source fixes them or decision D1 does (R6, R7, R112). -/
abbrev Config.Standard (c : Config) : Prop :=
  c.sync = 0xFF ∧ c.crcInit = 0xFFFF ∧ c.crcFn = .division 0x1021

/-- The configuration `State.reset` carries: the header of program P6 of 95_test_vectors.md, `MAX_LEN=2`, `len *=2`.
DESIGN CHOICE, unsafe (assumption 3): the spec leaves `MAX_LEN` and `lenOf` open. -/
def Config.atReset : Config := { maxLen := 2, lenDefault := 2 }

/-- FREE VALUE (R29, R44, decision D27, assumption 5): what cell `i` of RXBUF holds before anything wrote it. -/
opaque Config.rxBufStart : Nat → Byte

/-- FREE VALUE (R36, R44, decision D27, assumption 5): what cell `i` of TXBUF holds before the Caller wrote it. -/
opaque Config.txBufStart : Nat → Byte

end Sys2Proof
end

