-- ==== Sys2Proof/Syntax.lean ====
section
/-! DEFINITION. The operations of the block (R14): one constructor per row of spec/opcode_table.json. Operands are
those the rules name; selector-word bits that take no part in the selection (R91) are no operands. -/

namespace Sys2Proof

/-- One operation (R14), or a wire frame (R96). -/
inductive Instr where
  /-- `CRC.INIT` (R111) on the accumulator of `u`. -/
  | crcInit (u : CrcUser)
  /-- `CRC.UPD b` (R112) on the accumulator of `u`. -/
  | crcUpd (u : CrcUser) (b : Byte)
  /-- `ENC.NOP` (R122). -/
  | encNop
  /-- `ENC.START id, len` (R120). -/
  | encStart (id : Word) (len : Nat)
  /-- `ENC.PUT.SYNC1` (R123). -/
  | encPutSync1
  /-- `ENC.PUT.SYNC2` (R124). -/
  | encPutSync2
  /-- `ENC.PUT.IDHI` (R125). -/
  | encPutIdHi
  /-- `ENC.PUT.IDLO` (R126). -/
  | encPutIdLo
  /-- `ENC.PUT.PAY` (R127). -/
  | encPutPay
  /-- `ENC.PUT.CRCHI` (R128). -/
  | encPutCrcHi
  /-- `ENC.PUT.CRCLO` (R129). -/
  | encPutCrcLo
  /-- `ENC.DECLINE` (R130). -/
  | encDecline
  /-- `DEC.NOBYTE` (R147). -/
  | decNobyte
  /-- `DEC.SYNC1 b` (R141). -/
  | decSync1 (b : Byte)
  /-- `DEC.SYNC2 b` (R142). -/
  | decSync2 (b : Byte)
  /-- `DEC.ID b` (R143). -/
  | decId (b : Byte)
  /-- `DEC.PAY b` (R144). -/
  | decPay (b : Byte)
  /-- `DEC.CRC b` (R145). -/
  | decCrc (b : Byte)
  /-- `SYS.RESET` (R171). -/
  | sysReset
  /-- `SYS.TAKE` (R172). -/
  | sysTake
  /-- `SYS.TICK` (R173). -/
  | sysTick
  /-- `FRAME` (R81, R96): the wire frame of `id`, payload and transmitted CRC field. -/
  | frame (id : Word) (payload : List Byte) (crc : Word)
  deriving DecidableEq, Repr

end Sys2Proof
end

