-- ==== Sys2Proof/WellFormed.lean ====
section
/-! DEFINITION. Well-formed operations: the operand ranges the spec gives (R96, R120, U15). -/

namespace Sys2Proof

/-- Operand checks under a configuration: `tx_len <= MAX_LEN` for `ENC.START` (R120), a payload of exactly
`lenOf(id)` bytes, at most `MAX_LEN`, for `FRAME` (R81, R96). Every other operand value is legal (R85). -/
def Instr.wellFormed (c : Config) : Instr → Bool
  | .encStart _ len => decide (len ≤ c.maxLen)
  | .frame id payload _ => decide (payload.length = c.lenOf id) && decide (payload.length ≤ c.maxLen)
  | .crcInit _ => true
  | .crcUpd _ _ => true
  | .encNop => true
  | .encPutSync1 => true
  | .encPutSync2 => true
  | .encPutIdHi => true
  | .encPutIdLo => true
  | .encPutPay => true
  | .encPutCrcHi => true
  | .encPutCrcLo => true
  | .encDecline => true
  | .decNobyte => true
  | .decSync1 _ => true
  | .decSync2 _ => true
  | .decId _ => true
  | .decPay _ => true
  | .decCrc _ => true
  | .sysReset => true
  | .sysTake => true
  | .sysTick => true

end Sys2Proof
end

