-- ==== Sys2Proof/Decode.lean ====
section
/-! DEFINITION. Selector words (R91 to R96), the decoder from a selector word to an operation, the encoder from the
same tables, and the bit-field helpers both use. A selector word tabulates the selection (R91, decision D19): the
hardware stores none. -/

namespace Sys2Proof

/-- `v[15:8]` of a 16-bit value (R12, R63). -/
def hiByte (v : Word) : Byte := v.extractLsb' 8 8

/-- `v[7:0]` of a 16-bit value (R12, R63). -/
def loByte (v : Word) : Byte := v.extractLsb' 0 8

/-- `{hi, lo}`: a 16-bit field from its two wire bytes, high byte first (R63, R83, R84). -/
def joinBytes (hi lo : Byte) : Word := hi ++ lo

/-- Codes of `d_st` (R21). -/
def dstCode : DSt → BitVec 3
  | .waitSync1 => 0
  | .waitSync2 => 1
  | .readId => 2
  | .readPayload => 3
  | .readCrc => 4

/-- The state a code of `d_st` names; codes 5, 6, 7 name none (R21, R97). -/
def dstOfCode (c : BitVec 3) : Option DSt :=
  if c = 0 then some .waitSync1
  else if c = 1 then some .waitSync2
  else if c = 2 then some .readId
  else if c = 3 then some .readPayload
  else if c = 4 then some .readCrc
  else none

/-- Codes of `e_st` (R31). -/
def estCode : ESt → BitVec 4
  | .idle => 0b0000
  | .sync1 => 0b1000
  | .sync2 => 0b1001
  | .idHi => 0b1010
  | .idLo => 0b1011
  | .payload => 0b1100
  | .crcHi => 0b1101
  | .crcLo => 0b1110

/-- The state a code of `e_st` names; 0001 to 0111 and 1111 name none (R31, R97). -/
def estOfCode (c : BitVec 4) : Option ESt :=
  if c = 0b0000 then some .idle
  else if c = 0b1000 then some .sync1
  else if c = 0b1001 then some .sync2
  else if c = 0b1010 then some .idHi
  else if c = 0b1011 then some .idLo
  else if c = 0b1100 then some .payload
  else if c = 0b1101 then some .crcHi
  else if c = 0b1110 then some .crcLo
  else none

/-- A selector word, one format per agent (R91), with the operands that are no part of it beside it. -/
inductive SelWord where
  /-- `{rx_valid, d_st[2:0], rx_data[7:0]}` (R92). -/
  | dec (w : BitVec 12)
  /-- `{enc_start, e_st[3:0], tx_ready}` (R93), with `tx_id` and `tx_len`. -/
  | enc (w : BitVec 6) (txId : Word) (txLen : Nat)
  /-- `{rst, take, tick}` (R94). -/
  | sys (w : BitVec 3)
  /-- `{u, byte[7:0]}` (R95), with the caller whose accumulator is passed. -/
  | crc (w : BitVec 9) (u : CrcUser)
  /-- The bytes of one frame on the wire (R96). -/
  | wire (bytes : List Byte)
  deriving DecidableEq, Repr

/-- Why a word selects no operation. -/
inductive DecodeReject where
  /-- `rx_valid = 1` with a `d_st` code 5, 6 or 7 (R92, R97). -/
  | reservedDst (code : BitVec 3)
  /-- An `e_st` code 0001 to 0111 or 1111 (R93, R97). -/
  | reservedEst (code : BitVec 4)
  /-- The SYS word 000 selects no system operation (R94). -/
  | noSystemRequest
  /-- The bytes do not begin with the sync pair and a two-byte id (R96). -/
  | noFrameHead
  /-- The bytes after the id are not `lenOf(id)` payload bytes and two CRC bytes (R96). -/
  | frameLength
  deriving DecidableEq, Repr

/-- The decoder's operation for a byte, by state (R92, R140). -/
def decOp (st : DSt) (b : Byte) : Instr :=
  match st with
  | .waitSync1 => .decSync1 b
  | .waitSync2 => .decSync2 b
  | .readId => .decId b
  | .readPayload => .decPay b
  | .readCrc => .decCrc b

/-- The encoder's operation for an accepted byte, by state (R93); `none` in `Idle`, which offers no byte. -/
def putOp : ESt → Option Instr
  | .idle => none
  | .sync1 => some .encPutSync1
  | .sync2 => some .encPutSync2
  | .idHi => some .encPutIdHi
  | .idLo => some .encPutIdLo
  | .payload => some .encPutPay
  | .crcHi => some .encPutCrcHi
  | .crcLo => some .encPutCrcLo

/-- Format DEC (R92): `0sssbbbbbbbb` is `DEC.NOBYTE` whatever `s`, else the state names the operation. -/
def decodeDec (w : BitVec 12) : Except DecodeReject Instr :=
  if w.getLsbD 11 then
    match dstOfCode (w.extractLsb' 8 3) with
    | some st => .ok (decOp st (w.extractLsb' 0 8))
    | none => .error (.reservedDst (w.extractLsb' 8 3))
  else .ok .decNobyte

/-- Format ENC (R93): idle starts on `enc_start`; in flight `tx_ready` chooses between the put and the decline. -/
def decodeEnc (w : BitVec 6) (txId : Word) (txLen : Nat) : Except DecodeReject Instr :=
  match estOfCode (w.extractLsb' 1 4) with
  | none => .error (.reservedEst (w.extractLsb' 1 4))
  | some st =>
    match putOp st with
    | none => .ok (if w.getLsbD 5 then .encStart txId txLen else .encNop)
    | some put => .ok (if w.getLsbD 0 then put else .encDecline)

/-- Format SYS (R94): reset overrides. The word 011 selects two operations; this is the first of them in the order
of R175, and Machine/Select.lean performs both. -/
def decodeSys (w : BitVec 3) : Except DecodeReject Instr :=
  if w.getLsbD 2 then .ok .sysReset
  else if w.getLsbD 1 then .ok .sysTake
  else if w.getLsbD 0 then .ok .sysTick
  else .error .noSystemRequest

/-- Format CRC (R95). -/
def decodeCrc (w : BitVec 9) (u : CrcUser) : Instr :=
  if w.getLsbD 8 then .crcUpd u (w.extractLsb' 0 8) else .crcInit u

/-- The payload and CRC field of a frame whose payload has `n` bytes, when exactly those bytes are left (R81). -/
def splitTail (n : Nat) (rest : List Byte) : Option (List Byte × Word) :=
  match rest.drop n with
  | [hi, lo] => some (rest.take n, joinBytes hi lo)
  | _ => none

/-- Format WIRE (R96): the sync pair, the id, `lenOf(id)` payload bytes, the CRC field, and nothing else. -/
def decodeWire (c : Config) : List Byte → Except DecodeReject Instr
  | s1 :: s2 :: ih :: il :: rest =>
    if s1 = c.sync ∧ s2 = c.sync then
      match splitTail (c.lenOf (joinBytes ih il)) rest with
      | some (p, crc) => .ok (.frame (joinBytes ih il) p crc)
      | none => .error .frameLength
    else .error .noFrameHead
  | _ => .error .noFrameHead

/-- The decoder, total on selector words. -/
def decode (c : Config) : SelWord → Except DecodeReject Instr
  | .dec w => decodeDec w
  | .enc w id len => decodeEnc w id len
  | .sys w => decodeSys w
  | .crc w u => .ok (decodeCrc w u)
  | .wire bytes => decodeWire c bytes

/-- The bytes of a frame, in wire order (R81): sync pair, id, payload, CRC field. -/
def frameBytes (c : Config) (id : Word) (payload : List Byte) (crc : Word) : List Byte :=
  [c.sync, c.sync, hiByte id, loByte id] ++ payload ++ [hiByte crc, loByte crc]

/-- Format DEC of an operation selected by the byte `b` in state `st` (R92). -/
def encodeDec (st : DSt) (b : Byte) : SelWord := .dec (1#1 ++ dstCode st ++ b)

/-- Format ENC of a put selected in state `st` (R93), with `enc_start = 0`. -/
def encodePut (st : ESt) : SelWord := .enc (0#1 ++ estCode st ++ 1#1) 0 0

/-- The encoder: a selector word that selects the operation, bits that take no part in the selection zero
(`ENC.DECLINE` names the state `Sync1`). -/
def encode (c : Config) : Instr → SelWord
  | .crcInit u => .crc (0#1 ++ 0#8) u
  | .crcUpd u b => .crc (1#1 ++ b) u
  | .encNop => .enc 0b000000 0 0
  | .encStart id len => .enc 0b100000 id len
  | .encPutSync1 => encodePut .sync1
  | .encPutSync2 => encodePut .sync2
  | .encPutIdHi => encodePut .idHi
  | .encPutIdLo => encodePut .idLo
  | .encPutPay => encodePut .payload
  | .encPutCrcHi => encodePut .crcHi
  | .encPutCrcLo => encodePut .crcLo
  | .encDecline => .enc 0b010000 0 0
  | .decNobyte => .dec 0x000
  | .decSync1 b => encodeDec .waitSync1 b
  | .decSync2 b => encodeDec .waitSync2 b
  | .decId b => encodeDec .readId b
  | .decPay b => encodeDec .readPayload b
  | .decCrc b => encodeDec .readCrc b
  | .sysReset => .sys 0b100
  | .sysTake => .sys 0b010
  | .sysTick => .sys 0b001
  | .frame id p crc => .wire (frameBytes c id p crc)

/-- A row of spec/opcode_table.json over a selector word: `word & mask = match` (R92 to R95). For FRAME the row's
match and mask apply to the first 16 bits on the wire (R96). -/
structure Row where
  mask : Nat
  pattern : Nat
  deriving DecidableEq, Repr

/-- The table's row of an operation, transcribed from R92 to R96 with the table's numbers. -/
def rowOf : Instr → Row
  | .crcInit _ => ⟨0x100, 0x000⟩
  | .crcUpd _ _ => ⟨0x100, 0x100⟩
  | .encNop => ⟨0x3E, 0x00⟩
  | .encStart _ _ => ⟨0x3E, 0x20⟩
  | .encPutSync1 => ⟨0x1F, 0x11⟩
  | .encPutSync2 => ⟨0x1F, 0x13⟩
  | .encPutIdHi => ⟨0x1F, 0x15⟩
  | .encPutIdLo => ⟨0x1F, 0x17⟩
  | .encPutPay => ⟨0x1F, 0x19⟩
  | .encPutCrcHi => ⟨0x1F, 0x1B⟩
  | .encPutCrcLo => ⟨0x1F, 0x1D⟩
  | .encDecline => ⟨0x11, 0x10⟩
  | .decNobyte => ⟨0x800, 0x000⟩
  | .decSync1 _ => ⟨0xF00, 0x800⟩
  | .decSync2 _ => ⟨0xF00, 0x900⟩
  | .decId _ => ⟨0xF00, 0xA00⟩
  | .decPay _ => ⟨0xF00, 0xB00⟩
  | .decCrc _ => ⟨0xF00, 0xC00⟩
  | .sysReset => ⟨0x4, 0x4⟩
  | .sysTake => ⟨0x6, 0x2⟩
  | .sysTick => ⟨0x5, 0x1⟩
  | .frame _ _ _ => ⟨0xFFFF, 0xFFFF⟩

/-- The bits a row's mask applies to: the selector word, or the first two wire bytes read high byte first. -/
def SelWord.bits : SelWord → Nat
  | .dec w => w.toNat
  | .enc w _ _ => w.toNat
  | .sys w => w.toNat
  | .crc w _ => w.toNat
  | .wire (b0 :: b1 :: _) => b0.toNat * 256 + b1.toNat
  | .wire _ => 0

/-- A selector word lies in a row. -/
abbrev Row.holds (r : Row) (w : SelWord) : Prop := w.bits &&& r.mask = r.pattern

/-- Byte `k` of a number whose least significant byte is byte 0. -/
def byteAt (w k : Nat) : Byte := BitVec.ofNat 8 (w / 256 ^ k)

/-- The first `n` bytes of a number whose least significant byte is byte 0. -/
def bytesOfNat (w : Nat) : Nat → List Byte
  | 0 => []
  | n + 1 => bytesOfNat w n ++ [byteAt w n]

/-- The wire bytes of a frame numbered as the table numbers it: as many as its id's length asks for. -/
def tableFrame (c : Config) (w : Nat) : List Byte :=
  bytesOfNat w (6 + c.lenOf (joinBytes (byteAt w 2) (byteAt w 3)))

/-- The bytes below `nbits` of a number. -/
def below (nbits w : Nat) : Nat := w % 2 ^ nbits

/-- The selector word of a table word under a configuration. The table's formats share words, because the hardware
has no format tag (R91); where two formats of the same number of bytes hold a word, assumption 11 says which is
taken: one byte: SYS below 8 but not 0, else ENC; two bytes: FRAME on the sync pair, else CRC below 0x200 but not 0,
else DEC. The operands beside a word have no bits in the table, so they are zero: `tx_id = 0`, `tx_len = 0`, and the
decoder's accumulator for CRC. -/
def tableWord (c : Config) (nbits w : Nat) : Option SelWord :=
  let v := below nbits w
  if nbits ≤ 8 then
    if nbits = 3 ∨ (nbits ≠ 6 ∧ v < 8 ∧ v ≠ 0) then some (.sys (BitVec.ofNat 3 v))
    else if v < 64 then some (.enc (BitVec.ofNat 6 v) 0 0)
    else none
  else if nbits ≥ 16 ∧ v % 0x10000 = 0xFFFF then some (.wire (tableFrame c v))
  else if nbits = 9 ∨ (nbits ≠ 12 ∧ v < 0x200 ∧ v ≠ 0) then some (.crc (BitVec.ofNat 9 v) .decoder)
  else if v < 0x1000 then some (.dec (BitVec.ofNat 12 v))
  else none

/-- What the decoder reads from an operation whose bits are `w`, numbered as spec/opcode_table.json numbers them. -/
def decodeTableWord (nbits w : Nat) : Option Instr :=
  match tableWord Config.atReset nbits w with
  | none => none
  | some sel =>
    match decode Config.atReset sel with
    | .ok i => some i
    | .error _ => none

end Sys2Proof
end

