-- ==== Sys2Proof/Machine/State.lean ====
section
/-! DEFINITION. The state of the block as plain data (10_state.md), the environment's pending inputs, the outputs of
the last step, the reasons a step can stop, and the state after reset (R44, R171). -/

namespace Sys2Proof.Machine

/-- A byte memory: (index, byte) pairs, indices strictly rising. An unlisted cell holds no stored byte: what it reads
as is the free start value of its space (decision D27), so no entry can equal it (assumption 5). -/
abbrev Memory := List Host.Cell

/-- The canonical form: indices strictly rising. -/
abbrev Memory.wf (m : Memory) : Prop := (m.map Prod.fst).Pairwise (· < ·)

/-- The Decoder Session, "these six registers and nothing else" (R20 to R25). -/
structure Session where
  st : DSt
  facc : Word
  fcnt : Fin 2
  cur : Nat
  crc : Word
  wd : Nat
  deriving DecidableEq, Repr

/-- `SESSION_INIT` (R26). -/
def Session.init (c : Config) : Session :=
  { st := .waitSync1, facc := 0, fcnt := 0, cur := 0, crc := c.crcInit, wd := 0 }

/-- The RX Message Object (R27 to R29). -/
structure RxMessage where
  id : Word
  len : Nat
  status : RxStatus
  buf : Memory
  deriving DecidableEq, Repr

/-- The encoder's six registers (R30 to R35). -/
structure Encoder where
  st : ESt
  id : Word
  len : Nat
  cur : Nat
  crc : Word
  retry : Nat
  deriving DecidableEq, Repr

/-- The encoder registers after `SYS.RESET` (R171). -/
def Encoder.init (c : Config) : Encoder :=
  { st := .idle, id := 0, len := 0, cur := 0, crc := c.crcInit, retry := 0 }

/-- The decoder's receive signals in a step (R42, R43): no decoder step asked, `rx_valid = 0`, or a byte. -/
inductive RxIn where
  | notAsked | empty | byte (b : Byte)
  deriving DecidableEq, Repr

/-- The encoder's signals in an encoder step (R42): `enc_start`, `tx_id`, `tx_len`, `tx_ready`. -/
structure EncIn where
  start : Bool
  id : Word := 0
  len : Nat := 0
  ready : Bool
  deriving DecidableEq, Repr

/-- The input signals of one step (R42, R207); the absent ones are not requested. A single request is one operation
(R10); several are performed in the order of R175. -/
structure Signals where
  rst : Bool := false
  take : Bool := false
  rx : RxIn := .notAsked
  tick : Bool := false
  enc : Option EncIn := none
  deriving DecidableEq, Repr

/-- What the environment does in one step (R37, R41, R99). -/
inductive Input where
  /-- Signals of R42 (the trace lines `reset`, `take`, `tick`, `rx`, `enc`, `tx`, R99). -/
  | signals (g : Signals)
  /-- A direct call of the CRC Engine by the user `u` (R95, R110; assumption 9). -/
  | crcCall (u : CrcUser) (w : BitVec 9)
  /-- Bytes of the line presented to the decoder in consecutive byte steps (the pseudo-lines `rx h0 h1 …` and
  `frame`, R100; assumption 10). -/
  | wire (bytes : List Byte)
  /-- The Caller writes TXBUF from cell `i` on (the trace line `txbuf`, R99, R41). -/
  | writeTx (i : Nat) (bytes : List Byte)
  /-- The Caller writes RXBUF from cell `i` on (R41, U16). -/
  | writeRx (i : Nat) (bytes : List Byte)
  /-- The application changes the mapping from id to length (R174). -/
  | remap (lens : List (Word × Nat)) (lenDefault : Nat)
  deriving DecidableEq, Repr

/-- The interface outputs of one operation (R42, R90): results, whether a byte was taken, the offered byte (`tx_valid`,
`tx_data`), the RXBUF write port, and the id whose length is asked. DESIGN CHOICE, safe (assumption 23): `raised` is no port
and the Caller does not see it; it is the model's record of the conditions whose rules applied, Desync among them, for
which R200 and R201 give no report and need no event. -/
structure Outputs where
  rxResult : Option RxResult := none
  txResult : Option TxResult := none
  took : Bool := false
  offered : Option Byte := none
  plWrite : Option (Nat × Byte) := none
  lenId : Option Word := none
  raised : List Condition := []
  deriving DecidableEq, Repr

/-- The machine. `ses`, `rx`, `enc`, `txBuf`, `txStream` are the spec's state (10_state.md, R60); `cfg` its parameters
(R6 to R9); `inputs` and `out` the environment's side of the interface (R37, R42): `out` lists the outputs of the last
step, one entry per operation performed in it (assumption 14). -/
structure State where
  cfg : Config
  ses : Session
  rx : RxMessage
  enc : Encoder
  txBuf : Memory
  txStream : List Byte
  inputs : List Input
  out : List Outputs
  deriving DecidableEq, Repr

/-- Why the machine stops with a fault. Every one is an access to a cell that does not exist (R60). -/
inductive Fault where
  /-- DEC.PAY with `d_cur >= MAX_LEN`: no such RXBUF cell. Unreachable from reset (R62). Safe. -/
  | rxbufIndex (i : Nat)
  /-- An encoder step in `Payload` with `e_cur >= MAX_LEN`: no such TXBUF cell. Unreachable from reset (R62). Safe. -/
  | txbufIndex (i : Nat)
  /-- The Caller writes a cell at or above `MAX_LEN` of either buffer (R60). Safe. -/
  | callerIndex (i : Nat)
  deriving DecidableEq, Repr

/-- Why the machine refuses an operation. -/
inductive Refusal where
  /-- Raised by an arm of `exec` whose operation has no meaning yet. Safe. -/
  | notModelled (mnemonic : String)
  /-- An operation applied in a state that does not select it (R91 to R93); no step of the machine does that. Safe. -/
  | notSelected
  /-- DEC.ID when `lenOf` answers above `MAX_LEN`: the configuration is rejected (U6, R174). Safe. -/
  | lenOfAboveMax (id : Word)
  /-- ENC.START with `tx_len > MAX_LEN`: the operand is outside the rule (U15, R120). Safe. -/
  | txLenAboveMax (len : Nat)
  /-- A selector word that selects no operation (R92 to R94, R97); no step of the machine forms one. Safe. -/
  | undecodable (why : DecodeReject)
  deriving DecidableEq, Repr

/-- The outcome of one operation or one step. -/
abbrev Result := Host.Outcome State Fault Refusal

/-- The state after `SYS.RESET` (R44, R171, R240), nothing written to either buffer (D27), nothing received or sent,
nothing pending from the environment (assumptions 3 and 4). -/
def State.reset : State :=
  { cfg := Config.atReset
    ses := Session.init Config.atReset
    rx := { id := 0, len := 0, status := .noFlags, buf := [] }
    enc := Encoder.init Config.atReset
    txBuf := []
    txStream := []
    inputs := []
    out := [{ rxResult := some .quiet, txResult := some .idle }] }

end Sys2Proof.Machine
end

