-- ==== Sys2Proof/Machine/Ops.lean ====
section
/-! DEFINITION. The named operations shared by the meanings: the byte memories (R60, R61), the CRC Engine (R110 to
R113), the session return (R146), and taking an error condition (R200 to R209). -/

namespace Sys2Proof.Machine

/-- Continue with `k` after an outcome that is a next state. -/
def andThen (r : Result) (k : State → Result) : Result :=
  match r with
  | .next s => k s
  | .fault f => .fault f
  | .refused f => .refused f

/-- The outputs of operations already performed in a step, put before those of the rest of it (assumption 14). -/
def putBefore (before : List Outputs) (r : Result) : Result :=
  match r with
  | .next t => .next { t with out := before ++ t.out }
  | .fault f => .fault f
  | .refused f => .refused f

/-- One operation, then the rest of the step on the state it left, the outputs of both kept in order. -/
def followedBy (r : Result) (k : State → Result) : Result := andThen r fun t => putBefore t.out (k t)

/-- The byte stored at index `a`, if one is. -/
def Memory.find (a : Nat) : Memory → Option Byte
  | [] => none
  | (k, v) :: m => if k = a then some v else Memory.find a m

/-- Store a byte at index `a`, keeping the indices rising. -/
def Memory.store (a : Nat) (b : Byte) : Memory → Memory
  | [] => [(a, b)]
  | (k, v) :: m =>
    if a < k then (a, b) :: (k, v) :: m
    else if a = k then (a, b) :: m
    else (k, v) :: Memory.store a b m

/-- What cell `i` of RXBUF holds: `none` when there is no such cell (R60), the free start value when nothing has
written it (D27). -/
def rxCell (s : State) (i : Nat) : Option Byte :=
  if i < s.cfg.maxLen then some ((s.rx.buf.find i).getD (Config.rxBufStart i)) else none

/-- `MemRead(TXBUF, i, 1)` (R13, R60): `none` when there is no such cell, the free start value when nothing has
written it (D27). -/
def txCell (s : State) (i : Nat) : Option Byte :=
  if i < s.cfg.maxLen then some ((s.txBuf.find i).getD (Config.txBufStart i)) else none

/-- One shift of the polynomial division: `t_k` to `t_{k+1}` (R112). -/
def crcShift (poly t : Word) : Word := if t.getLsbD 15 then (t <<< 1) ^^^ poly else t <<< 1

/-- The division of R112: the byte into the high byte, then eight shifts, most significant bit first. Decision D1 takes
the polynomial 0x1021. -/
def crcDivide (poly acc : Word) (b : Byte) : Word :=
  let t0 := acc ^^^ (b ++ 0#8)
  let t4 := crcShift poly (crcShift poly (crcShift poly (crcShift poly t0)))
  crcShift poly (crcShift poly (crcShift poly (crcShift poly t4)))

/-- The value a table gives an accumulator and a byte, else `d`. -/
def lookupCrc (d : Word) (k : Word × Byte) : List ((Word × Byte) × Word) → Word
  | [] => d
  | (j, v) :: rest => if j = k then v else lookupCrc d k rest

/-- `crcUpdate(acc, b)`, the parameter of R7. -/
def crcUpdate (f : CrcFn) (acc : Word) (b : Byte) : Word :=
  match f with
  | .division poly => crcDivide poly acc b
  | .table entries d => lookupCrc d (acc, b) entries

/-- `crcOf(m)` (R113): the bytes folded in order into `crcInit`. -/
def crcOf (c : Config) (m : List Byte) : Word := m.foldl (crcUpdate c.crcFn) c.crcInit

/-- The CRC field of a frame: over id and payload, not the sync bytes (R81, R113). -/
def frameCrc (c : Config) (id : Word) (payload : List Byte) : Word :=
  crcOf c (hiByte id :: loByte id :: payload)

/-- `frame(id, p)`: the frame a correct sender sends (R81, R132). -/
def frameOf (c : Config) (id : Word) (payload : List Byte) : List Byte :=
  frameBytes c id payload (frameCrc c id payload)

/-- `session <- SESSION_INIT` (R146): it touches nothing but the six session registers. -/
def sessionReturn (s : State) : State := { s with ses := Session.init s.cfg }

/-- Taking an error condition: every state and result change the rule of the condition lists, and nothing else
(R200 to R204, R209). Nothing is saved, control goes nowhere, and there is no return operation (R209, R210). DESIGN CHOICE,
safe (assumption 23): each condition, the silent Desync too, is entered in `raised`, which no port shows. -/
def takeCondition (c : Condition) (s : State) : State :=
  match c with
  | .desync =>
    { s with
      ses := { s.ses with st := .waitSync1 }
      out := [{ rxResult := some .consumed, took := true, raised := [c] }] }
  | .checksumMismatch _ _ =>
    { sessionReturn s with
      rx := { s.rx with status := .dataLost }
      out := [{ rxResult := some .rejected, took := true, raised := [c] }] }
  | .transportBusy _ _ =>
    { s with
      enc := { s.enc with st := .idle }
      out := [{ txResult := some .transportBusy, raised := [c] }] }
  | .truncated _ _ =>
    { sessionReturn s with
      out := [{ rxResult := some .truncated, raised := [c] }] }

/-- The Caller writes consecutive cells of TXBUF (R41, R99); a cell at or above `MAX_LEN` does not exist. -/
def callerWriteTx (i : Nat) : List Byte → State → Result
  | [], s => .next s
  | b :: bs, s =>
    if i < s.cfg.maxLen then callerWriteTx (i + 1) bs { s with txBuf := s.txBuf.store i b }
    else .fault (.callerIndex i)

/-- The Caller writes consecutive cells of RXBUF (R41, U16); a cell at or above `MAX_LEN` does not exist. -/
def callerWriteRx (i : Nat) : List Byte → State → Result
  | [], s => .next s
  | b :: bs, s =>
    if i < s.cfg.maxLen then callerWriteRx (i + 1) bs { s with rx := { s.rx with buf := s.rx.buf.store i b } }
    else .fault (.callerIndex i)

end Sys2Proof.Machine
end

