-- ==== Sys2Proof/Machine/Operands.lean ====
section
/-! DEFINITION. Operand forms: the field accumulator's shift (R22), the byte the encoder offers (R121), the guards that
say which state selects an operation (R92, R93), and the streams and ports of the interface (R42, R60). -/

namespace Sys2Proof.Machine

/-- `trunc_16({d_facc, b})` (R22): the old low byte above the new byte. -/
def shiftIn (facc : Word) (b : Byte) : Word := joinBytes (loByte facc) b

/-- `B(e_st)`, the byte offered in a step that begins in this state (R121): `none` in `Idle`, which offers none, and in
`Payload` when `e_cur` names no cell of TXBUF. -/
def offeredByte (s : State) : Option Byte :=
  match s.enc.st with
  | .idle => none
  | .sync1 => some s.cfg.sync
  | .sync2 => some s.cfg.sync
  | .idHi => some (hiByte s.enc.id)
  | .idLo => some (loByte s.enc.id)
  | .payload => txCell s s.enc.cur
  | .crcHi => some (hiByte s.enc.crc)
  | .crcLo => some (loByte s.enc.crc)

/-- The port `tx_valid` (R42). -/
def txValid (s : State) : Bool := decide (s.enc.st ≠ .idle)

/-- The port `rx_ready`, constant 1: no state of the decoder refuses a byte (R42, R140). -/
def rxReady (_ : State) : Bool := true

/-- The port `tb_addr`, always `e_cur` (R42, R61). -/
def tbAddr (s : State) : Nat := s.enc.cur

/-- An operation selected by the decoder state `st` (R92). -/
def whenDec (st : DSt) (s : State) (r : Result) : Result :=
  if s.ses.st = st then r else .refused .notSelected

/-- An operation selected by the encoder state `st` with a byte accepted (R93): the offered byte enters the TX stream
and shows on the port; `k` gives the rest (R66, R121). -/
def whenPut (st : ESt) (s : State) (k : Byte → State → State) : Result :=
  if s.enc.st = st then
    match offeredByte s with
    | some b => .next (k b { s with txStream := s.txStream ++ [b] })
    | none => .fault (.txbufIndex s.enc.cur)
  else .refused .notSelected

/-- The byte an input presents to the decoder alone in signals, if any. -/
def rxByte (g : Signals) : Option Byte :=
  match g.rx with
  | .byte b => some b
  | _ => none

/-- The bytes an input will deliver to the decoder, in order; a step with `rst` consumes none (R171). -/
def inputBytes : Input → List Byte
  | .signals g => if g.rst then [] else (rxByte g).toList
  | .wire bytes => bytes
  | _ => []

/-- The RX stream (R60 (3)): the bytes still to be delivered, in order. -/
def rxStream (s : State) : List Byte := s.inputs.flatMap inputBytes

end Sys2Proof.Machine
end

