-- ==== Sys2Proof/Machine/Flags.lean ====
section
/-! DEFINITION. Flags: `rx_status`, the step results (R28, R90), their numeric codes (R89, R90, R200), and how the
outputs of operations performed in one step combine (R175). -/

namespace Sys2Proof.Machine

/-- Codes of `rx_status` (R28); 3 is reserved. -/
def statusCode : RxStatus → BitVec 2
  | .noFlags => 0
  | .newData => 1
  | .dataLost => 2

/-- Codes of `rx_result` (R90); 6 and 7 are never produced. -/
def rxResultCode : RxResult → BitVec 3
  | .noProgress => 0
  | .consumed => 1
  | .accepted => 2
  | .rejected => 3
  | .truncated => 4
  | .quiet => 5

/-- Codes of `tx_result` (R90); 6 and 7 are never produced. -/
def txResultCode : TxResult → BitVec 3
  | .idle => 0
  | .started => 1
  | .progress => 2
  | .retry => 3
  | .done => 4
  | .transportBusy => 5

/-- Codes of the conditions (R200). -/
def conditionCode : Condition → Nat
  | .desync => 0
  | .checksumMismatch _ _ => 1
  | .transportBusy _ _ => 2
  | .truncated _ _ => 3

/-- The decoder's terminal results (R16). -/
def rxTerminal : RxResult → Bool
  | .accepted => true
  | .rejected => true
  | .truncated => true
  | .noProgress => false
  | .consumed => false
  | .quiet => false

/-- The encoder's terminal results (R16). -/
def txTerminal : TxResult → Bool
  | .done => true
  | .transportBusy => true
  | .idle => false
  | .started => false
  | .progress => false
  | .retry => false

/-- `rx_status <- v` (R27, R41). -/
def withStatus (v : RxStatus) (s : State) : State := { s with rx := { s.rx with status := v } }

/-- The output record of a decoder byte step with result `r` (R42, R140). -/
def byteOut (r : RxResult) : Outputs := { rxResult := some r, took := true }

/-- The output record of an operation of the system side with result `r`, or of a decoder step that takes no byte. -/
def quietOut (r : RxResult) : Outputs := { rxResult := some r }

/-- The output record of an encoder step with result `r` that offered `b` (R42, R121). -/
def putOut (r : TxResult) (b : Option Byte) : Outputs := { txResult := some r, offered := b }

/-- The decoder-side result of two operations of one step: a later `Quiet` does not hide an earlier result, any other
later result replaces it (R175: a byte and a firing tick give `Truncated`; V-SYS-10, V-SYS-11). -/
def laterRx : Option RxResult → Option RxResult → Option RxResult
  | some a, some .quiet => some a
  | a, none => a
  | _, b => b

/-- The outputs of a step that performs two operations (R175, R208): each port shows the operation that drove it. -/
def Outputs.merge (a b : Outputs) : Outputs :=
  { rxResult := laterRx a.rxResult b.rxResult
    txResult := b.txResult.or a.txResult
    took := a.took || b.took
    offered := b.offered.or a.offered
    plWrite := b.plWrite.or a.plWrite
    lenId := b.lenId.or a.lenId
    raised := a.raised ++ b.raised }

/-- What the ports show of a step whose operations gave these outputs, in order (R175; assumption 14). -/
def shownOf (outs : List Outputs) : Outputs := outs.foldl Outputs.merge {}

/-- What the ports show of the last step. -/
def shown (s : State) : Outputs := shownOf s.out

/-- The decoder's results in a list of outputs, the empty polls' `NoProgress` left out (R182). -/
def resultsOf (outs : List Outputs) : List RxResult :=
  outs.filterMap fun o => if o.rxResult = some .noProgress then none else o.rxResult

end Sys2Proof.Machine
end

