-- ==== Sys2Proof/Machine/Crc.lean ====
section
/-! DEFINITION. The CRC Engine's operations (40_crc.md). The engine holds no register: it works on the accumulator of the
user that calls it (R110, R111, conflict C9). -/

namespace Sys2Proof.Machine

/-- The accumulator of a user: `d_crc` or `e_crc` (R110). -/
def accOf (u : CrcUser) (s : State) : Word :=
  match u with
  | .decoder => s.ses.crc
  | .encoder => s.enc.crc

/-- Write the accumulator of a user. -/
def withAcc (u : CrcUser) (v : Word) (s : State) : State :=
  match u with
  | .decoder => { s with ses := { s.ses with crc := v } }
  | .encoder => { s with enc := { s.enc with crc := v } }

/-- `CRC.INIT` (R111): `acc <- crcInit`. -/
def execCrcInit (u : CrcUser) (s : State) : Result :=
  .next { withAcc u s.cfg.crcInit s with out := [] }

/-- `CRC.UPD b` (R112): `acc <- crcUpdate(acc, b)`. -/
def execCrcUpd (u : CrcUser) (b : Byte) (s : State) : Result :=
  .next { withAcc u (crcUpdate s.cfg.crcFn (accOf u s) b) s with out := [] }

end Sys2Proof.Machine
end

