-- ==== Sys2Proof/Machine/FrameDecoder.lean ====
section
/-! DEFINITION. The Frame Decoder's operations (42_decoder.md, rules R140 to R152), and the wire frame (R96, R100). -/

namespace Sys2Proof.Machine

/-- The effect of R141 on a byte, with `d_st` taken as `WaitSync1`: a sync byte advances, any other is the silent
condition Desync (R201). -/
def huntSync1 (b : Byte) (s : State) : State :=
  if b = s.cfg.sync then { s with ses := { s.ses with st := .waitSync2 }, out := [byteOut .consumed] }
  else takeCondition .desync s

/-- `DEC.SYNC1 b` (R141). -/
def execDecSync1 (b : Byte) (s : State) : Result :=
  whenDec .waitSync1 s (.next (huntSync1 b s))

/-- `DEC.SYNC2 b` (R142): the sync pair starts a new transaction; any other byte is re-examined as R141 does. -/
def execDecSync2 (b : Byte) (s : State) : Result :=
  whenDec .waitSync2 s (.next
    (if b = s.cfg.sync then
      { withStatus .noFlags s with
        ses := { s.ses with st := .readId, facc := 0, fcnt := 0, crc := s.cfg.crcInit, wd := 0 }
        out := [byteOut .consumed] }
    else huntSync1 b s))

/-- The second byte of the id: id and length are latched, length 0 goes straight to the CRC field (R143, R174). A
`lenOf` above `MAX_LEN` is a rejected configuration (U6). -/
def completeId (b : Byte) (s : State) : Result :=
  let v := shiftIn s.ses.facc b
  let n := s.cfg.lenOf v
  if n ≤ s.cfg.maxLen then
    .next { s with
      rx := { s.rx with id := v, len := n }
      ses := { s.ses with
        crc := crcUpdate s.cfg.crcFn s.ses.crc b
        facc := 0
        fcnt := 0
        cur := 0
        st := if n = 0 then .readCrc else .readPayload }
      out := [{ byteOut .consumed with lenId := some v }] }
  else .refused (.lenOfAboveMax v)

/-- `DEC.ID b` (R143). -/
def execDecId (b : Byte) (s : State) : Result :=
  whenDec .readId s
    (if s.ses.fcnt = 0 then
      .next { s with
        ses := { s.ses with
          crc := crcUpdate s.cfg.crcFn s.ses.crc b
          facc := shiftIn s.ses.facc b
          fcnt := 1 }
        out := [byteOut .consumed] }
    else completeId b s)

/-- `DEC.PAY b` (R144): the byte goes to `RXBUF[d_cur]` before any validation. -/
def execDecPay (b : Byte) (s : State) : Result :=
  whenDec .readPayload s
    (if s.ses.cur < s.cfg.maxLen then
      .next { s with
        rx := { s.rx with buf := s.rx.buf.store s.ses.cur b }
        ses := { s.ses with
          crc := crcUpdate s.cfg.crcFn s.ses.crc b
          cur := s.ses.cur + 1
          st := if s.ses.cur + 1 = s.rx.len then .readCrc else .readPayload }
        out := [{ byteOut .consumed with plWrite := some (s.ses.cur, b) }] }
    else .fault (.rxbufIndex s.ses.cur))

/-- The second byte of the CRC field: the frame ends, and the session returns (R145, R146, R202). -/
def finishFrame (b : Byte) (s : State) : State :=
  let rcrc := shiftIn s.ses.facc b
  if rcrc = s.ses.crc then
    { withStatus .newData (sessionReturn s) with out := [byteOut .accepted] }
  else takeCondition (.checksumMismatch rcrc s.ses.crc) s

/-- `DEC.CRC b` (R145): the CRC bytes are not folded. -/
def execDecCrc (b : Byte) (s : State) : Result :=
  whenDec .readCrc s (.next
    (if s.ses.fcnt = 0 then
      { s with
        ses := { s.ses with facc := shiftIn s.ses.facc b, fcnt := 1 }
        out := [byteOut .consumed] }
    else finishFrame b s))

/-- `DEC.NOBYTE` (R147), in any state. -/
def execDecNobyte (s : State) : Result := .next { s with out := [quietOut .noProgress] }

/-- One decoder step with a byte: the operation the state names (R140). -/
def byteStep (b : Byte) (s : State) : Result :=
  match s.ses.st with
  | .waitSync1 => execDecSync1 b s
  | .waitSync2 => execDecSync2 b s
  | .readId => execDecId b s
  | .readPayload => execDecPay b s
  | .readCrc => execDecCrc b s

/-- Bytes back to back: one decoder step per byte, in order, the outputs of each kept (R100, R140). -/
def feed : List Byte → State → Result
  | [], s => .next { s with out := [] }
  | b :: bs, s => followedBy (byteStep b s) (feed bs)

/-- DEDUCED (assumption 10): `FRAME` (R81, R96) as the trace line `frame` of R100: the decoder's byte steps on the frame's bytes, one after
another. The transmit side of the row is what the encoder's operations send (R132). -/
def execFrame (id : Word) (payload : List Byte) (crc : Word) (s : State) : Result :=
  feed (frameBytes s.cfg id payload crc) s

/-- What a `DEC.POLL` call returns: the state, the call's result, the bytes left with the Transport (R152). -/
structure PollReturn where
  state : State
  result : RxResult
  left : List Byte
  deriving DecidableEq, Repr

/-- `DEC.POLL` on the bytes the Transport has (R152): byte steps until a terminal result or until no byte is left;
`took` says whether the call has already consumed a byte. It has no row in the table. -/
def poll (took : Bool) : List Byte → State → Host.Outcome PollReturn Fault Refusal
  | [], s =>
    match execDecNobyte s with
    | .next t => .next ⟨t, if took then .consumed else .noProgress, []⟩
    | .fault f => .fault f
    | .refused f => .refused f
  | b :: bs, s =>
    match byteStep b s with
    | .next t =>
      if (shown t).rxResult = some .accepted then .next ⟨t, .accepted, bs⟩
      else if (shown t).rxResult = some .rejected then .next ⟨t, .rejected, bs⟩
      else poll true bs t
    | .fault f => .fault f
    | .refused f => .refused f

end Sys2Proof.Machine
end

