-- ==== Sys2Proof/Machine/FrameEncoder.lean ====
section
/-! DEFINITION. The Frame Encoder's operations (41_encoder.md, rules R120 to R130). -/

namespace Sys2Proof.Machine

/-- `ENC.START id, len` (R120), selected in `Idle`. It offers no byte. A length above `MAX_LEN` is outside the rule
(U15). -/
def execEncStart (id : Word) (len : Nat) (s : State) : Result :=
  if s.enc.st = .idle then
    if len ≤ s.cfg.maxLen then
      .next { s with
        enc := { st := .sync1, id := id, len := len, cur := 0, crc := s.cfg.crcInit, retry := 0 }
        out := [putOut .started none] }
    else .refused (.txLenAboveMax len)
  else .refused .notSelected

/-- `ENC.NOP` (R122), selected in `Idle`. -/
def execEncNop (s : State) : Result :=
  if s.enc.st = .idle then .next { s with out := [putOut .idle none] } else .refused .notSelected

/-- `ENC.PUT.SYNC1` (R123). -/
def execEncPutSync1 (s : State) : Result :=
  whenPut .sync1 s fun b s =>
    { s with enc := { s.enc with st := .sync2 }, out := [putOut .progress (some b)] }

/-- `ENC.PUT.SYNC2` (R124). -/
def execEncPutSync2 (s : State) : Result :=
  whenPut .sync2 s fun b s =>
    { s with enc := { s.enc with st := .idHi }, out := [putOut .progress (some b)] }

/-- `ENC.PUT.IDHI` (R125): the high id byte is folded. -/
def execEncPutIdHi (s : State) : Result :=
  whenPut .idHi s fun b s =>
    { s with
      enc := { s.enc with crc := crcUpdate s.cfg.crcFn s.enc.crc (hiByte s.enc.id), st := .idLo }
      out := [putOut .progress (some b)] }

/-- `ENC.PUT.IDLO` (R126): the low id byte is folded; length 0 skips `Payload`. -/
def execEncPutIdLo (s : State) : Result :=
  whenPut .idLo s fun b s =>
    { s with
      enc := { s.enc with
        crc := crcUpdate s.cfg.crcFn s.enc.crc (loByte s.enc.id)
        st := if s.enc.len = 0 then .crcHi else .payload }
      out := [putOut .progress (some b)] }

/-- `ENC.PUT.PAY` (R127): the byte read from `TXBUF[e_cur]` is sent and folded. -/
def execEncPutPay (s : State) : Result :=
  whenPut .payload s fun b s =>
    { s with
      enc := { s.enc with
        crc := crcUpdate s.cfg.crcFn s.enc.crc b
        cur := s.enc.cur + 1
        st := if s.enc.cur + 1 = s.enc.len then .crcHi else .payload }
      out := [putOut .progress (some b)] }

/-- `ENC.PUT.CRCHI` (R128): `e_crc` is not changed. -/
def execEncPutCrcHi (s : State) : Result :=
  whenPut .crcHi s fun b s =>
    { s with enc := { s.enc with st := .crcLo }, out := [putOut .progress (some b)] }

/-- `ENC.PUT.CRCLO` (R129): the encode operation is done; the other registers keep their values. -/
def execEncPutCrcLo (s : State) : Result :=
  whenPut .crcLo s fun b s =>
    { s with enc := { s.enc with st := .idle }, out := [putOut .done (some b)] }

/-- `ENC.DECLINE` (R130), selected in every state but `Idle`: one unit of the budget, or the condition TransportBusy.
The declined byte shows on the port and goes nowhere. -/
def execEncDecline (s : State) : Result :=
  if s.enc.st = .idle then .refused .notSelected
  else
    match offeredByte s with
    | none => .fault (.txbufIndex s.enc.cur)
    | some b =>
      if s.enc.retry < s.cfg.retryBudget then
        .next { s with enc := { s.enc with retry := s.enc.retry + 1 }, out := [putOut .retry (some b)] }
      else
        let t := takeCondition (.transportBusy s.enc.st s.enc.cur) s
        .next { t with out := t.out.map fun o => { o with offered := some b } }

end Sys2Proof.Machine
end

