-- ==== Sys2Proof/Machine/SystemOps.lean ====
section
/-! DEFINITION. The system operations (43_system.md, rules R171 to R173). -/

namespace Sys2Proof.Machine

/-- The decoder is hunting (R16). -/
def hunting (st : DSt) : Bool :=
  match st with
  | .waitSync1 => true
  | .waitSync2 => true
  | .readId => false
  | .readPayload => false
  | .readCrc => false

/-- `SYS.RESET` (R171): every register but the buffers; nothing is consumed, offered or raised. -/
def execSysReset (s : State) : Result :=
  .next { sessionReturn s with
    rx := { s.rx with id := 0, len := 0, status := .noFlags }
    enc := Encoder.init s.cfg
    out := [{ rxResult := some .quiet, txResult := some .idle }] }

/-- `SYS.TAKE` (R172). -/
def execSysTake (s : State) : Result :=
  .next { withStatus .noFlags s with out := [quietOut .quiet] }

/-- `SYS.TICK` (R173): not counted while hunting or without a limit; else it counts or fires. -/
def execSysTick (s : State) : Result :=
  match s.cfg.watchdogLimit with
  | none => .next { s with out := [quietOut .quiet] }
  | some limit =>
    if hunting s.ses.st then .next { s with out := [quietOut .quiet] }
    else if s.ses.wd + 1 ≥ (limit : Nat) then .next (takeCondition (.truncated s.ses.st s.ses.cur) s)
    else .next { s with ses := { s.ses with wd := s.ses.wd + 1 }, out := [quietOut .quiet] }

end Sys2Proof.Machine
end

