-- ==== Sys2Proof/Machine/Dispatch.lean ====
section
/-! DEFINITION. One arm per operation, each one call of its meaning. -/

namespace Sys2Proof.Machine

def exec (i : Instr) (s : State) : Host.Outcome State Fault Refusal :=
  match i with
  | .crcInit u => Sys2Proof.Machine.execCrcInit u s
  | .crcUpd u b => Sys2Proof.Machine.execCrcUpd u b s
  | .encNop => Sys2Proof.Machine.execEncNop s
  | .encStart id len => Sys2Proof.Machine.execEncStart id len s
  | .encPutSync1 => Sys2Proof.Machine.execEncPutSync1 s
  | .encPutSync2 => Sys2Proof.Machine.execEncPutSync2 s
  | .encPutIdHi => Sys2Proof.Machine.execEncPutIdHi s
  | .encPutIdLo => Sys2Proof.Machine.execEncPutIdLo s
  | .encPutPay => Sys2Proof.Machine.execEncPutPay s
  | .encPutCrcHi => Sys2Proof.Machine.execEncPutCrcHi s
  | .encPutCrcLo => Sys2Proof.Machine.execEncPutCrcLo s
  | .encDecline => Sys2Proof.Machine.execEncDecline s
  | .decNobyte => Sys2Proof.Machine.execDecNobyte s
  | .decSync1 b => Sys2Proof.Machine.execDecSync1 b s
  | .decSync2 b => Sys2Proof.Machine.execDecSync2 b s
  | .decId b => Sys2Proof.Machine.execDecId b s
  | .decPay b => Sys2Proof.Machine.execDecPay b s
  | .decCrc b => Sys2Proof.Machine.execDecCrc b s
  | .sysReset => Sys2Proof.Machine.execSysReset s
  | .sysTake => Sys2Proof.Machine.execSysTake s
  | .sysTick => Sys2Proof.Machine.execSysTick s
  | .frame id payload crc => Sys2Proof.Machine.execFrame id payload crc s

end Sys2Proof.Machine
end

