-- ==== Sys2Proof/Machine/Select.lean ====
section
/-! DEFINITION. Operation selection (R91 to R96): the selector words the input signals and the state form, in the order of
R175, and performing what they select. -/

namespace Sys2Proof.Machine

/-- The SYS word of requests `{rst, take, tick}` (R94). -/
def sysWord (rst take tick : Bool) : SelWord :=
  .sys (BitVec.ofBool rst ++ BitVec.ofBool take ++ BitVec.ofBool tick)

/-- The DEC words of the receive signals in a state (R92): none when no decoder step is asked. The data bits of an
empty answer are zero. -/
def decWords (st : DSt) : RxIn → List SelWord
  | .notAsked => []
  | .empty => [.dec (0#1 ++ dstCode st ++ 0#8)]
  | .byte b => [.dec (1#1 ++ dstCode st ++ b)]

/-- The ENC words of the transmit signals in a state (R93): none when no encoder step is asked. -/
def encWords (st : ESt) : Option EncIn → List SelWord
  | none => []
  | some e => [.enc (BitVec.ofBool e.start ++ estCode st ++ BitVec.ofBool e.ready) e.id e.len]

/-- The words one step's signals form, in the order of R175: reset alone; else take, the decoder step, tick, and the
encoder step, which commutes with those (R11). -/
def selectWords (g : Signals) (s : State) : List SelWord :=
  if g.rst then [sysWord true g.take g.tick]
  else
    (if g.take then [sysWord false true false] else [])
      ++ decWords s.ses.st g.rx
      ++ (if g.tick then [sysWord false false true] else [])
      ++ encWords s.enc.st g.enc

/-- The operation one word selects, performed. -/
def runWord (w : SelWord) (s : State) : Result :=
  match decode s.cfg w with
  | .ok i => exec i s
  | .error e => .refused (.undecodable e)

/-- The operations of one step, one after another; a step that requests none shows no outputs (R225). -/
def runWords : List SelWord → State → Result
  | [], s => .next { s with out := [] }
  | w :: ws, s => followedBy (runWord w s) (runWords ws)

/-- What one input of the environment does, the input already removed from the pending ones. -/
def perform (q : Input) (s : State) : Result :=
  match q with
  | .signals g => runWords (selectWords g s) s
  | .crcCall u w => runWord (.crc w u) s
  | .wire bytes =>
    match decode s.cfg (.wire bytes) with
    | .ok i => exec i s
    | .error _ => feed bytes s
  | .writeTx i bytes => callerWriteTx i bytes { s with out := [] }
  | .writeRx i bytes => callerWriteRx i bytes { s with out := [] }
  | .remap lens d => .next { s with cfg := { s.cfg with lens := lens, lenDefault := d }, out := [] }

/-- The input and the state bits that make the next step form a selector word: the signals from the word's signal bits,
the state register from its state bits (a code that names no state leaves the register). -/
def present (w : SelWord) (s : State) : State :=
  match w with
  | .dec v =>
    { s with
      ses := { s.ses with st := (dstOfCode (v.extractLsb' 8 3)).getD s.ses.st }
      inputs := .signals { rx := if v.getLsbD 11 then .byte (v.extractLsb' 0 8) else .empty } :: s.inputs }
  | .enc v id len =>
    { s with
      enc := { s.enc with st := (estOfCode (v.extractLsb' 1 4)).getD s.enc.st }
      inputs := .signals { enc := some { start := v.getLsbD 5, id := id, len := len, ready := v.getLsbD 0 } } :: s.inputs }
  | .sys v =>
    { s with inputs := .signals { rst := v.getLsbD 2, take := v.getLsbD 1, tick := v.getLsbD 0 } :: s.inputs }
  | .crc v u => { s with inputs := .crcCall u v :: s.inputs }
  | .wire bytes => { s with inputs := .wire bytes :: s.inputs }

end Sys2Proof.Machine
end

