-- ==== Sys2Proof/Machine/Step.lean ====
section
/-! DEFINITION. One step: the environment's next input and what it selects (R10, R37). The block fetches nothing (R40):
where a processor fetches at a program counter, this machine takes the pending input and its own state registers. -/

namespace Sys2Proof.Machine

/-- One step. With no input pending nothing happens (R225, R240), and no output shows. -/
def step (s : State) : Host.Outcome State Fault Refusal :=
  match s.inputs with
  | [] => .next { s with out := [] }
  | q :: rest => perform q { s with inputs := rest }

/-- The state whose next step forms the selector word numbered `w` in the opcode table (assumptions 6 and 11). -/
def State.withFetchWord (s : State) (nbits w : Nat) : State :=
  match tableWord s.cfg nbits w with
  | some sel => present sel s
  | none => s

end Sys2Proof.Machine
end

