-- ==== Sys2Proof/Safety.lean ====
section
/-! DEFINITION. The terms statements are made in: the invariants of 10_state.md and 42_decoder.md, the premises on the
Caller (70_reset_and_hazards.md), the agents' operation sets, and runs. -/

namespace Sys2Proof.Machine

/-! ### Agents -/

/-- The encoder's operations (R14). -/
def isEncoderOp : Instr → Bool
  | .encNop | .encStart _ _ | .encPutSync1 | .encPutSync2 | .encPutIdHi | .encPutIdLo | .encPutPay => true
  | .encPutCrcHi | .encPutCrcLo | .encDecline => true
  | .decNobyte | .decSync1 _ | .decSync2 _ | .decId _ | .decPay _ | .decCrc _ => false
  | .crcInit _ | .crcUpd _ _ => false
  | .sysReset | .sysTake | .sysTick | .frame _ _ _ => false

/-- The decoder's operations (R14). -/
def isDecoderOp : Instr → Bool
  | .decNobyte | .decSync1 _ | .decSync2 _ | .decId _ | .decPay _ | .decCrc _ => true
  | .encNop | .encStart _ _ | .encPutSync1 | .encPutSync2 | .encPutIdHi | .encPutIdLo | .encPutPay => false
  | .encPutCrcHi | .encPutCrcLo | .encDecline => false
  | .crcInit _ | .crcUpd _ _ => false
  | .sysReset | .sysTake | .sysTick | .frame _ _ _ => false

/-- The operations of the receive side that R11 and R175 let commute with the encoder's: the decoder's, the frame's
byte steps, `SYS.TAKE` and `SYS.TICK`. -/
def isReceiveOp : Instr → Bool
  | .decNobyte | .decSync1 _ | .decSync2 _ | .decId _ | .decPay _ | .decCrc _ => true
  | .sysTake | .sysTick | .frame _ _ _ => true
  | .encNop | .encStart _ _ | .encPutSync1 | .encPutSync2 | .encPutIdHi | .encPutIdLo | .encPutPay => false
  | .encPutCrcHi | .encPutCrcLo | .encDecline => false
  | .crcInit _ | .crcUpd _ _ => false
  | .sysReset => false

/-- The state without the outputs of the last step, which are no state of the block (R37). -/
def State.quiet (s : State) : State := { s with out := [] }

/-! ### The Caller's premises -/

/-- What the Caller must respect in an input (R244, U6, U15, R60), and no direct call of the CRC Engine on a register of
the block (R20, R30: only the agents' own operations write their registers). -/
def inputOk (c : Config) : Input → Bool
  | .signals g =>
    match g.enc with
    | none => true
    | some e => !e.start || decide (e.len ≤ c.maxLen)
  | .crcCall _ _ => false
  | .wire _ => true
  | .writeTx i bytes => decide (i + bytes.length ≤ c.maxLen)
  | .writeRx i bytes => decide (i + bytes.length ≤ c.maxLen)
  | .remap lens d => decide (lensWithin c.maxLen lens d)

/-- The Caller does not write RXBUF in this input (R257). -/
def keepsRxBuf : Input → Bool
  | .writeRx _ _ => false
  | _ => true

/-! ### Invariants -/

/-- The Decoder Session's invariants (R22, R23, R25, R26, R154 a, b, d, e). -/
abbrev SessionOk (s : State) : Prop :=
  (hunting s.ses.st = true → s.ses = { Session.init s.cfg with st := s.ses.st })
  ∧ (s.ses.fcnt = 0 → s.ses.facc = 0)
  ∧ (s.ses.fcnt = 1 → s.ses.st = .readId ∨ s.ses.st = .readCrc)
  ∧ (s.ses.st = .readPayload → s.ses.cur < s.rx.len)
  ∧ (s.ses.st = .readCrc → s.ses.cur = s.rx.len)
  ∧ (hunting s.ses.st = false → s.rx.status = .noFlags)
  ∧ s.rx.len ≤ s.cfg.maxLen
  ∧ (s.cfg.watchdogLimit = none → s.ses.wd = 0)
  ∧ (∀ limit ∈ s.cfg.watchdogLimit, s.ses.wd < (limit : Nat))

/-- The encoder's invariants (R33, R34, R35, R62). -/
abbrev EncoderOk (s : State) : Prop :=
  s.enc.len ≤ s.cfg.maxLen
  ∧ s.enc.retry ≤ s.cfg.retryBudget
  ∧ (s.enc.st = .payload → s.enc.cur < s.enc.len)
  ∧ (s.enc.st = .crcHi ∨ s.enc.st = .crcLo → s.enc.cur = s.enc.len)
  ∧ (s.enc.st = .sync1 ∨ s.enc.st = .sync2 ∨ s.enc.st = .idHi →
      s.enc.cur = 0 ∧ s.enc.crc = s.cfg.crcInit)
  ∧ (s.enc.st = .idLo → s.enc.cur = 0)

/-- Every length and cursor register holds a value of `LEN_W` bits (R8, R23, R27, R32, R33, R115). -/
abbrev WidthsOk (s : State) : Prop :=
  s.cfg.fitsLen s.ses.cur ∧ s.cfg.fitsLen s.rx.len ∧ s.cfg.fitsLen s.enc.len ∧ s.cfg.fitsLen s.enc.cur

/-- Both buffers are in canonical form and inside their `MAX_LEN` cells (R60). -/
abbrev BuffersOk (s : State) : Prop :=
  s.rx.buf.wf ∧ s.txBuf.wf
  ∧ (∀ e ∈ s.rx.buf, e.1 < s.cfg.maxLen) ∧ (∀ e ∈ s.txBuf, e.1 < s.cfg.maxLen)

/-- The machine's invariant, the Caller's premises on the pending inputs among it. -/
abbrev Inv (s : State) : Prop :=
  s.cfg.Wf ∧ SessionOk s ∧ EncoderOk s ∧ WidthsOk s ∧ BuffersOk s ∧ ∀ q ∈ s.inputs, inputOk s.cfg q = true

/-- `RXBUF[0], ..., RXBUF[n-1]`. -/
def received (s : State) (n : Nat) : List Byte := (List.range n).filterMap (rxCell s)

/-- The decoder's running CRC covers exactly the id and payload bytes so far (R24, R154 b, c). -/
abbrev DecoderCrcOk (s : State) : Prop :=
  (s.ses.st = .readId → s.ses.crc = if s.ses.fcnt = 0 then s.cfg.crcInit else crcOf s.cfg [loByte s.ses.facc])
  ∧ (s.ses.st = .readPayload ∨ s.ses.st = .readCrc →
      s.ses.crc = crcOf s.cfg (hiByte s.rx.id :: loByte s.rx.id :: received s s.ses.cur))

/-! ### Runs -/

/-- `k` steps of the machine. -/
abbrev run (k : Nat) (s : State) : Result := Host.Core.run Sys2Proof.core k s

/-- The bytes a list of signals presents to the decoder, in order. -/
def bytesOf (gs : List Signals) : List Byte := gs.filterMap rxByte

/-- The outputs of `k` steps, in order, one entry per operation; a run that stops ends the list. -/
def trace : Nat → State → List Outputs
  | 0, _ => []
  | k + 1, s =>
    match step s with
    | .next t => t.out ++ trace k t
    | .fault _ => []
    | .refused _ => []

/-- "Feed bytes `w`" (44_properties.md, R187): the next steps are `gs`; their bytes are `w`, with any empty polls, takes,
ticks that do not fire and encoder steps between them or beside them, and no reset. -/
abbrev Feeds (s : State) (gs : List Signals) (w : List Byte) : Prop :=
  gs.map .signals <+: s.inputs ∧ bytesOf gs = w
  ∧ (∀ g ∈ gs, g.rst = false ∧ inputOk s.cfg (.signals g) = true) ∧ EncoderOk s
  ∧ ∀ o ∈ trace gs.length s, o.rxResult ≠ some .truncated

/-- An input that only delivers bytes, or none: an empty poll, one byte, or bytes back to back (R182). -/
def onlyDelivers : Input → Bool
  | .signals g => decide (g = { rx := .empty }) || (rxByte g).any fun b => decide (g = { rx := .byte b })
  | .wire _ => true
  | .crcCall _ _ => false
  | .writeTx _ _ => false
  | .writeRx _ _ => false
  | .remap _ _ => false

/-- The last of the signals carries a byte. -/
abbrev endsWithByte (gs : List Signals) : Prop := (gs.getLast?.bind rxByte).isSome = true

/-- The Transport's answers in a list of signals, in order: accepted or declined (R37). -/
def answersIn (gs : List Signals) : List Bool := gs.filterMap fun g => g.enc.map fun e => e.ready

/-- The last of the signals carries this answer. -/
abbrev endsWithAnswer (gs : List Signals) (a : Bool) : Prop :=
  (gs.getLast?.bind fun g => g.enc.map fun e => e.ready) = some a

/-- No two adjacent sync bytes, `prev` saying whether the byte before was one, and no sync byte at the end (R184 a). -/
def noSyncPair (c : Config) (prev : Bool) : List Byte → Bool
  | [] => !prev
  | b :: bs => !(prev && decide (b = c.sync)) && noSyncPair c (decide (b = c.sync)) bs

/-- One bit of one byte flipped: bit `k` of the byte at offset `j` (R181). -/
def flipBit (w : List Byte) (j k : Nat) : List Byte := w.modify j fun b => b ^^^ (1#8 <<< k)

/-- The operation an encoder step's signals select in a state (R93): the specification the selector words meet. -/
def encoderOpFor (st : ESt) (e : EncIn) : Instr :=
  match putOp st with
  | none => if e.start then .encStart e.id e.len else .encNop
  | some put => if e.ready then put else .encDecline

/-- The operations one step's signals ask for, in the order of R175, reset apart. -/
def operationsOf (g : Signals) (s : State) : List Instr :=
  (if g.take then [.sysTake] else [])
    ++ (match g.rx with
        | .notAsked => []
        | .empty => [.decNobyte]
        | .byte b => [decOp s.ses.st b])
    ++ (if g.tick then [.sysTick] else [])
    ++ (match g.enc with
        | none => []
        | some e => [encoderOpFor s.enc.st e])

/-- Operations applied one after another, the outputs of the step gathered (R175). -/
def inOrder : List Instr → State → Result
  | [], s => .next s.quiet
  | i :: is, s => followedBy (exec i s) (inOrder is)

end Sys2Proof.Machine
end

