-- ==== Sys2Proof/Certificates/Slice0/Obligations.lean ====
section
/-! DEFINITION. The statements about the model, for the provers: one definition each, its docstring naming the rule of
spec/ it formalises. Wherever a statement writes `out` out, three things in it are the model's choice and no rule's: that a
step's outputs are a list with one entry per operation (assumption 14), `took`, the record of a byte taken (assumption 18),
and `raised`, the record of the conditions, which no port shows (assumption 23). -/

open Sys2Proof Sys2Proof.Machine

/-! ### Encodings and selection -/

/-- The decoder gives back every well-formed operation from its encoding (R92 to R96). -/
def Obligations.DecodeGivesBackEncodedOperation : Prop :=
  ∀ (c : Config) (i : Instr), i.wellFormed c = true → decode c (encode c i) = .ok i

/-- Every word the decoder accepts lies in its operation's row of the opcode table (R92 to R96). -/
def Obligations.DecodedWordLiesInItsRow : Prop :=
  ∀ (c : Config) (w : SelWord) (i : Instr), c.sync = 0xFF → decode c w = .ok i → (rowOf i).holds w

/-- Reserved state codes select nothing (R92, R93, R97): `d_st` 5 to 7 with a byte, `e_st` 0001 to 0111 and 1111. -/
def Obligations.ReservedCodesSelectNothing : Prop :=
  (∀ (c : Config) (w : BitVec 12), w.getLsbD 11 = true → 5 ≤ (w.extractLsb' 8 3).toNat →
    decode c (.dec w) = .error (.reservedDst (w.extractLsb' 8 3)))
  ∧ (∀ (c : Config) (w : BitVec 6) (id : Word) (len : Nat),
    (1 ≤ (w.extractLsb' 1 4).toNat ∧ (w.extractLsb' 1 4).toNat ≤ 7) ∨ (w.extractLsb' 1 4).toNat = 15 →
    decode c (.enc w id len) = .error (.reservedEst (w.extractLsb' 1 4)))

/-- Words of the programs of 95_test_vectors.md decode to the operations named there (sanity). -/
def Obligations.ProgramWordsDecode : Prop :=
  ∀ c : Config,
    decode c (.dec 0x8FF) = .ok (.decSync1 0xFF) ∧ decode c (.dec 0x937) = .ok (.decSync2 0x37)
    ∧ decode c (.dec 0xA01) = .ok (.decId 0x01) ∧ decode c (.dec 0xB0A) = .ok (.decPay 0x0A)
    ∧ decode c (.dec 0xCC2) = .ok (.decCrc 0xC2) ∧ decode c (.dec 0x300) = .ok .decNobyte
    ∧ decode c (.enc 0b100000 0x0102 2) = .ok (.encStart 0x0102 2)
    ∧ decode c (.enc 0b110011 0xBEEF 1) = .ok .encPutSync2
    ∧ decode c (.enc 0b010100 0 0) = .ok .encDecline
    ∧ decode c (.sys 0b100) = .ok .sysReset ∧ decode c (.sys 0b010) = .ok .sysTake
    ∧ decode c (.sys 0b001) = .ok .sysTick ∧ decode c (.crc 0x131 .decoder) = .ok (.crcUpd .decoder 0x31)

/-- A step runs the decoded operation (R10, R91): when the pending signals form one selector word and the word decodes to
`i`, the step is `exec i` on the state with that input removed, and nothing is added around it. The other clauses are
the model's choice, not the spec's: the input that calls the engine directly (R95 has no signal for it; assumption 9),
the input that is a wire frame (assumption 10), and the step with no input pending, which only clears the record of the
outputs (assumptions 6 and 14). -/
def Obligations.StepRunsTheSelectedOperation : Prop :=
  (∀ (s : State) (g : Signals) (rest : List Input) (w : SelWord) (i : Instr),
    s.inputs = .signals g :: rest → selectWords g { s with inputs := rest } = [w] → decode s.cfg w = .ok i →
    step s = exec i { s with inputs := rest })
  ∧ (∀ (s : State) (u : CrcUser) (w : BitVec 9) (rest : List Input) (i : Instr),
    s.inputs = .crcCall u w :: rest → decode s.cfg (.crc w u) = .ok i → step s = exec i { s with inputs := rest })
  ∧ (∀ (s : State) (bytes : List Byte) (rest : List Input) (i : Instr),
    s.inputs = .wire bytes :: rest → decode s.cfg (.wire bytes) = .ok i → step s = exec i { s with inputs := rest })
  ∧ (∀ s : State, s.inputs = [] → step s = .next s.quiet)

/-- Requests of one step without `rst` (R91 to R94, R175): take, the decoder's operation for the state and the
Transport's answer, then tick, each on the state the one before left. That the encoder's operation comes last is the
model's choice (assumption 7, DEDUCED; R175 leaves its place free), and so is the list of outputs that `inOrder` keeps
(assumption 14, DESIGN CHOICE). -/
def Obligations.StepPerformsRequestsInOrder : Prop :=
  ∀ (s : State) (g : Signals) (rest : List Input),
    s.inputs = .signals g :: rest → g.rst = false →
    step s = inOrder (operationsOf g s) { s with inputs := rest }

/-- A byte and a tick requested in one step (R175, R208), for every byte in every decoder state, `t1` being what the byte
alone does. A byte that leaves the decoder mid-frame and a firing tick: the byte's effects stay, the session returns and
the step's result is `Truncated`. A byte that leaves it hunting (it ends the frame, accepted or rejected, or found no
sync): the tick does nothing and the byte's result is the step's. Then three instances with their values: any payload
byte, an accepted frame, a rejected one. That `shown` is what the ports show is assumption 14. -/
def Obligations.ByteBeforeTickInOneStep : Prop :=
  (∀ (s t1 : State) (b : Byte) (rest : List Input) (limit : PNat),
    s.inputs = .signals { rx := .byte b, tick := true } :: rest → s.cfg.watchdogLimit = some limit →
    exec (decOp s.ses.st b) { s with inputs := rest } = .next t1 →
    (hunting t1.ses.st = false → (limit : Nat) ≤ t1.ses.wd + 1 →
      ∃ t, step s = .next t ∧ (shown t).rxResult = some .truncated
        ∧ t.quiet = { t1 with ses := Session.init s.cfg }.quiet)
    ∧ (hunting t1.ses.st = true →
      ∃ t, step s = .next t ∧ (shown t).rxResult = (shown t1).rxResult ∧ t.quiet = t1.quiet))
  ∧ (∀ (s : State) (b : Byte) (rest : List Input) (limit : PNat),
    s.inputs = .signals { rx := .byte b, tick := true } :: rest → s.ses.st = .readPayload →
    s.ses.cur < s.cfg.maxLen → s.cfg.watchdogLimit = some limit → (limit : Nat) ≤ s.ses.wd + 1 →
    ∃ t, step s = .next t ∧ (shown t).rxResult = some .truncated ∧ t.ses = Session.init s.cfg
      ∧ rxCell t s.ses.cur = some b ∧ t.rx.status = s.rx.status)
  ∧ (∀ (s : State) (b : Byte) (rest : List Input),
    s.inputs = .signals { rx := .byte b, tick := true } :: rest → s.ses.st = .readCrc → s.ses.fcnt = 1 →
    ∃ t, step s = .next t ∧ t.ses = Session.init s.cfg
      ∧ (shown t).rxResult = some (if shiftIn s.ses.facc b = s.ses.crc then .accepted else .rejected)
      ∧ t.rx.status = if shiftIn s.ses.facc b = s.ses.crc then .newData else .dataLost)

/-- The encoder's operations commute with the receive side's (R11, R175): either order gives the same state, the outputs
of the last step apart. -/
def Obligations.EncoderCommutesWithReceiveSide : Prop :=
  ∀ (i j : Instr) (s t u : State), isEncoderOp i = true → isReceiveOp j = true →
    (exec i s = .next t → exec j t = .next u →
      ∃ t' u', exec j s = .next t' ∧ exec i t' = .next u' ∧ u'.quiet = u.quiet)
    ∧ (exec j s = .next t → exec i t = .next u →
      ∃ t' u', exec i s = .next t' ∧ exec j t' = .next u' ∧ u'.quiet = u.quiet)

/-! ### The CRC Engine -/

/-- `CRC.INIT` (R111): the user's accumulator becomes `crcInit`, 0xFFFF under decision D1, whatever it held; nothing else
changes. -/
def Obligations.CrcInitSeedsTheAccumulator : Prop :=
  ∀ (u : CrcUser) (s : State),
    exec (.crcInit u) s = .next { withAcc u s.cfg.crcInit s with out := [] }
    ∧ (s.cfg.Standard → accOf u (withAcc u s.cfg.crcInit s) = 0xFFFF)

/-- `CRC.UPD b` (R112): with `t` the eight-shift sequence of the rule, the user's accumulator becomes `t 8`; nothing else
changes. -/
def Obligations.CrcUpdDividesByThePolynomial : Prop :=
  ∀ (u : CrcUser) (b : Byte) (s : State) (t : Nat → Word),
    s.cfg.crcFn = .division 0x1021 →
    t 0 = accOf u s ^^^ (b ++ 0#8) →
    (∀ k < 8, t (k + 1) = if (t k).getLsbD 15 = true then (t k <<< 1) ^^^ 0x1021 else t k <<< 1) →
    exec (.crcUpd u b) s = .next { withAcc u (t 8) s with out := [] }

/-- The frame of the engine's operations: the other user's registers, the buffers, the streams and every register but the
named accumulator are unchanged (R110, R111, R112). -/
def Obligations.CrcOperationsChangeOneAccumulator : Prop :=
  ∀ (i : Instr) (u : CrcUser) (s t : State), (i = .crcInit u ∨ ∃ b, i = .crcUpd u b) → exec i s = .next t →
    t.cfg = s.cfg ∧ t.rx = s.rx ∧ t.txBuf = s.txBuf ∧ t.txStream = s.txStream ∧ t.inputs = s.inputs
    ∧ (u = .decoder → t.enc = s.enc ∧ t.ses = { s.ses with crc := t.ses.crc })
    ∧ (u = .encoder → t.ses = s.ses ∧ t.enc = { s.enc with crc := t.enc.crc })
    ∧ ∀ a, rxCell t a = rxCell s a ∧ txCell t a = txCell s a

/-- The byte-at-a-time form equals the eight-shift definition for every accumulator and byte (R114). -/
def Obligations.CrcByteFormAgrees : Prop :=
  ∀ (acc : Word) (b : Byte),
    crcDivide 0x1021 acc b =
      let x0 : Byte := hiByte acc ^^^ b
      let x : Word := (x0 ^^^ (x0 >>> 4)).zeroExtend 16
      (acc <<< 8) ^^^ (x <<< 12) ^^^ (x <<< 5) ^^^ x

/-- The update is linear over exclusive-or (R116 a), for every polynomial. -/
def Obligations.CrcUpdateIsLinear : Prop :=
  ∀ (poly a c : Word) (b d : Byte),
    crcDivide poly (a ^^^ c) (b ^^^ d) = crcDivide poly a b ^^^ crcDivide poly c d

/-- For a fixed byte the update is a bijection on accumulators; for a fixed accumulator it is injective on bytes
(R116 b). -/
def Obligations.CrcUpdateIsBijective : Prop :=
  (∀ b : Byte, Function.Bijective fun acc => crcDivide 0x1021 acc b)
  ∧ (∀ acc : Word, Function.Injective (crcDivide 0x1021 acc))

/-- Two id-and-payload sequences of one length that differ in exactly one byte have different CRCs, whatever the seed
(R116 c, which speaks of one bit). -/
def Obligations.OneChangedByteChangesTheCrc : Prop :=
  ∀ (c : Config) (m : List Byte) (j : Nat) (b : Byte), c.crcFn = .division 0x1021 → j < m.length → m[j]? ≠ some b →
    crcOf c (m.set j b) ≠ crcOf c m

/-- The check values of R118. -/
def Obligations.CrcCheckValues : Prop :=
  ∀ c : Config, c.Standard →
    crcOf c [0x31, 0x32, 0x33, 0x34, 0x35, 0x36, 0x37, 0x38, 0x39] = 0x29B1
    ∧ crcOf c [] = 0xFFFF ∧ crcOf c [0x00] = 0xE1F0 ∧ crcOf c [0xFF] = 0xFF00
    ∧ crcOf c [0xFF, 0xFF] = 0x0000 ∧ crcOf c [0x00, 0x00] = 0x1D0F
    ∧ crcOf c [0x01, 0x02, 0x0A, 0x0B] = 0xC2B4

/-! ### The encoder -/

/-- The byte offered in each state, with `tx_valid` set in every state but `Idle` (R121). -/
def Obligations.EncoderOffersTheByteOfItsState : Prop :=
  ∀ s : State,
    txValid s = decide (s.enc.st ≠ .idle)
    ∧ (s.enc.st = .idle → offeredByte s = none)
    ∧ (s.enc.st = .sync1 ∨ s.enc.st = .sync2 → offeredByte s = some s.cfg.sync)
    ∧ (s.enc.st = .idHi → offeredByte s = some (hiByte s.enc.id))
    ∧ (s.enc.st = .idLo → offeredByte s = some (loByte s.enc.id))
    ∧ (s.enc.st = .payload → s.enc.cur < s.cfg.maxLen →
        offeredByte s = some ((s.txBuf.find s.enc.cur).getD (Config.txBufStart s.enc.cur)))
    ∧ (s.enc.st = .crcHi → offeredByte s = some (hiByte s.enc.crc))
    ∧ (s.enc.st = .crcLo → offeredByte s = some (loByte s.enc.crc))

/-- `ENC.START id, len` in `Idle` (R120); in flight, `enc_start` is ignored and the request lost. -/
def Obligations.EncStartLatchesItsOperands : Prop :=
  (∀ (id : Word) (len : Nat) (s : State), s.enc.st = .idle → len ≤ s.cfg.maxLen →
    exec (.encStart id len) s = .next { s with
      enc := { st := .sync1, id := id, len := len, cur := 0, crc := s.cfg.crcInit, retry := 0 }
      out := [{ txResult := some .started }] })
  ∧ (∀ (s : State) (e : EncIn) (rest : List Input), s.enc.st ≠ .idle →
    s.inputs = .signals { enc := some e } :: rest →
    step s = step { s with inputs := .signals { enc := some { start := false, ready := e.ready } } :: rest })

/-- `ENC.PUT.SYNC1` and `ENC.PUT.SYNC2` (R123, R124): the TX stream gains the sync byte, `e_crc` is not changed. -/
def Obligations.EncPutSyncSendsTheSyncPair : Prop :=
  ∀ s : State,
    (s.enc.st = .sync1 → exec .encPutSync1 s = .next { s with
      enc := { s.enc with st := .sync2 }
      txStream := s.txStream ++ [s.cfg.sync]
      out := [{ txResult := some .progress, offered := some s.cfg.sync }] })
    ∧ (s.enc.st = .sync2 → exec .encPutSync2 s = .next { s with
      enc := { s.enc with st := .idHi }
      txStream := s.txStream ++ [s.cfg.sync]
      out := [{ txResult := some .progress, offered := some s.cfg.sync }] })

/-- `ENC.PUT.IDHI` and `ENC.PUT.IDLO` (R125, R126): the high byte of `e_id` is sent and folded, then the low byte; length 0
skips `Payload`. -/
def Obligations.EncPutIdSendsTheId : Prop :=
  ∀ s : State,
    (s.enc.st = .idHi → exec .encPutIdHi s = .next { s with
      enc := { s.enc with st := .idLo, crc := crcUpdate s.cfg.crcFn s.enc.crc (hiByte s.enc.id) }
      txStream := s.txStream ++ [hiByte s.enc.id]
      out := [{ txResult := some .progress, offered := some (hiByte s.enc.id) }] })
    ∧ (s.enc.st = .idLo → exec .encPutIdLo s = .next { s with
      enc := { s.enc with
        st := if s.enc.len = 0 then .crcHi else .payload
        crc := crcUpdate s.cfg.crcFn s.enc.crc (loByte s.enc.id) }
      txStream := s.txStream ++ [loByte s.enc.id]
      out := [{ txResult := some .progress, offered := some (loByte s.enc.id) }] })

/-- `ENC.PUT.PAY` (R127): `TXBUF[e_cur]` is sent unmodified and folded, the cursor moves, the last byte leaves `Payload`. -/
def Obligations.EncPutPaySendsTheBufferByte : Prop :=
  ∀ s : State, s.enc.st = .payload → s.enc.cur < s.cfg.maxLen →
    ∃ b, txCell s s.enc.cur = some b ∧ exec .encPutPay s = .next { s with
      enc := { s.enc with
        st := if s.enc.cur + 1 = s.enc.len then .crcHi else .payload
        cur := s.enc.cur + 1
        crc := crcUpdate s.cfg.crcFn s.enc.crc b }
      txStream := s.txStream ++ [b]
      out := [{ txResult := some .progress, offered := some b }] }

/-- `ENC.PUT.CRCHI` and `ENC.PUT.CRCLO` (R128, R129): the accumulator is sent as it is, high byte first, and kept. -/
def Obligations.EncPutCrcSendsTheAccumulator : Prop :=
  ∀ s : State,
    (s.enc.st = .crcHi → exec .encPutCrcHi s = .next { s with
      enc := { s.enc with st := .crcLo }
      txStream := s.txStream ++ [hiByte s.enc.crc]
      out := [{ txResult := some .progress, offered := some (hiByte s.enc.crc) }] })
    ∧ (s.enc.st = .crcLo → exec .encPutCrcLo s = .next { s with
      enc := { s.enc with st := .idle }
      txStream := s.txStream ++ [loByte s.enc.crc]
      out := [{ txResult := some .done, offered := some (loByte s.enc.crc) }] })

/-- `ENC.DECLINE` (R130, R203): with budget left the retry counter moves and the same byte is offered again; without, the
frame is abandoned with TransportBusy; either way nothing is sent or folded and the other registers keep their values. `raised`
is the model's own record, no port (assumption 23). -/
def Obligations.EncDeclineRetriesOrAbandons : Prop :=
  ∀ s : State, s.enc.st ≠ .idle → (s.enc.st = .payload → s.enc.cur < s.cfg.maxLen) →
    (s.enc.retry < s.cfg.retryBudget →
      ∃ t, exec .encDecline s = .next t ∧ offeredByte t = offeredByte s
        ∧ t = { s with
            enc := { s.enc with retry := s.enc.retry + 1 }
            out := [{ txResult := some .retry, offered := offeredByte s }] })
    ∧ (s.cfg.retryBudget ≤ s.enc.retry →
      exec .encDecline s = .next { s with
        enc := { s.enc with st := .idle }
        out := [{ txResult := some .transportBusy, offered := offeredByte s
                  raised := [.transportBusy s.enc.st s.enc.cur] }] })

/-- The frame of the encoder's operations (R30, R36, R41, R67): they leave the session, the RX Message Object, both
buffers and the configuration alone; registers change only in the operations the rules name, and the TX stream only
grows, by nothing in `ENC.NOP`, `ENC.START` and `ENC.DECLINE` and by the offered byte in the others. -/
def Obligations.EncoderOperationsFrame : Prop :=
  ∀ (i : Instr) (s t : State), isEncoderOp i = true → exec i s = .next t →
    t.cfg = s.cfg ∧ t.ses = s.ses ∧ t.rx = s.rx ∧ t.txBuf = s.txBuf ∧ t.inputs = s.inputs
    ∧ (∀ a, rxCell t a = rxCell s a ∧ txCell t a = txCell s a)
    ∧ ((∃ id len, i = .encStart id len) ∨
        (t.enc.id = s.enc.id ∧ t.enc.len = s.enc.len
          ∧ (i ≠ .encPutPay → t.enc.cur = s.enc.cur)
          ∧ (i ≠ .encPutIdHi ∧ i ≠ .encPutIdLo ∧ i ≠ .encPutPay → t.enc.crc = s.enc.crc)
          ∧ (i ≠ .encDecline → t.enc.retry = s.enc.retry)
          ∧ (i = .encNop → t.enc = s.enc)))
    ∧ (if i = .encNop ∨ i = .encDecline ∨ s.enc.st = .idle then t.txStream = s.txStream
        else t.txStream = s.txStream ++ (offeredByte s).toList)

/-- A whole encode operation (R132, R134): started with `id`, a payload in TXBUF and its length, with as many accepts as
the frame has bytes, declines within the budget, and any traffic of the receive side in the same steps, it ends with
`Done` and has appended exactly the frame to the TX stream. -/
def Obligations.EncodeOperationSendsTheFrame : Prop :=
  ∀ (s : State) (id : Word) (p : List Byte) (r : Bool) (g : Signals) (gs : List Signals) (rest : List Input),
    Inv s → s.enc.st = .idle → p.length ≤ s.cfg.maxLen → (∀ k < p.length, txCell s k = p[k]?) →
    s.inputs = .signals g :: (gs.map .signals ++ rest) →
    g.rst = false → g.enc = some { start := true, id := id, len := p.length, ready := r } →
    (∀ h ∈ gs, h.rst = false) →
    (answersIn gs).count true = p.length + 6 → endsWithAnswer gs true →
    (answersIn gs).count false ≤ s.cfg.retryBudget →
    ∃ t, run (gs.length + 1) s = .next t ∧ t.txStream = s.txStream ++ frameOf s.cfg id p
      ∧ (shown t).txResult = some .done ∧ t.enc.st = .idle

/-- An abandoned encode operation (R130, R132, R203): when the declines use up the budget and one more comes before the
last byte was accepted, the operation ends with `TransportBusy` and has appended a proper prefix of the frame. -/
def Obligations.AbandonedOperationSendsAProperPrefix : Prop :=
  ∀ (s : State) (id : Word) (p : List Byte) (r : Bool) (g : Signals) (gs : List Signals) (rest : List Input),
    Inv s → s.enc.st = .idle → p.length ≤ s.cfg.maxLen → (∀ k < p.length, txCell s k = p[k]?) →
    s.inputs = .signals g :: (gs.map .signals ++ rest) →
    g.rst = false → g.enc = some { start := true, id := id, len := p.length, ready := r } →
    (∀ h ∈ gs, h.rst = false) →
    (answersIn gs).count true < p.length + 6 → endsWithAnswer gs false →
    (answersIn gs).count false = s.cfg.retryBudget + 1 →
    ∃ t, run (gs.length + 1) s = .next t
      ∧ t.txStream = s.txStream ++ (frameOf s.cfg id p).take ((answersIn gs).count true)
      ∧ (shown t).txResult = some .transportBusy ∧ t.enc.st = .idle

/-- An encode operation ends (R133): after `ENC.START`, at most `len + 6 + RETRY_BUDGET` encoder steps reach `Idle`,
whatever the Transport answers. -/
def Obligations.EncodeOperationEnds : Prop :=
  ∀ (s : State) (answers : List Bool) (rest : List Input),
    Inv s → s.enc.st = .sync1 → s.enc.retry = 0 →
    answers.length = s.enc.len + 6 + s.cfg.retryBudget →
    s.inputs = answers.map (fun a => .signals { enc := some { start := false, ready := a } }) ++ rest →
    ∃ k ≤ answers.length, ∃ t, run k s = .next t ∧ t.enc.st = .idle

/-! ### The decoder -/

/-- `DEC.SYNC1 b` (R141): only `d_st` changes, to `WaitSync2` on the sync value, else it stays and the byte is lost. `raised`
is the model's own record, no port (assumption 23). -/
def Obligations.DecSyncOneLooksForTheSyncByte : Prop :=
  ∀ (b : Byte) (s : State), s.ses.st = .waitSync1 →
    exec (.decSync1 b) s = .next { s with
      ses := { s.ses with st := if b = s.cfg.sync then .waitSync2 else .waitSync1 }
      out := [{ rxResult := some .consumed, took := true, raised := if b = s.cfg.sync then [] else [.desync] }] }

/-- `DEC.SYNC2 b` (R142): the second sync byte starts a transaction; any other byte is examined as `WaitSync1` would. `raised`
is the model's own record, no port (assumption 23). -/
def Obligations.DecSyncTwoStartsTheTransaction : Prop :=
  ∀ (b : Byte) (s : State), s.ses.st = .waitSync2 →
    (b = s.cfg.sync → exec (.decSync2 b) s = .next { s with
      ses := { s.ses with st := .readId, facc := 0, fcnt := 0, crc := s.cfg.crcInit, wd := 0 }
      rx := { s.rx with status := .noFlags }
      out := [{ rxResult := some .consumed, took := true }] })
    ∧ (b ≠ s.cfg.sync →
      exec (.decSync2 b) s = exec (.decSync1 b) { s with ses := { s.ses with st := .waitSync1 } }
      ∧ exec (.decSync2 b) s = .next { s with
        ses := { s.ses with st := .waitSync1 }
        out := [{ rxResult := some .consumed, took := true, raised := [.desync] }] })

/-- `DEC.ID b` (R143, R174, R22): the first byte is kept and folded; the second completes id and length, both latched in
this step, and length 0 goes straight to `ReadCrc`. -/
def Obligations.DecIdAssemblesTheId : Prop :=
  ∀ (b : Byte) (s : State), s.ses.st = .readId →
    (s.ses.fcnt = 0 → exec (.decId b) s = .next { s with
      ses := { s.ses with
        crc := crcUpdate s.cfg.crcFn s.ses.crc b, facc := loByte s.ses.facc ++ b, fcnt := 1 }
      out := [{ rxResult := some .consumed, took := true }] })
    ∧ (s.ses.fcnt ≠ 0 → s.cfg.lenOf (loByte s.ses.facc ++ b) ≤ s.cfg.maxLen →
      exec (.decId b) s = .next { s with
        ses := { s.ses with
          crc := crcUpdate s.cfg.crcFn s.ses.crc b
          facc := 0, fcnt := 0, cur := 0
          st := if s.cfg.lenOf (loByte s.ses.facc ++ b) = 0 then .readCrc else .readPayload }
        rx := { s.rx with id := loByte s.ses.facc ++ b, len := s.cfg.lenOf (loByte s.ses.facc ++ b) }
        out := [{ rxResult := some .consumed, took := true, lenId := some (loByte s.ses.facc ++ b) }] })

/-- `DEC.PAY b` (R144): the byte is stored at `d_cur` and folded, the cursor moves, the last byte leaves `ReadPayload`. -/
def Obligations.DecPayStoresTheByte : Prop :=
  ∀ (b : Byte) (s : State), s.ses.st = .readPayload → s.ses.cur < s.cfg.maxLen →
    exec (.decPay b) s = .next { s with
      ses := { s.ses with
        crc := crcUpdate s.cfg.crcFn s.ses.crc b
        cur := s.ses.cur + 1
        st := if s.ses.cur + 1 = s.rx.len then .readCrc else .readPayload }
      rx := { s.rx with buf := s.rx.buf.store s.ses.cur b }
      out := [{ rxResult := some .consumed, took := true, plWrite := some (s.ses.cur, b) }] }

/-- `DEC.CRC b` (R145, R146, R202): the first byte is kept and not folded; the second ends the frame with `Accepted` or
with ChecksumMismatch, and the session returns. `raised`
is the model's own record, no port (assumption 23). -/
def Obligations.DecCrcJudgesTheFrame : Prop :=
  ∀ (b : Byte) (s : State), s.ses.st = .readCrc →
    (s.ses.fcnt = 0 → exec (.decCrc b) s = .next { s with
      ses := { s.ses with facc := loByte s.ses.facc ++ b, fcnt := 1 }
      out := [{ rxResult := some .consumed, took := true }] })
    ∧ (s.ses.fcnt ≠ 0 → loByte s.ses.facc ++ b = s.ses.crc → exec (.decCrc b) s = .next { s with
      ses := { st := .waitSync1, facc := 0, fcnt := 0, cur := 0, crc := s.cfg.crcInit, wd := 0 }
      rx := { s.rx with status := .newData }
      out := [{ rxResult := some .accepted, took := true }] })
    ∧ (s.ses.fcnt ≠ 0 → loByte s.ses.facc ++ b ≠ s.ses.crc → exec (.decCrc b) s = .next { s with
      ses := { st := .waitSync1, facc := 0, fcnt := 0, cur := 0, crc := s.cfg.crcInit, wd := 0 }
      rx := { s.rx with status := .dataLost }
      out := [{ rxResult := some .rejected, took := true
                raised := [.checksumMismatch (loByte s.ses.facc ++ b) s.ses.crc] }] })

/-- The frame of the decoder's operations (R20, R27, R41, R67): the encoder, TXBUF, the TX stream and the configuration
are unchanged; each register changes only in the operations whose rules write it; RXBUF changes only in `DEC.PAY`, at
`d_cur`. -/
def Obligations.DecoderOperationsFrame : Prop :=
  ∀ (i : Instr) (s t : State), isDecoderOp i = true → exec i s = .next t →
    t.cfg = s.cfg ∧ t.enc = s.enc ∧ t.txBuf = s.txBuf ∧ t.txStream = s.txStream ∧ t.inputs = s.inputs
    ∧ (∀ a, txCell t a = txCell s a)
    ∧ ((∃ b, i = .decPay b) ∨ ∀ a, rxCell t a = rxCell s a)
    ∧ (∀ b, i = .decPay b → rxCell t s.ses.cur = some b ∧ ∀ a, a ≠ s.ses.cur → rxCell t a = rxCell s a)
    ∧ ((∃ b, i = .decId b) ∨ (t.rx.id = s.rx.id ∧ t.rx.len = s.rx.len))
    ∧ ((∃ b, i = .decSync2 b ∨ i = .decCrc b) ∨ t.rx.status = s.rx.status)
    ∧ ((∃ b, i = .decSync2 b ∨ i = .decCrc b) ∨ t.ses.wd = s.ses.wd)
    ∧ ((∃ b, i = .decId b ∨ i = .decPay b ∨ i = .decCrc b) ∨ t.ses.cur = s.ses.cur)
    ∧ ((∃ b, i = .decSync2 b ∨ i = .decId b ∨ i = .decPay b ∨ i = .decCrc b) ∨ t.ses.crc = s.ses.crc)
    ∧ ((∃ b, i = .decSync2 b ∨ i = .decId b ∨ i = .decCrc b) ∨
        (t.ses.facc = s.ses.facc ∧ t.ses.fcnt = s.ses.fcnt))
    ∧ (i = .decNobyte → t.ses = s.ses)

/-- A frame takes its bytes and no others (R151): from the entry to `ReadId`, the id's two bytes, `rx_len` payload bytes
and two more, delivered in any way, end the frame with a terminal result, whatever the bytes are, and no earlier step
does. -/
def Obligations.FrameEndsAfterItsBytes : Prop :=
  ∀ (s : State) (gs : List Signals) (hi lo : Byte) (w : List Byte),
    s.ses.st = .readId → s.ses.fcnt = 0 → s.cfg.lenOf (joinBytes hi lo) ≤ s.cfg.maxLen →
    w.length = s.cfg.lenOf (joinBytes hi lo) + 2 → Feeds s gs (hi :: lo :: w) → endsWithByte gs →
    (∃ t, run gs.length s = .next t ∧ t.ses = Session.init s.cfg
      ∧ ((shown t).rxResult = some .accepted ∨ (shown t).rxResult = some .rejected))
    ∧ ∀ k < gs.length, ∃ t, run k s = .next t ∧ hunting t.ses.st = false
      ∧ (0 < k → ∀ r, (shown t).rxResult = some r → rxTerminal r = false)

/-- `FRAME` (R81, R96, R180). That this row's operation is the decoder's byte steps on the frame's bytes, back to back, is
the model's choice (assumption 10, DEDUCED from R100; R14 lists no such operation). From `WaitSync1` they leave the id, the
length and the payload in the RX Message Object and the session at `SESSION_INIT`; the status is `NewData` exactly when
the CRC field is the CRC of id and payload; every byte before the last gives `Consumed`; the encoder's side, the RXBUF
cells past the payload and the rest are unchanged. -/
def Obligations.FrameIsReceived : Prop :=
  ∀ (id : Word) (p : List Byte) (crc : Word) (s : State),
    s.ses.st = .waitSync1 → (Instr.frame id p crc).wellFormed s.cfg = true →
    ∃ t, exec (.frame id p crc) s = .next t
      ∧ t.rx.id = id ∧ t.rx.len = p.length ∧ t.ses = Session.init s.cfg
      ∧ t.rx.status = (if crc = frameCrc s.cfg id p then .newData else .dataLost)
      ∧ (shown t).rxResult = some (if crc = frameCrc s.cfg id p then .accepted else .rejected)
      ∧ resultsOf t.out = List.replicate (p.length + 5) .consumed ++ [if crc = frameCrc s.cfg id p then .accepted else .rejected]
      ∧ (∀ k < p.length, rxCell t k = p[k]?)
      ∧ (∀ k, p.length ≤ k → rxCell t k = rxCell s k)
      ∧ (∀ a, txCell t a = txCell s a)
      ∧ t.cfg = s.cfg ∧ t.enc = s.enc ∧ t.txBuf = s.txBuf ∧ t.txStream = s.txStream ∧ t.inputs = s.inputs

/-- `FRAME` met in any decoder state. That `FRAME` is the byte steps of its bytes is the model's choice (assumption 10,
DEDUCED); that those bytes are data to the decoder whatever its state is R98 and R140. The steps go through in every
state that meets the invariant, and the encoder's side is unchanged. -/
def Obligations.FrameBytesMeanSomethingInEveryState : Prop :=
  ∀ (id : Word) (p : List Byte) (crc : Word) (s : State),
    (Inv s → ∃ t, exec (.frame id p crc) s = .next t)
    ∧ ∀ t, exec (.frame id p crc) s = .next t →
      t.cfg = s.cfg ∧ t.enc = s.enc ∧ t.txBuf = s.txBuf ∧ t.txStream = s.txStream ∧ t.inputs = s.inputs
      ∧ ∀ a, txCell t a = txCell s a

/-- `DEC.POLL` is its steps (R152): the call consumes a prefix of the bytes, one decoder step each, stops at the first
`Accepted` or `Rejected` or when the bytes run out, and returns the rest. Its result is that of its last byte step when
that is `Accepted` or `Rejected`, and only then; else `Consumed` if it took a byte and `NoProgress` if it took none. -/
def Obligations.PollIsItsSteps : Prop :=
  ∀ (w : List Byte) (s : State) (r : PollReturn), poll false w s = .next r →
    ∃ used t, w = used ++ r.left ∧ feed used s = .next t ∧ r.state.quiet = t.quiet
      ∧ (r.result = .accepted ∨ r.result = .rejected ∨ r.result = .consumed ∨ r.result = .noProgress)
      ∧ (r.result = .accepted ↔ (shown t).rxResult = some .accepted)
      ∧ (r.result = .rejected ↔ (shown t).rxResult = some .rejected)
      ∧ (r.result = .consumed ↔ (shown t).rxResult = some .consumed)
      ∧ (r.result = .consumed → r.left = [])
      ∧ (r.result = .noProgress ↔ w = [])
      ∧ ∀ k, 0 < k → k < used.length →
        ∃ u, feed (used.take k) s = .next u ∧ (shown u).rxResult = some .consumed

/-- Fragmented delivery (R182, R183), the state and the sequence of results. First: the empty polls of a run change
nothing; two runs of signals that agree once the steps with `rx_valid = 0` alone are left out end in the same state, the
record of the outputs apart, with the same sequence of results other than `NoProgress`. Second: bytes delivered one a
step, with empty polls between, or several back to back (assumption 10) end as all of them back to back do, with the same
sequence of results. -/
def Obligations.EmptyPollsDoNotMatter : Prop :=
  (∀ (gs : List Signals) (s t : State) (rest : List Input),
    s.inputs = gs.map .signals ++ rest → run gs.length s = .next t →
    let fs := gs.filter (fun g => g ≠ { rx := .empty })
    ∃ u, run fs.length { s with inputs := fs.map .signals ++ rest } = .next u ∧ u.quiet = t.quiet
      ∧ resultsOf (trace fs.length { s with inputs := fs.map .signals ++ rest }) = resultsOf (trace gs.length s))
  ∧ ∀ (qs rest : List Input) (s u : State),
    s.inputs = qs ++ rest → (∀ q ∈ qs, onlyDelivers q = true) →
    feed (qs.flatMap inputBytes) { s with inputs := rest } = .next u →
    ∃ t, run qs.length s = .next t ∧ t.quiet = u.quiet ∧ resultsOf (trace qs.length s) = resultsOf u.out

/-- Round trip (R180, R187): from `WaitSync1`, the bytes of `frame(id, p)` delivered over any number of steps, with takes,
empty polls, ticks that do not fire and any encoder traffic in between or in the same steps, end with `Accepted` on the
last byte, the message in the RX Message Object and the session at `SESSION_INIT`; no earlier step gives a terminal
result. For every seed and every CRC function (assumption 2). -/
def Obligations.RoundTrip : Prop :=
  ∀ (s : State) (id : Word) (p : List Byte) (gs : List Signals),
    s.ses.st = .waitSync1 → p.length ≤ s.cfg.maxLen → s.cfg.lenOf id = p.length →
    Feeds s gs (frameOf s.cfg id p) → endsWithByte gs →
    (∃ t, run gs.length s = .next t ∧ (shown t).rxResult = some .accepted ∧ t.rx.status = .newData
      ∧ t.rx.id = id ∧ t.rx.len = p.length ∧ (∀ k < p.length, rxCell t k = p[k]?)
      ∧ t.ses = Session.init s.cfg)
    ∧ ∀ k, 0 < k → k < gs.length →
      ∃ t, run k s = .next t ∧ ∀ r, (shown t).rxResult = some r → rxTerminal r = false

/-- Encoder to decoder (R180, R132, R243): what a completed encode operation of one block appended to its TX stream,
delivered unmodified but in any way to another block with the same seed, CRC function and sync value, in `WaitSync1`,
with the sender's length for the id, is decoded as `NewData` with the same id and payload. -/
def Obligations.EncodedMessageIsDecoded : Prop :=
  ∀ (s r : State) (id : Word) (p : List Byte) (a : Bool) (gs hs : List Signals) (rest : List Input),
    Inv s → s.enc.st = .idle → p.length ≤ s.cfg.maxLen → (∀ k < p.length, txCell s k = p[k]?) →
    s.inputs = .signals { enc := some { start := true, id := id, len := p.length, ready := a } }
      :: (gs.map .signals ++ rest) →
    (∀ h ∈ gs, h.rst = false) → (answersIn gs).count true = p.length + 6 → endsWithAnswer gs true →
    (answersIn gs).count false ≤ s.cfg.retryBudget →
    r.ses.st = .waitSync1 → r.cfg.sync = s.cfg.sync → r.cfg.crcInit = s.cfg.crcInit →
    (∀ acc b, crcUpdate r.cfg.crcFn acc b = crcUpdate s.cfg.crcFn acc b) →
    r.cfg.lenOf id = p.length → p.length ≤ r.cfg.maxLen →
    ∃ t, run (gs.length + 1) s = .next t ∧ (shown t).txResult = some .done
      ∧ (Feeds r hs (t.txStream.drop s.txStream.length) → endsWithByte hs →
        ∃ u, run hs.length r = .next u ∧ (shown u).rxResult = some .accepted ∧ u.rx.status = .newData
          ∧ u.rx.id = id ∧ u.rx.len = p.length ∧ ∀ k < p.length, rxCell u k = p[k]?)

/-- Single-bit corruption (R181, R187): a frame with one bit flipped past the sync bytes, its id still of the same length,
delivered in any way, is rejected on its last byte, the corrupted bytes left as received. Under decision D1's function,
without exception. -/
def Obligations.SingleBitErrorIsDetected : Prop :=
  ∀ (s : State) (gs : List Signals) (id : Word) (p : List Byte) (j k : Nat) (w : List Byte) (hi lo : Byte),
    s.cfg.crcFn = .division 0x1021 → s.ses.st = .waitSync1 → p.length ≤ s.cfg.maxLen → s.cfg.lenOf id = p.length →
    2 ≤ j → j < p.length + 6 → k < 8 → w = flipBit (frameOf s.cfg id p) j k →
    w[2]? = some hi → w[3]? = some lo → s.cfg.lenOf (joinBytes hi lo) = p.length →
    Feeds s gs w → endsWithByte gs →
    ∃ t, run gs.length s = .next t ∧ (shown t).rxResult = some .rejected ∧ t.rx.status = .dataLost
      ∧ t.rx.id = joinBytes hi lo ∧ ∀ i < p.length, rxCell t i = w[4 + i]?

/-- Resync after garbage (R184 a, R187): bytes with no two adjacent sync bytes and no sync byte at the end, delivered in any
way, leave a decoder in `WaitSync1` there, only `d_st` ever having changed (a take beside them releases the message), and
the frame that follows is decoded. -/
def Obligations.ResyncAfterGarbage : Prop :=
  (∀ (s : State) (gs : List Signals) (g : List Byte),
    s.ses.st = .waitSync1 → noSyncPair s.cfg false g = true → Feeds s gs g →
    ∀ k ≤ gs.length, ∃ t, run k s = .next t ∧ t.ses = { s.ses with st := t.ses.st } ∧ hunting t.ses.st = true
      ∧ t.rx = { s.rx with status := t.rx.status }
      ∧ ((∀ h ∈ gs, h.take = false) → t.rx = s.rx)
      ∧ (k = gs.length → t.ses.st = .waitSync1))
  ∧ ∀ (s : State) (gs : List Signals) (g : List Byte) (id : Word) (p : List Byte),
    s.ses.st = .waitSync1 → noSyncPair s.cfg false g = true → p.length ≤ s.cfg.maxLen → s.cfg.lenOf id = p.length →
    Feeds s gs (g ++ frameOf s.cfg id p) → endsWithByte gs →
    ∃ t, run gs.length s = .next t ∧ (shown t).rxResult = some .accepted ∧ t.rx.status = .newData ∧ t.rx.id = id
      ∧ t.rx.len = p.length ∧ (∀ k < p.length, rxCell t k = p[k]?) ∧ t.ses = Session.init s.cfg

/-- No byte sequence keeps the decoder mid-frame (R184 b, R187): whatever else happens beside them, within `4 + MAX_LEN`
bytes it is hunting again. -/
def Obligations.HuntingAgainWithinOneFrame : Prop :=
  ∀ (s : State) (gs : List Signals), Inv s → gs.map .signals <+: s.inputs → (bytesOf gs).length = 4 + s.cfg.maxLen →
    ∃ k ≤ gs.length, ∃ t, run k s = .next t ∧ hunting t.ses.st = true

/-- Garbage that ends in a sync byte, or holds a sync pair (R184 c, conflicts C2 and C8), delivered in any way. From
`WaitSync2`, and from `WaitSync1` after garbage `g` with no sync pair and one more sync byte, the frame's
first byte completes a sync pair and its second is the high byte of a phantom id. After garbage that holds a sync pair, the
two bytes after the pair, whatever they are, are the phantom id. In each case the decoder is mid-frame in a
phantom frame. -/
def Obligations.StraySyncByteMakesAPhantomFrame : Prop :=
  (∀ (s : State) (gs : List Signals) (id : Word) (p : List Byte), s.ses.st = .waitSync2 →
    s.cfg.lenOf (joinBytes s.cfg.sync (hiByte id)) ≤ s.cfg.maxLen → Feeds s gs ((frameOf s.cfg id p).take 3) →
    ∃ t, run gs.length s = .next t ∧ t.rx.id = joinBytes s.cfg.sync (hiByte id)
      ∧ t.rx.len = s.cfg.lenOf (joinBytes s.cfg.sync (hiByte id)) ∧ hunting t.ses.st = false)
  ∧ (∀ (s : State) (gs : List Signals) (g : List Byte) (id : Word) (p : List Byte), s.ses.st = .waitSync1 →
    noSyncPair s.cfg false g = true → s.cfg.lenOf (joinBytes s.cfg.sync (hiByte id)) ≤ s.cfg.maxLen →
    Feeds s gs (g ++ [s.cfg.sync] ++ (frameOf s.cfg id p).take 3) →
    ∃ t, run gs.length s = .next t ∧ t.rx.id = joinBytes s.cfg.sync (hiByte id)
      ∧ t.rx.len = s.cfg.lenOf (joinBytes s.cfg.sync (hiByte id)) ∧ hunting t.ses.st = false)
  ∧ ∀ (s : State) (gs : List Signals) (g : List Byte) (hi lo : Byte), s.ses.st = .waitSync1 →
    noSyncPair s.cfg false g = true → s.cfg.lenOf (joinBytes hi lo) ≤ s.cfg.maxLen →
    Feeds s gs (g ++ [s.cfg.sync, s.cfg.sync, hi, lo]) →
    ∃ t, run gs.length s = .next t ∧ t.rx.id = joinBytes hi lo ∧ t.rx.len = s.cfg.lenOf (joinBytes hi lo)
      ∧ hunting t.ses.st = false

/-- The concrete scenario of the source (R185, R187), in every state that waits for a frame with `lenOf(0x0102) = 2` and
under every delivery. Under decision D1 the stream's CRC field is `C2 B4` and the corrupted bytes have another CRC. For
every CRC function: the stream is decoded; with `0B` corrupted to `0C`, if the two CRCs differ, it is rejected with that
payload. -/
def Obligations.ConcreteScenario : Prop :=
  (∀ c : Config, c.Standard →
    frameOf c 0x0102 [0x0A, 0x0B] = [0xFF, 0xFF, 0x01, 0x02, 0x0A, 0x0B, 0xC2, 0xB4]
    ∧ crcOf c [0x01, 0x02, 0x0A, 0x0B] = 0xC2B4 ∧ crcOf c [0x01, 0x02, 0x0A, 0x0C] = 0xB253)
  ∧ ∀ (s : State) (gs : List Signals) (hi lo : Byte),
    s.cfg.sync = 0xFF → s.ses.st = .waitSync1 → s.cfg.lenOf 0x0102 = 2 → 2 ≤ s.cfg.maxLen →
    joinBytes hi lo = crcOf s.cfg [0x01, 0x02, 0x0A, 0x0B] → endsWithByte gs →
    (Feeds s gs [0xFF, 0xFF, 0x01, 0x02, 0x0A, 0x0B, hi, lo] →
      ∃ t, run gs.length s = .next t ∧ t.rx.id = 0x0102 ∧ rxCell t 0 = some 0x0A ∧ rxCell t 1 = some 0x0B
        ∧ t.rx.status = .newData)
    ∧ (crcOf s.cfg [0x01, 0x02, 0x0A, 0x0B] ≠ crcOf s.cfg [0x01, 0x02, 0x0A, 0x0C] →
      Feeds s gs [0xFF, 0xFF, 0x01, 0x02, 0x0A, 0x0C, hi, lo] →
      ∃ t, run gs.length s = .next t ∧ rxCell t 0 = some 0x0A ∧ rxCell t 1 = some 0x0C ∧ t.rx.status = .dataLost)

/-- The two operations that do nothing (R122, R147, R183): `ENC.NOP` in `Idle` changes no register, offers nothing and says
`Idle`; `DEC.NOBYTE` in every state changes no register, no buffer cell and no stream and says `NoProgress`. -/
def Obligations.IdleOperationsChangeNothing : Prop :=
  (∀ s : State, s.enc.st = .idle → exec .encNop s = .next { s with out := [{ txResult := some .idle }] })
  ∧ ∀ s : State, exec .decNobyte s = .next { s with out := [{ rxResult := some .noProgress }] }

/-! ### The system side -/

/-- `SYS.RESET` (R171, R240, R241): every register at the value of the table of 10_state.md, both buffers, the TX stream
and the pending inputs as they were, nothing raised; `rst` overrides whatever else the step requests. -/
def Obligations.ResetSetsEveryRegister : Prop :=
  (∀ s : State, exec .sysReset s = .next { s with
    ses := { st := .waitSync1, facc := 0, fcnt := 0, cur := 0, crc := s.cfg.crcInit, wd := 0 }
    rx := { id := 0, len := 0, status := .noFlags, buf := s.rx.buf }
    enc := { st := .idle, id := 0, len := 0, cur := 0, crc := s.cfg.crcInit, retry := 0 }
    out := [{ rxResult := some .quiet, txResult := some .idle }] })
  ∧ ∀ (s : State) (g : Signals) (rest : List Input),
    s.inputs = .signals g :: rest → g.rst = true → step s = exec .sysReset { s with inputs := rest }

/-- `SYS.TAKE` (R172): `rx_status` becomes `NoFlags` and nothing else changes. -/
def Obligations.TakeReleasesTheMessage : Prop :=
  ∀ s : State, exec .sysTake s = .next { s with
    rx := { s.rx with status := .noFlags }
    out := [{ rxResult := some .quiet }] }

/-- `SYS.TICK` (R173, R204): without a limit or while hunting nothing changes; else it counts, or fires Truncated, which
returns the session and leaves the RX Message Object as it is. `raised`
is the model's own record, no port (assumption 23). -/
def Obligations.TickCountsOrTruncates : Prop :=
  ∀ s : State,
    (s.cfg.watchdogLimit = none ∨ s.ses.st = .waitSync1 ∨ s.ses.st = .waitSync2 →
      exec .sysTick s = .next { s with out := [{ rxResult := some .quiet }] })
    ∧ ∀ limit, s.cfg.watchdogLimit = some limit →
      s.ses.st = .readId ∨ s.ses.st = .readPayload ∨ s.ses.st = .readCrc →
      exec .sysTick s = .next
        (if (limit : Nat) ≤ s.ses.wd + 1 then { s with
          ses := { st := .waitSync1, facc := 0, fcnt := 0, cur := 0, crc := s.cfg.crcInit, wd := 0 }
          out := [{ rxResult := some .truncated, raised := [.truncated s.ses.st s.ses.cur] }] }
        else { s with
          ses := { s.ses with wd := s.ses.wd + 1 }
          out := [{ rxResult := some .quiet }] })

/-- The frame of the system operations (R41, R171 to R173): no buffer cell, no stream, no configuration changes; `SYS.TAKE`
and `SYS.TICK` leave the encoder, the id and the length alone, `SYS.TAKE` the session, `SYS.TICK` the status. -/
def Obligations.SystemOperationsFrame : Prop :=
  ∀ (i : Instr) (s t : State), i = .sysReset ∨ i = .sysTake ∨ i = .sysTick → exec i s = .next t →
    t.cfg = s.cfg ∧ t.txBuf = s.txBuf ∧ t.txStream = s.txStream ∧ t.inputs = s.inputs ∧ t.rx.buf = s.rx.buf
    ∧ (∀ a, rxCell t a = rxCell s a ∧ txCell t a = txCell s a)
    ∧ (i ≠ .sysReset → t.enc = s.enc ∧ t.rx.id = s.rx.id ∧ t.rx.len = s.rx.len)
    ∧ (i = .sysTake → t.ses = s.ses)
    ∧ (i = .sysTick → t.rx = s.rx)

/-- A starved mid-frame session ends (R173, R261): after `WATCHDOG_LIMIT` ticks with no byte it hunts again. -/
def Obligations.WatchdogEndsAStalledFrame : Prop :=
  ∀ (s : State) (limit : PNat) (rest : List Input),
    Inv s → s.cfg.watchdogLimit = some limit → hunting s.ses.st = false →
    s.inputs = List.replicate (limit : Nat) (.signals { tick := true }) ++ rest →
    ∃ k ≤ (limit : Nat), ∃ t, run k s = .next t ∧ t.ses = Session.init s.cfg ∧ (shown t).rxResult = some .truncated
      ∧ t.rx = s.rx

/-! ### Reset and invariants -/

/-- The state after reset (R44, R171): every register of the table at its value, the buffers' cells at their free start
values. -/
def Obligations.ResetState : Prop :=
  State.reset.ses = { st := .waitSync1, facc := 0, fcnt := 0, cur := 0, crc := 0xFFFF, wd := 0 }
  ∧ State.reset.rx.id = 0 ∧ State.reset.rx.len = 0 ∧ State.reset.rx.status = .noFlags
  ∧ State.reset.enc = { st := .idle, id := 0, len := 0, cur := 0, crc := 0xFFFF, retry := 0 }
  ∧ ∀ i < State.reset.cfg.maxLen,
    rxCell State.reset i = some (Config.rxBufStart i) ∧ txCell State.reset i = some (Config.txBufStart i)

/-- The state after reset meets the invariant and the CRC invariant (R26, R44, R154). -/
def Obligations.ResetMeetsTheInvariants : Prop := Inv State.reset ∧ DecoderCrcOk State.reset

/-- Every step keeps the invariant (R22, R23, R26, R33, R62, R154): the session's registers hold their initial values
while hunting, the cursors stay inside their buffers, the length and cursor registers inside `LEN_W` bits (R8), the
counters inside their bounds, the status is `NoFlags`
mid-frame, and the buffers stay canonical. -/
def Obligations.StepKeepsTheInvariant : Prop :=
  ∀ s t : State, Inv s → step s = .next t → Inv t

/-- Nothing is fatal (R186): from every state that meets the invariant, with Caller premises met by the pending inputs, a
step has a next state. -/
def Obligations.NothingIsFatal : Prop :=
  ∀ s : State, Inv s → ∃ t, step s = .next t

/-- The decoder's running CRC covers exactly the id and the payload bytes received (R24, R154 b, c), kept by every step in
which the Caller does not write RXBUF (R257). -/
def Obligations.RunningCrcCoversIdAndPayload : Prop :=
  ∀ s t : State, Inv s → DecoderCrcOk s → (∀ q ∈ s.inputs.head?, keepsRxBuf q = true) →
    step s = .next t → DecoderCrcOk t

/-- The configuration is constant (R37, R74): no step changes a parameter, but for the application's change of the length
mapping, and `rx_len` does not follow that change. -/
def Obligations.ConfigurationIsConstant : Prop :=
  ∀ s t : State, step s = .next t →
    t.cfg = { s.cfg with lens := t.cfg.lens, lenDefault := t.cfg.lenDefault }
    ∧ ((∀ lens d, s.inputs.head? ≠ some (.remap lens d)) → t.cfg = s.cfg)
    ∧ (∀ lens d, s.inputs.head? = some (.remap lens d) → t.rx = s.rx ∧ t.ses = s.ses)

/-- The TX stream only grows (R60, R67): no step removes or changes a byte the Transport accepted. -/
def Obligations.TxStreamOnlyGrows : Prop :=
  ∀ s t : State, step s = .next t → s.txStream <+: t.txStream

/-- Only an accepted frame vouches for the message (R28, R145, R258): when a step of signals makes `rx_status` `NewData`,
that step's result is `Accepted` and the session is at `SESSION_INIT`; when a step of any kind does (a wire input among
them, assumption 10), one of its operations gave `Accepted`. -/
def Obligations.NewDataOnlyByAcceptance : Prop :=
  (∀ (s t : State) (g : Signals) (rest : List Input), s.inputs = .signals g :: rest → step s = .next t →
    s.rx.status ≠ .newData → t.rx.status = .newData →
    (shown t).rxResult = some .accepted ∧ t.ses = Session.init s.cfg)
  ∧ ∀ s t : State, step s = .next t → s.rx.status ≠ .newData → t.rx.status = .newData →
    .accepted ∈ resultsOf t.out

/-! ### Where the model stops (the model's choices) -/

/-- The model's choice (assumptions 8, 12, 13): an operation applied in a state that does not select it is refused; a
buffer index at or above `MAX_LEN` faults; a length above `MAX_LEN` is refused. -/
def Obligations.WhereTheModelStops : Prop :=
  (∀ (s : State) (b : Byte),
    (s.ses.st ≠ .waitSync1 → exec (.decSync1 b) s = .refused .notSelected)
    ∧ (s.ses.st ≠ .waitSync2 → exec (.decSync2 b) s = .refused .notSelected)
    ∧ (s.ses.st ≠ .readId → exec (.decId b) s = .refused .notSelected)
    ∧ (s.ses.st ≠ .readPayload → exec (.decPay b) s = .refused .notSelected)
    ∧ (s.ses.st ≠ .readCrc → exec (.decCrc b) s = .refused .notSelected)
    ∧ (s.ses.st = .readPayload → s.cfg.maxLen ≤ s.ses.cur →
        exec (.decPay b) s = .fault (.rxbufIndex s.ses.cur))
    ∧ (s.ses.st = .readId → s.ses.fcnt ≠ 0 → s.cfg.maxLen < s.cfg.lenOf (shiftIn s.ses.facc b) →
        exec (.decId b) s = .refused (.lenOfAboveMax (shiftIn s.ses.facc b))))
  ∧ (∀ (s : State) (id : Word) (len : Nat),
    (s.enc.st ≠ .idle → exec .encNop s = .refused .notSelected
      ∧ exec (.encStart id len) s = .refused .notSelected)
    ∧ (s.enc.st = .idle → exec .encDecline s = .refused .notSelected)
    ∧ (s.enc.st = .idle → s.cfg.maxLen < len → exec (.encStart id len) s = .refused (.txLenAboveMax len))
    ∧ (s.enc.st = .payload → s.cfg.maxLen ≤ s.enc.cur →
        exec .encPutPay s = .fault (.txbufIndex s.enc.cur)
        ∧ exec .encDecline s = .fault (.txbufIndex s.enc.cur))
    ∧ ∀ (st : ESt) (put : Instr), putOp st = some put → s.enc.st ≠ st → exec put s = .refused .notSelected)
end

