-- ==== Sys2Proof/Laws/Config.lean ====
section
/-! SUPPORT. The configuration holds every parameter the spec allows: any length mapping (R8, R174), any CRC function (R7,
R37, R180), and a register width that fits exactly the lengths (R8). -/

namespace Sys2Proof.Machine

/-- A table made from a function answers what the function does on the listed keys. -/
theorem lookupCrc_map (f : Word × Byte → Word) (d : Word) (k : Word × Byte) (ks : List (Word × Byte)) (h : k ∈ ks) :
    lookupCrc d k (ks.map fun j => (j, f j)) = f k := by
  induction ks with
  | nil => cases h
  | cons j ks ih =>
    simp only [List.map_cons, lookupCrc]
    split
    · subst_vars; rfl
    · exact ih ((List.mem_cons.1 h).resolve_left (fun e => by simp_all))

theorem lookupLen_map (f : Word → Nat) (d : Nat) (k : Word) (ks : List Word) (h : k ∈ ks) :
    lookupLen d k (ks.map fun j => (j, f j)) = f k := by
  induction ks with
  | nil => cases h
  | cons j ks ih =>
    simp only [List.map_cons, lookupLen]
    split
    · subst_vars; rfl
    · exact ih ((List.mem_cons.1 h).resolve_left (fun e => by simp_all))

/-- Some list holds every value of a width. -/
theorem exists_all (n : Nat) : ∃ l : List (BitVec n), ∀ v, v ∈ l :=
  ⟨(List.range (2 ^ n)).map (BitVec.ofNat n), fun v =>
    List.mem_map.2 ⟨v.toNat, List.mem_range.2 v.isLt, by simp⟩⟩

/-- Every function of 16 bits and a byte is the CRC function of some configuration (R7, R110). -/
theorem every_crc_function (f : Word → Byte → Word) : ∃ fn, ∀ acc b, crcUpdate fn acc b = f acc b := by
  obtain ⟨ws, hw⟩ := exists_all 16
  obtain ⟨bs, hb⟩ := exists_all 8
  exact ⟨.table ((ws.product bs).map fun j => (j, f j.1 j.2)) 0, fun acc b =>
    lookupCrc_map (fun j => f j.1 j.2) 0 (acc, b) _ (List.mem_product.2 ⟨hw acc, hb b⟩)⟩

/-- Every length mapping is that of some configuration (R8, R174). -/
theorem every_length_mapping (f : Word → Nat) (c : Config) :
    ∃ lens, ∀ id, { c with lens := lens }.lenOf id = f id :=
  let ⟨l, h⟩ := exists_all 16
  ⟨l.map fun j => (j, f j), fun id => lookupLen_map f c.lenDefault id _ (h id)⟩

/-- `LEN_W` bits hold `MAX_LEN`, and no fewer do: `LEN_W = ceil(log2(MAX_LEN + 1))` (R8). -/
theorem lenW_spec (c : Config) : c.fitsLen c.maxLen ∧ ∀ w, c.maxLen < 2 ^ w → c.lenW ≤ w := by
  unfold Config.fitsLen Config.lenW
  split
  · simp_all
  · next h =>
    refine ⟨Nat.lt_log2_self, fun w hw => ?_⟩
    exact Nat.succ_le_of_lt ((Nat.log2_lt h).2 hw)

/-- Every length and cursor of `0..MAX_LEN` fits (R8, R115). -/
theorem fitsLen_of_le {c : Config} {n : Nat} (h : n ≤ c.maxLen) : c.fitsLen n := Nat.lt_of_le_of_lt h (lenW_spec c).1

end Sys2Proof.Machine
end

