-- ==== Sys2Proof/Laws/State.lean ====
section
/-! SUPPORT. One lemma per field per named update of the state, so that no proof unfolds a record update. -/

namespace Sys2Proof.Machine

/-! ### `rx_status` -/

@[simp] theorem withStatus_cfg (v : RxStatus) (s : State) : (withStatus v s).cfg = s.cfg := rfl
@[simp] theorem withStatus_ses (v : RxStatus) (s : State) : (withStatus v s).ses = s.ses := rfl
@[simp] theorem withStatus_rx (v : RxStatus) (s : State) : (withStatus v s).rx = { s.rx with status := v } := rfl
@[simp] theorem withStatus_enc (v : RxStatus) (s : State) : (withStatus v s).enc = s.enc := rfl
@[simp] theorem withStatus_txBuf (v : RxStatus) (s : State) : (withStatus v s).txBuf = s.txBuf := rfl
@[simp] theorem withStatus_txStream (v : RxStatus) (s : State) : (withStatus v s).txStream = s.txStream := rfl
@[simp] theorem withStatus_inputs (v : RxStatus) (s : State) : (withStatus v s).inputs = s.inputs := rfl
@[simp] theorem withStatus_out (v : RxStatus) (s : State) : (withStatus v s).out = s.out := rfl

/-! ### Session return (R146) -/

@[simp] theorem sessionReturn_cfg (s : State) : (sessionReturn s).cfg = s.cfg := rfl
@[simp] theorem sessionReturn_ses (s : State) : (sessionReturn s).ses = Session.init s.cfg := rfl
@[simp] theorem sessionReturn_rx (s : State) : (sessionReturn s).rx = s.rx := rfl
@[simp] theorem sessionReturn_enc (s : State) : (sessionReturn s).enc = s.enc := rfl
@[simp] theorem sessionReturn_txBuf (s : State) : (sessionReturn s).txBuf = s.txBuf := rfl
@[simp] theorem sessionReturn_txStream (s : State) : (sessionReturn s).txStream = s.txStream := rfl
@[simp] theorem sessionReturn_inputs (s : State) : (sessionReturn s).inputs = s.inputs := rfl
@[simp] theorem sessionReturn_out (s : State) : (sessionReturn s).out = s.out := rfl

/-! ### The outputs left out -/

@[simp] theorem State_quiet_cfg (s : State) : (State.quiet s).cfg = s.cfg := rfl
@[simp] theorem State_quiet_ses (s : State) : (State.quiet s).ses = s.ses := rfl
@[simp] theorem State_quiet_rx (s : State) : (State.quiet s).rx = s.rx := rfl
@[simp] theorem State_quiet_enc (s : State) : (State.quiet s).enc = s.enc := rfl
@[simp] theorem State_quiet_txBuf (s : State) : (State.quiet s).txBuf = s.txBuf := rfl
@[simp] theorem State_quiet_txStream (s : State) : (State.quiet s).txStream = s.txStream := rfl
@[simp] theorem State_quiet_inputs (s : State) : (State.quiet s).inputs = s.inputs := rfl
@[simp] theorem State_quiet_out (s : State) : (State.quiet s).out = [] := rfl

/-! ### Accumulators (R111) -/

@[simp] theorem withAcc_cfg (u : CrcUser) (v : Word) (s : State) : (withAcc u v s).cfg = s.cfg := by
  cases u <;> rfl
@[simp] theorem withAcc_rx (u : CrcUser) (v : Word) (s : State) : (withAcc u v s).rx = s.rx := by
  cases u <;> rfl
@[simp] theorem withAcc_txBuf (u : CrcUser) (v : Word) (s : State) : (withAcc u v s).txBuf = s.txBuf := by
  cases u <;> rfl
@[simp] theorem withAcc_txStream (u : CrcUser) (v : Word) (s : State) : (withAcc u v s).txStream = s.txStream := by
  cases u <;> rfl
@[simp] theorem withAcc_inputs (u : CrcUser) (v : Word) (s : State) : (withAcc u v s).inputs = s.inputs := by
  cases u <;> rfl
@[simp] theorem withAcc_out (u : CrcUser) (v : Word) (s : State) : (withAcc u v s).out = s.out := by
  cases u <;> rfl

@[simp] theorem withAcc_decoder_ses (v : Word) (s : State) :
    (withAcc .decoder v s).ses = { s.ses with crc := v } := rfl
@[simp] theorem withAcc_decoder_enc (v : Word) (s : State) : (withAcc .decoder v s).enc = s.enc := rfl
@[simp] theorem withAcc_encoder_ses (v : Word) (s : State) : (withAcc .encoder v s).ses = s.ses := rfl
@[simp] theorem withAcc_encoder_enc (v : Word) (s : State) :
    (withAcc .encoder v s).enc = { s.enc with crc := v } := rfl
@[simp] theorem accOf_withAcc (u : CrcUser) (v : Word) (s : State) : accOf u (withAcc u v s) = v := by
  cases u <;> rfl

/-! ### Conditions (R200 to R204): what no condition touches, then each one's own changes -/

@[simp] theorem takeCondition_cfg (c : Condition) (s : State) : (takeCondition c s).cfg = s.cfg := by
  cases c <;> rfl
@[simp] theorem takeCondition_txBuf (c : Condition) (s : State) : (takeCondition c s).txBuf = s.txBuf := by
  cases c <;> rfl
@[simp] theorem takeCondition_txStream (c : Condition) (s : State) : (takeCondition c s).txStream = s.txStream := by
  cases c <;> rfl
@[simp] theorem takeCondition_inputs (c : Condition) (s : State) : (takeCondition c s).inputs = s.inputs := by
  cases c <;> rfl

@[simp] theorem takeCondition_desync_ses (s : State) :
    (takeCondition .desync s).ses = { s.ses with st := .waitSync1 } := rfl
@[simp] theorem takeCondition_desync_rx (s : State) :
    (takeCondition .desync s).rx = s.rx := rfl
@[simp] theorem takeCondition_desync_enc (s : State) :
    (takeCondition .desync s).enc = s.enc := rfl
@[simp] theorem takeCondition_desync_out (s : State) :
    (takeCondition .desync s).out = [{ rxResult := some .consumed, took := true, raised := [.desync] }] := rfl

@[simp] theorem takeCondition_checksumMismatch_ses (r c : Word) (s : State) :
    (takeCondition (.checksumMismatch r c) s).ses = Session.init s.cfg := rfl
@[simp] theorem takeCondition_checksumMismatch_rx (r c : Word) (s : State) :
    (takeCondition (.checksumMismatch r c) s).rx = { s.rx with status := .dataLost } := rfl
@[simp] theorem takeCondition_checksumMismatch_enc (r c : Word) (s : State) :
    (takeCondition (.checksumMismatch r c) s).enc = s.enc := rfl
@[simp] theorem takeCondition_checksumMismatch_out (r c : Word) (s : State) :
    (takeCondition (.checksumMismatch r c) s).out =
      [{ rxResult := some .rejected, took := true, raised := [.checksumMismatch r c] }] := rfl

@[simp] theorem takeCondition_transportBusy_ses (st : ESt) (cur : Nat) (s : State) :
    (takeCondition (.transportBusy st cur) s).ses = s.ses := rfl
@[simp] theorem takeCondition_transportBusy_rx (st : ESt) (cur : Nat) (s : State) :
    (takeCondition (.transportBusy st cur) s).rx = s.rx := rfl
@[simp] theorem takeCondition_transportBusy_enc (st : ESt) (cur : Nat) (s : State) :
    (takeCondition (.transportBusy st cur) s).enc = { s.enc with st := .idle } := rfl
@[simp] theorem takeCondition_transportBusy_out (st : ESt) (cur : Nat) (s : State) :
    (takeCondition (.transportBusy st cur) s).out =
      [{ txResult := some .transportBusy, raised := [.transportBusy st cur] }] := rfl

@[simp] theorem takeCondition_truncated_ses (st : DSt) (cur : Nat) (s : State) :
    (takeCondition (.truncated st cur) s).ses = Session.init s.cfg := rfl
@[simp] theorem takeCondition_truncated_rx (st : DSt) (cur : Nat) (s : State) :
    (takeCondition (.truncated st cur) s).rx = s.rx := rfl
@[simp] theorem takeCondition_truncated_enc (st : DSt) (cur : Nat) (s : State) :
    (takeCondition (.truncated st cur) s).enc = s.enc := rfl
@[simp] theorem takeCondition_truncated_out (st : DSt) (cur : Nat) (s : State) :
    (takeCondition (.truncated st cur) s).out =
      [{ rxResult := some .truncated, raised := [.truncated st cur] }] := rfl

/-! ### Hunting (R16) -/

@[simp] theorem hunting_waitSync1 : hunting .waitSync1 = true := rfl
@[simp] theorem hunting_waitSync2 : hunting .waitSync2 = true := rfl
@[simp] theorem hunting_readId : hunting .readId = false := rfl
@[simp] theorem hunting_readPayload : hunting .readPayload = false := rfl
@[simp] theorem hunting_readCrc : hunting .readCrc = false := rfl
@[simp] theorem session_init_st (c : Config) : (Session.init c).st = .waitSync1 := rfl
@[simp] theorem session_init_facc (c : Config) : (Session.init c).facc = 0 := rfl
@[simp] theorem session_init_fcnt (c : Config) : (Session.init c).fcnt = 0 := rfl
@[simp] theorem session_init_cur (c : Config) : (Session.init c).cur = 0 := rfl
@[simp] theorem session_init_crc (c : Config) : (Session.init c).crc = c.crcInit := rfl
@[simp] theorem session_init_wd (c : Config) : (Session.init c).wd = 0 := rfl

end Sys2Proof.Machine
end

