-- ==== Sys2Proof/Laws/Ops.lean ====
section
/-! SUPPORT. One specification lemma per shared operation: what it can answer, and what the memory operations keep. -/

namespace Sys2Proof.Machine

/-! ### Sequencing -/

@[simp] theorem andThen_next (s : State) (k : State → Result) : andThen (.next s) k = k s := rfl
@[simp] theorem andThen_fault (f : Fault) (k : State → Result) : andThen (.fault f) k = .fault f := rfl
@[simp] theorem andThen_refused (f : Refusal) (k : State → Result) : andThen (.refused f) k = .refused f := rfl

theorem andThen_eq_next {r : Result} {k : State → Result} {t : State} :
    andThen r k = .next t ↔ ∃ s, r = .next s ∧ k s = .next t := by
  cases r <;> simp

theorem putBefore_eq_next {o : List Outputs} {r : Result} {t : State} :
    putBefore o r = .next t ↔ ∃ u, r = .next u ∧ t = { u with out := o ++ u.out } := by
  cases r <;> simp [putBefore, eq_comm]

@[simp] theorem putBefore_next (o : List Outputs) (t : State) :
    putBefore o (.next t) = .next { t with out := o ++ t.out } := rfl
@[simp] theorem putBefore_nil (r : Result) : putBefore [] r = r := by cases r <;> rfl

theorem putBefore_append (o p : List Outputs) (r : Result) : putBefore (o ++ p) r = putBefore o (putBefore p r) := by
  cases r <;> simp [putBefore]

/-- One operation and the rest of the step answer a next state when both do, with the outputs of both in order. -/
theorem followedBy_eq_next {r : Result} {k : State → Result} {t : State} :
    followedBy r k = .next t ↔
      ∃ u v, r = .next u ∧ k u = .next v ∧ t = { v with out := u.out ++ v.out } := by
  simp only [followedBy, andThen_eq_next, putBefore_eq_next]
  constructor
  · rintro ⟨u, h, v, hv, rfl⟩; exact ⟨u, v, h, hv, rfl⟩
  · rintro ⟨u, v, h, hv, rfl⟩; exact ⟨u, h, v, hv, rfl⟩

/-- A step whose last operation has nothing after it is that operation. -/
@[simp] theorem followedBy_quiet (r : Result) : followedBy r (fun s => .next { s with out := [] }) = r := by
  cases r <;> simp [followedBy, putBefore]

/-! ### What the ports show -/

@[simp] theorem shownOf_nil : shownOf [] = {} := rfl

theorem shownOf_concat (os : List Outputs) (o : Outputs) : shownOf (os ++ [o]) = (shownOf os).merge o := by
  simp [shownOf]

/-- One operation's outputs are what the ports show of it. -/
@[simp] theorem shownOf_single (o : Outputs) : shownOf [o] = o := by
  rcases o with ⟨_ | r, tx, took, off, pl, len, raised⟩ <;> [skip; cases r] <;>
    simp [shownOf, Outputs.merge, laterRx]

@[simp] theorem resultsOf_nil : resultsOf [] = [] := rfl
@[simp] theorem resultsOf_append (a b : List Outputs) : resultsOf (a ++ b) = resultsOf a ++ resultsOf b := by
  simp [resultsOf]

/-! ### Selection guards -/

@[simp] theorem whenDec_of_eq {st : DSt} {s : State} (h : s.ses.st = st) (r : Result) : whenDec st s r = r := by
  simp [whenDec, h]

theorem whenDec_eq_next {st : DSt} {s t : State} {r : Result} :
    whenDec st s r = .next t ↔ s.ses.st = st ∧ r = .next t := by
  by_cases h : s.ses.st = st <;> simp [whenDec, h]

theorem whenPut_eq_next {st : ESt} {s t : State} {k : Byte → State → State} :
    whenPut st s k = .next t ↔
      s.enc.st = st ∧ ∃ b, offeredByte s = some b ∧ t = k b { s with txStream := s.txStream ++ [b] } := by
  by_cases h : s.enc.st = st
  · cases hb : offeredByte s <;> simp [whenPut, h, hb, eq_comm]
  · simp [whenPut, h]

/-- An encoder that is not idle offers a byte, unless it is in `Payload` past the buffer (R121, R62). -/
theorem offeredByte_isSome {s : State} (h : s.enc.st ≠ .idle) (hc : s.enc.st = .payload → s.enc.cur < s.cfg.maxLen) :
    ∃ b, offeredByte s = some b := by
  cases hst : s.enc.st <;> simp_all [offeredByte, txCell]

/-! ### Memories -/

/-- Reading after storing: the stored byte at its index, the old contents elsewhere. -/
@[simp] theorem find_store (m : Memory) (a i : Nat) (b : Byte) :
    Memory.find i (Memory.store a b m) = if i = a then some b else Memory.find i m := by
  induction m with
  | nil => simp only [Memory.store, Memory.find]; grind
  | cons e m ih =>
    obtain ⟨k, v⟩ := e
    simp only [Memory.store]
    split
    · simp only [Memory.find]; grind
    · split <;> simp only [Memory.find] <;> grind

/-- An entry after a store is the stored one or an old one. -/
theorem mem_store {m : Memory} {a : Nat} {b : Byte} {e : Host.Cell} (h : e ∈ m.store a b) :
    e = (a, b) ∨ e ∈ m := by
  induction m with
  | nil => simpa [Memory.store] using h
  | cons c m ih =>
    obtain ⟨k, v⟩ := c
    simp only [Memory.store] at h
    split at h <;> [skip; split at h] <;> simp only [List.mem_cons] at h ⊢ <;> tauto

theorem wf_cons {k : Nat} {v : Byte} {m : Memory} :
    Memory.wf ((k, v) :: m) ↔ (∀ e ∈ m, k < e.1) ∧ Memory.wf m := by
  simp [Memory.wf]

/-- A store keeps the canonical form. -/
theorem store_wf {m : Memory} (h : Memory.wf m) (a : Nat) (b : Byte) : Memory.wf (Memory.store a b m) := by
  induction m with
  | nil => simp [Memory.wf, Memory.store]
  | cons c m ih =>
    obtain ⟨k, v⟩ := c
    obtain ⟨hk, hm⟩ := wf_cons.1 h
    simp only [Memory.store]
    split
    · refine wf_cons.2 ⟨fun e he => ?_, h⟩
      rcases List.mem_cons.1 he with rfl | he
      · assumption
      · have := hk e he; omega
    · split
      · subst_vars; exact wf_cons.2 ⟨hk, hm⟩
      · refine wf_cons.2 ⟨fun e he => ?_, ih hm⟩
        rcases mem_store he with rfl | he
        · simp only; omega
        · exact hk e he

theorem rxCell_eq (s : State) (i : Nat) : rxCell s i =
    if i < s.cfg.maxLen then some ((s.rx.buf.find i).getD (Config.rxBufStart i)) else none := rfl

theorem txCell_eq (s : State) (i : Nat) : txCell s i =
    if i < s.cfg.maxLen then some ((s.txBuf.find i).getD (Config.txBufStart i)) else none := rfl

/-- What the Caller's writes to TXBUF leave: only TXBUF changes, its form is kept, its cells stay in range. -/
theorem callerWriteTx_next {bytes : List Byte} {i : Nat} {s t : State} (h : callerWriteTx i bytes s = .next t) :
    t = { s with txBuf := t.txBuf } ∧ (s.txBuf.wf → t.txBuf.wf)
      ∧ ((∀ e ∈ s.txBuf, e.1 < s.cfg.maxLen) → ∀ e ∈ t.txBuf, e.1 < s.cfg.maxLen) := by
  induction bytes generalizing i s with
  | nil => cases h; exact ⟨rfl, id, id⟩
  | cons b bs ih =>
    simp only [callerWriteTx] at h
    split at h
    · obtain ⟨h1, h2, h3⟩ := ih h
      refine ⟨by rw [h1], fun hw => h2 (store_wf hw _ _), fun hm => h3 fun e he => ?_⟩
      rcases mem_store he with rfl | he
      · assumption
      · exact hm e he
    · cases h

/-- What the Caller's writes to RXBUF leave: only RXBUF changes, its form is kept, its cells stay in range. -/
theorem callerWriteRx_next {bytes : List Byte} {i : Nat} {s t : State} (h : callerWriteRx i bytes s = .next t) :
    t = { s with rx := { s.rx with buf := t.rx.buf } } ∧ (s.rx.buf.wf → t.rx.buf.wf)
      ∧ ((∀ e ∈ s.rx.buf, e.1 < s.cfg.maxLen) → ∀ e ∈ t.rx.buf, e.1 < s.cfg.maxLen) := by
  induction bytes generalizing i s with
  | nil => cases h; exact ⟨rfl, id, id⟩
  | cons b bs ih =>
    simp only [callerWriteRx] at h
    split at h
    · obtain ⟨h1, h2, h3⟩ := ih h
      refine ⟨by rw [h1], fun hw => h2 (store_wf hw _ _), fun hm => h3 fun e he => ?_⟩
      rcases mem_store he with rfl | he
      · assumption
      · exact hm e he
    · cases h

/-- The Caller's writes inside the buffer go through (R244). -/
theorem callerWriteTx_ok {bytes : List Byte} {i : Nat} {s : State} (h : i + bytes.length ≤ s.cfg.maxLen) :
    ∃ t, callerWriteTx i bytes s = .next t := by
  induction bytes generalizing i s with
  | nil => exact ⟨s, rfl⟩
  | cons b bs ih =>
    simp only [List.length_cons] at h
    simp only [callerWriteTx, show i < s.cfg.maxLen by omega, if_true]
    exact ih (by simp only; omega)

theorem callerWriteRx_ok {bytes : List Byte} {i : Nat} {s : State} (h : i + bytes.length ≤ s.cfg.maxLen) :
    ∃ t, callerWriteRx i bytes s = .next t := by
  induction bytes generalizing i s with
  | nil => exact ⟨s, rfl⟩
  | cons b bs ih =>
    simp only [List.length_cons] at h
    simp only [callerWriteRx, show i < s.cfg.maxLen by omega, if_true]
    exact ih (by simp only; omega)

/-! ### Feeding bytes -/

@[simp] theorem feed_nil (s : State) : feed [] s = .next { s with out := [] } := rfl
theorem feed_cons (b : Byte) (bs : List Byte) (s : State) : feed (b :: bs) s = followedBy (byteStep b s) (feed bs) := rfl

/-- No byte step reads the record of the outputs. -/
theorem byteStep_out (b : Byte) (s : State) (o : List Outputs) : byteStep b { s with out := o } = byteStep b s := by
  simp only [byteStep]
  cases s.ses.st <;> simp only [execDecSync1, execDecSync2, execDecId, execDecPay, execDecCrc, whenDec, huntSync1,
    completeId, finishFrame, takeCondition, withStatus, sessionReturn]

theorem feed_out (w : List Byte) (s : State) (o : List Outputs) : feed w { s with out := o } = feed w s := by
  cases w with
  | nil => rfl
  | cons b bs => rw [feed_cons, feed_cons, byteStep_out]

/-- Bytes fed in two parts: the second part on the state the first left, the outputs of both in order. -/
theorem feed_append (v w : List Byte) (s : State) : feed (v ++ w) s = followedBy (feed v s) (feed w) := by
  induction v generalizing s with
  | nil => simp [followedBy, feed_out]
  | cons b bs ih =>
    rw [List.cons_append, feed_cons, feed_cons]
    cases h : byteStep b s with
    | next t =>
      simp only [followedBy, andThen_next, ih]
      cases h2 : feed bs t with
      | next u => simp only [andThen_next, putBefore_next, putBefore_append, feed_out]
      | fault f => rfl
      | refused f => rfl
    | fault f => rfl
    | refused f => rfl

/-- A byte step is the operation the state names (R140). -/
theorem byteStep_eq_exec (b : Byte) (s : State) : byteStep b s = exec (decOp s.ses.st b) s := by
  cases h : s.ses.st <;> simp [byteStep, h, decOp, exec]

/-! ### Bytes of 16-bit fields (R83, R84) -/

@[simp] theorem hiByte_joinBytes (h l : Byte) : hiByte (joinBytes h l) = h := by
  apply BitVec.eq_of_getLsbD_eq
  intro i hi
  simp only [hiByte, joinBytes, BitVec.getLsbD_extractLsb', BitVec.getLsbD_append]
  simp [hi]

@[simp] theorem loByte_joinBytes (h l : Byte) : loByte (joinBytes h l) = l := by
  apply BitVec.eq_of_getLsbD_eq
  intro i hi
  simp only [loByte, joinBytes, BitVec.getLsbD_extractLsb', BitVec.getLsbD_append]
  simp [hi]

@[simp] theorem joinBytes_hi_lo (v : Word) : joinBytes (hiByte v) (loByte v) = v := by
  apply BitVec.eq_of_getLsbD_eq
  intro i hi
  simp only [joinBytes, hiByte, loByte, BitVec.getLsbD_append, BitVec.getLsbD_extractLsb']
  by_cases h : i < 8
  · simp [h]
  · simp [h, show i - 8 < 8 by omega, show 8 + (i - 8) = i by omega]

/-! ### State codes (R21, R31) -/

@[simp] theorem dstOfCode_dstCode (st : DSt) : dstOfCode (dstCode st) = some st := by cases st <;> rfl
@[simp] theorem estOfCode_estCode (st : ESt) : estOfCode (estCode st) = some st := by cases st <;> rfl

end Sys2Proof.Machine
end

