-- ==== Sys2Proof/Laws/PerInstr.lean ====
section
/-! SUPPORT. Per-operation lemmas. Family TableRow: the encoding of an operation lies in its row of the opcode table. -/

namespace Sys2Proof.Laws.TableRow

/-- The encoded word meets the row's mask and match, `SYNC` being R6's value (R92 to R96). -/
def Statement (i : Instr) : Prop := ∀ c : Config, c.sync = 0xFF → (rowOf i).holds (encode c i)

/-- The state bits of a DEC word stand above its byte and decide the row (R92). -/
theorem dec_word_bits (st : DSt) :
    ∀ b : Byte, (1#1 ++ dstCode st ++ b).toNat &&& 0xF00 = (8 + (dstCode st).toNat) * 256 := by
  cases st <;> decide

/-- The first bit of a CRC word stands above its byte and decides the row (R95). -/
theorem crc_word_bits : ∀ b : Byte, (1#1 ++ b).toNat &&& 0x100 = 0x100 := by decide

theorem crcInit (u : CrcUser) : Statement (.crcInit u) := by intro _ _; simp [Row.holds, rowOf, encode, SelWord.bits]
theorem crcUpd (u : CrcUser) (b : Byte) : Statement (.crcUpd u b) := fun _ _ => crc_word_bits b
theorem encNop : Statement .encNop := by intro _ _; simp [Row.holds, rowOf, encode, SelWord.bits]
theorem encStart (id : Word) (len : Nat) : Statement (.encStart id len) := by intro _ _; simp [Row.holds, rowOf, encode, SelWord.bits]
theorem encPutSync1 : Statement .encPutSync1 := by intro _ _; simp [Row.holds, rowOf, encode, encodePut, SelWord.bits, estCode]
theorem encPutSync2 : Statement .encPutSync2 := by intro _ _; simp [Row.holds, rowOf, encode, encodePut, SelWord.bits, estCode]
theorem encPutIdHi : Statement .encPutIdHi := by intro _ _; simp [Row.holds, rowOf, encode, encodePut, SelWord.bits, estCode]
theorem encPutIdLo : Statement .encPutIdLo := by intro _ _; simp [Row.holds, rowOf, encode, encodePut, SelWord.bits, estCode]
theorem encPutPay : Statement .encPutPay := by intro _ _; simp [Row.holds, rowOf, encode, encodePut, SelWord.bits, estCode]
theorem encPutCrcHi : Statement .encPutCrcHi := by intro _ _; simp [Row.holds, rowOf, encode, encodePut, SelWord.bits, estCode]
theorem encPutCrcLo : Statement .encPutCrcLo := by intro _ _; simp [Row.holds, rowOf, encode, encodePut, SelWord.bits, estCode]
theorem encDecline : Statement .encDecline := by intro _ _; simp [Row.holds, rowOf, encode, SelWord.bits]
theorem decNobyte : Statement .decNobyte := by intro _ _; simp [Row.holds, rowOf, encode, SelWord.bits]
theorem decSync1 (b : Byte) : Statement (.decSync1 b) := fun _ _ => dec_word_bits _ b
theorem decSync2 (b : Byte) : Statement (.decSync2 b) := fun _ _ => dec_word_bits _ b
theorem decId (b : Byte) : Statement (.decId b) := fun _ _ => dec_word_bits _ b
theorem decPay (b : Byte) : Statement (.decPay b) := fun _ _ => dec_word_bits _ b
theorem decCrc (b : Byte) : Statement (.decCrc b) := fun _ _ => dec_word_bits _ b
theorem sysReset : Statement .sysReset := by intro _ _; simp [Row.holds, rowOf, encode, SelWord.bits]
theorem sysTake : Statement .sysTake := by intro _ _; simp [Row.holds, rowOf, encode, SelWord.bits]
theorem sysTick : Statement .sysTick := by intro _ _; simp [Row.holds, rowOf, encode, SelWord.bits]
theorem frame (id : Word) (p : List Byte) (crc : Word) : Statement (.frame id p crc) := fun c h => by
  simp [Row.holds, rowOf, encode, SelWord.bits, frameBytes, h]

end Sys2Proof.Laws.TableRow
end

