-- ==== Sys2Proof/Tests/Slice0.lean ====
section
/-! SUPPORT. The model's own tests, expected results from spec/95_test_vectors.md and the rules' worked examples, and
a witness for the hypotheses of each statement of Certificates/Slice0/Obligations.lean. -/

namespace Sys2Proof.Tests

open Sys2Proof Sys2Proof.Machine

/-! ### Helpers -/

/-- A configuration with a two-byte id, an empty one and a watchdog. -/
def cfg : Config :=
  { maxLen := 3, lens := [(0x0102, 2), (0x0300, 0)], lenDefault := 3, retryBudget := 1, watchdogLimit := some 2 }

/-- The reset state under `cfg`. -/
def start : State := { State.reset with cfg := cfg }

/-- `start` with a session. -/
def withSes (ses : Session) : State := { start with ses := ses }

/-- A session in a state with one field byte and a running CRC. -/
def sesAt (st : DSt) (facc : Word) (fcnt : Fin 2) (crc : Word) : Session := ⟨st, facc, fcnt, 0, crc, 0⟩

/-- The receive side in a state of a frame of two payload bytes, `cur` of them read. -/
def reading (st : DSt) (cur : Nat) (facc : Word) (fcnt : Fin 2) (crc : Word) (wd : Nat) : State :=
  { start with ses := ⟨st, facc, fcnt, cur, crc, wd⟩, rx := ⟨0x0102, 2, .noFlags, [(0, 0x0A)]⟩ }

/-- The encoder in a state. -/
def sending (st : ESt) (id : Word) (len cur : Nat) (crc : Word) (retry : Nat) (buf : Memory) : State :=
  { start with enc := ⟨st, id, len, cur, crc, retry⟩, txBuf := buf }

/-- A property of the next state; false of a stop. -/
def next? (r : Result) (p : State → Bool) : Bool :=
  match r with
  | .next t => p t
  | .fault _ => false
  | .refused _ => false

/-- One step with these signals. -/
def stepWith (g : Signals) (s : State) : Result := step { s with inputs := [.signals g] }

/-- The next state of the step that presents a table word, its outputs' results. -/
def firstResult (nbits w : Nat) : Option (Option RxResult × Option TxResult) :=
  match step (State.reset.withFetchWord nbits w) with
  | .next t => some ((shown t).rxResult, (shown t).txResult)
  | .fault _ => none
  | .refused _ => none

/-! ### Well-formedness -/

/-- R120: a length at `MAX_LEN` is legal, one above is not. -/
theorem test_wellFormed_start :
    (Instr.encStart 0x0102 3).wellFormed cfg = true ∧ (Instr.encStart 0x0102 4).wellFormed cfg = false := by decide

/-- R96: a payload of another length than `lenOf(id)` is not a frame. -/
theorem test_wellFormed_frame_length :
    (Instr.frame 0x0102 [0x0A, 0x0B] 0xC2B4).wellFormed cfg = true
    ∧ (Instr.frame 0x0102 [0x0A] 0xC2B4).wellFormed cfg = false := by decide

/-- R81: a payload longer than `MAX_LEN` is not a frame, though the mapping asks for it. -/
theorem test_wellFormed_frame_max :
    (Instr.frame 0x0007 [1, 2] 0).wellFormed { maxLen := 1, lenDefault := 2 } = false := by decide

/-! ### Decoding, words written out from R92 to R96 -/

/-- R92: `0sssbbbbbbbb` is `DEC.NOBYTE` whatever `s`. -/
theorem test_decode_nobyte : decode cfg (.dec 0b010000110111) = .ok .decNobyte := by rfl
/-- R92: `1000bbbbbbbb`. -/
theorem test_decode_sync1 : decode cfg (.dec 0b100011111111) = .ok (.decSync1 0xFF) := by rfl
/-- R92: `1001bbbbbbbb`. -/
theorem test_decode_sync2 : decode cfg (.dec 0b100100110111) = .ok (.decSync2 0x37) := by rfl
/-- R92: `1010bbbbbbbb`. -/
theorem test_decode_id : decode cfg (.dec 0b101000000001) = .ok (.decId 0x01) := by rfl
/-- R92: `1011bbbbbbbb`. -/
theorem test_decode_pay : decode cfg (.dec 0b101100001010) = .ok (.decPay 0x0A) := by rfl
/-- R92: `1100bbbbbbbb`. -/
theorem test_decode_crc : decode cfg (.dec 0b110011000010) = .ok (.decCrc 0xC2) := by rfl
/-- R92, R97: `1101bbbbbbbb` selects nothing. -/
theorem test_decode_reserved_dec : decode cfg (.dec 0b110100000000) = .error (.reservedDst 5) := by rfl
/-- R93: `00000r`. -/
theorem test_decode_encNop : decode cfg (.enc 0b000001 9 1) = .ok .encNop := by rfl
/-- R93: `10000r`, the operands beside the word. -/
theorem test_decode_encStart : decode cfg (.enc 0b100001 0x0102 2) = .ok (.encStart 0x0102 2) := by rfl
/-- R93: `g10001`, `g10011`. -/
theorem test_decode_put_sync :
    decode cfg (.enc 0b110001 9 1) = .ok .encPutSync1 ∧ decode cfg (.enc 0b010011 9 1) = .ok .encPutSync2 :=
  ⟨rfl, rfl⟩
/-- R93: `g10101`, `g10111`. -/
theorem test_decode_put_id :
    decode cfg (.enc 0b010101 9 1) = .ok .encPutIdHi ∧ decode cfg (.enc 0b110111 9 1) = .ok .encPutIdLo :=
  ⟨rfl, rfl⟩
/-- R93: `g11001`. -/
theorem test_decode_put_pay : decode cfg (.enc 0b011001 9 1) = .ok .encPutPay := by rfl
/-- R93: `g11011`, `g11101`. -/
theorem test_decode_put_crc :
    decode cfg (.enc 0b011011 9 1) = .ok .encPutCrcHi ∧ decode cfg (.enc 0b111101 9 1) = .ok .encPutCrcLo :=
  ⟨rfl, rfl⟩
/-- R93: `g1sss0`. -/
theorem test_decode_decline : decode cfg (.enc 0b111000 9 1) = .ok .encDecline := by rfl
/-- R93, R97: `g11110` names the state 1111 and selects nothing. -/
theorem test_decode_reserved_enc : decode cfg (.enc 0b011110 9 1) = .error (.reservedEst 15) := by rfl
/-- R94: `1kt`, `01t`, `0k1`; `000` selects nothing. -/
theorem test_decode_sys :
    decode cfg (.sys 0b111) = .ok .sysReset ∧ decode cfg (.sys 0b010) = .ok .sysTake
    ∧ decode cfg (.sys 0b001) = .ok .sysTick ∧ decode cfg (.sys 0b000) = .error .noSystemRequest :=
  ⟨rfl, rfl, rfl, rfl⟩
/-- R95: `0bbbbbbbb`, `1bbbbbbbb`. -/
theorem test_decode_crc_engine :
    decode cfg (.crc 0b000110001 .encoder) = .ok (.crcInit .encoder)
    ∧ decode cfg (.crc 0b100110001 .decoder) = .ok (.crcUpd .decoder 0x31) := ⟨rfl, rfl⟩
/-- R96: the frame of the concrete scenario (R185). -/
theorem test_decode_frame :
    decode cfg (.wire [0xFF, 0xFF, 0x01, 0x02, 0x0A, 0x0B, 0xC2, 0xB4]) = .ok (.frame 0x0102 [0x0A, 0x0B] 0xC2B4) := by rfl
/-- R96: one byte short is no frame; a broken sync pair is none. -/
theorem test_decode_frame_refused :
    decode cfg (.wire [0xFF, 0xFF, 0x01, 0x02, 0x0A, 0x0B, 0xC2]) = .error .frameLength
    ∧ decode cfg (.wire [0xFF, 0xFE, 0x01, 0x02, 0x0A, 0x0B, 0xC2, 0xB4]) = .error .noFrameHead := ⟨rfl, rfl⟩

/-- Each row's own word, numbered as the table numbers it, gives the row's operation. -/
theorem test_table_words :
    decodeTableWord 16 0x131 = some (.crcUpd .decoder 0x31) ∧ decodeTableWord 8 0x00 = some .encNop
    ∧ decodeTableWord 8 0x20 = some (.encStart 0 0) ∧ decodeTableWord 8 0x11 = some .encPutSync1
    ∧ decodeTableWord 8 0x13 = some .encPutSync2 ∧ decodeTableWord 8 0x15 = some .encPutIdHi
    ∧ decodeTableWord 8 0x17 = some .encPutIdLo ∧ decodeTableWord 8 0x19 = some .encPutPay
    ∧ decodeTableWord 8 0x1B = some .encPutCrcHi ∧ decodeTableWord 8 0x1D = some .encPutCrcLo
    ∧ decodeTableWord 8 0x10 = some .encDecline ∧ decodeTableWord 16 0x000 = some .decNobyte
    ∧ decodeTableWord 16 0x8FF = some (.decSync1 0xFF) ∧ decodeTableWord 16 0x9FF = some (.decSync2 0xFF)
    ∧ decodeTableWord 16 0xA01 = some (.decId 0x01) ∧ decodeTableWord 16 0xB0A = some (.decPay 0x0A)
    ∧ decodeTableWord 16 0xCC2 = some (.decCrc 0xC2) ∧ decodeTableWord 8 0x4 = some .sysReset
    ∧ decodeTableWord 8 0x2 = some .sysTake ∧ decodeTableWord 8 0x1 = some .sysTick
    ∧ decodeTableWord 16 0xFFFF = some (.frame 0 [0, 0] 0) := by decide

set_option maxRecDepth 10000 in
/-- The step after reset runs the word presented. -/
theorem test_first_step :
    firstResult 16 0x8FF = some (some .consumed, none) ∧ firstResult 16 0xCC2 = some (some .consumed, none)
    ∧ firstResult 8 0x20 = some (none, some .started) ∧ firstResult 8 0x1D = some (none, some .done)
    ∧ firstResult 8 0x10 = some (none, some .transportBusy) ∧ firstResult 8 0x4 = some (some .quiet, some .idle)
    ∧ firstResult 16 0xFFFF = some (some .rejected, none) := by decide

/-! ### The CRC Engine -/

/-- R111's example: 0x1234 before, 0xFFFF after. -/
theorem test_crcInit :
    next? (exec (.crcInit .decoder) (withSes (sesAt .readId 0 0 0x1234))) (fun t => t.ses.crc == 0xFFFF) = true := by decide
/-- V-CRC-7. -/
theorem test_crcUpd :
    next? (exec (.crcUpd .decoder 0x01) start) (fun t => t.ses.crc == 0xF1D1 && t.enc.crc == 0xFFFF) = true := by decide
set_option maxRecDepth 10000 in
/-- V-CRC-3, V-CRC-9, V-CRC-10, V-CRC-11. -/
theorem test_crcUpdate :
    crcDivide 0x1021 0 0x80 = 0x9188 ∧ crcDivide 0x1021 0x8000 0 = 0x9188 ∧ crcDivide 0x1021 0x0001 0 = 0x0100
    ∧ crcDivide 0x1021 0x1234 0x56 = 0x3C40 := by decide

/-! ### The encoder -/

/-- V-ENC-1. -/
theorem test_encNop : next? (exec .encNop start) (fun t => t.enc == start.enc && (shown t).offered == none) = true := by decide
/-- V-ENC-2. -/
theorem test_encStart :
    next? (exec (.encStart 0x0102 2) (sending .idle 7 1 1 5 1 []))
      (fun t => t.enc == ⟨.sync1, 0x0102, 2, 0, 0xFFFF, 0⟩ && t.txStream == []) = true := by decide
/-- V-ENC-3. -/
theorem test_encPutSync1 :
    next? (exec .encPutSync1 (sending .sync1 0x0102 2 0 0xFFFF 0 []))
      (fun t => t.enc == ⟨.sync2, 0x0102, 2, 0, 0xFFFF, 0⟩ && t.txStream == [0xFF]) = true := by decide
/-- V-ENC-14: a start while busy is ignored and lost. -/
theorem test_encPutSync2 :
    next? (stepWith { enc := some { start := true, id := 0xBEEF, len := 1, ready := true } }
        (sending .sync2 0x0102 2 0 0xFFFF 0 []))
      (fun t => t.enc == ⟨.idHi, 0x0102, 2, 0, 0xFFFF, 0⟩ && t.txStream == [0xFF]) = true := by decide
/-- V-ENC-4. -/
theorem test_encPutIdHi :
    next? (exec .encPutIdHi (sending .idHi 0x0102 2 0 0xFFFF 0 []))
      (fun t => t.enc == ⟨.idLo, 0x0102, 2, 0, 0xF1D1, 0⟩ && t.txStream == [0x01]) = true := by decide
/-- V-ENC-5. -/
theorem test_encPutIdLo :
    next? (exec .encPutIdLo (sending .idLo 0x0102 2 0 0xF1D1 0 []))
      (fun t => t.enc == ⟨.payload, 0x0102, 2, 0, 0x0E7C, 0⟩ && t.txStream == [0x02]) = true := by decide
/-- V-ENC-6. -/
theorem test_encPutIdLo_empty :
    next? (exec .encPutIdLo (sending .idLo 0x1234 0 0 0xD383 0 []))
      (fun t => t.enc == ⟨.crcHi, 0x1234, 0, 0, 0x0EC9, 0⟩ && t.txStream == [0x34]) = true := by decide
/-- V-ENC-7. -/
theorem test_encPutPay_last :
    next? (exec .encPutPay (sending .payload 7 1 0 0x6DE8 0 [(0, 0x2A)]))
      (fun t => t.enc == ⟨.crcHi, 7, 1, 1, 0xD023, 0⟩ && t.txStream == [0x2A]) = true := by decide
/-- V-ENC-8. -/
theorem test_encPutPay :
    next? (exec .encPutPay (sending .payload 0x0102 2 0 0x0E7C 0 [(0, 0xFF), (1, 0xFF)]))
      (fun t => t.enc == ⟨.payload, 0x0102, 2, 1, 0x833E, 0⟩ && t.txStream == [0xFF]) = true := by decide
/-- V-ENC-9. -/
theorem test_encPutCrcHi :
    next? (exec .encPutCrcHi (sending .crcHi 0x0102 2 2 0xC2B4 0 []))
      (fun t => t.enc == ⟨.crcLo, 0x0102, 2, 2, 0xC2B4, 0⟩ && t.txStream == [0xC2]) = true := by decide
/-- V-ENC-10. -/
theorem test_encPutCrcLo :
    next? (exec .encPutCrcLo (sending .crcLo 0x0102 2 2 0xC2B4 0 []))
      (fun t => t.enc == ⟨.idle, 0x0102, 2, 2, 0xC2B4, 0⟩ && t.txStream == [0xB4]
        && (shown t).txResult == some .done) = true := by decide
/-- V-ENC-11: the byte is shown, not sent. -/
theorem test_encDecline_retry :
    next? (exec .encDecline (sending .payload 0x0102 2 0 0x0E7C 0 [(0, 0x0A)]))
      (fun t => t.enc == ⟨.payload, 0x0102, 2, 0, 0x0E7C, 1⟩ && t.txStream == [] && (shown t).offered == some 0x0A) = true := by
  decide
/-- V-ENC-12. -/
theorem test_encDecline_busy :
    next? (exec .encDecline (sending .payload 0x0102 2 0 0x0E7C 1 [(0, 0x0A)]))
      (fun t => t.enc == ⟨.idle, 0x0102, 2, 0, 0x0E7C, 1⟩ && (shown t).txResult == some .transportBusy
        && (shown t).raised == [.transportBusy .payload 0]) = true := by decide

/-! ### The decoder -/

/-- V-DEC-1. -/
theorem test_decSync1_miss :
    next? (exec (.decSync1 0x00) start) (fun t => t.ses == start.ses && (shown t).rxResult == some .consumed) = true := by decide
/-- V-DEC-2. -/
theorem test_decSync1_hit :
    next? (exec (.decSync1 0xFF) start) (fun t => t.ses == { start.ses with st := .waitSync2 }) = true := by decide
/-- V-DEC-4. -/
theorem test_decSync2_hit :
    next? (exec (.decSync2 0xFF) (withStatus .newData (withSes (sesAt .waitSync2 0 0 0xFFFF))))
      (fun t => t.ses == sesAt .readId 0 0 0xFFFF && t.rx.status == .noFlags) = true := by decide
/-- V-DEC-5. -/
theorem test_decSync2_miss :
    next? (exec (.decSync2 0x00) (withStatus .newData (withSes (sesAt .waitSync2 0 0 0xFFFF))))
      (fun t => t.ses.st == .waitSync1 && t.rx.status == .newData) = true := by decide
/-- V-DEC-6. -/
theorem test_decId_first :
    next? (exec (.decId 0xFF) (withSes (sesAt .readId 0 0 0xFFFF)))
      (fun t => t.ses == sesAt .readId 0x00FF 1 0xFF00) = true := by decide
/-- V-DEC-7. -/
theorem test_decId_second :
    next? (exec (.decId 0x02) (withSes (sesAt .readId 0x0001 1 0xF1D1)))
      (fun t => t.ses == sesAt .readPayload 0 0 0x0E7C && t.rx.id == 0x0102 && t.rx.len == 2) = true := by decide
/-- R144's example: the last payload byte leaves `ReadPayload`. -/
theorem test_decPay_last :
    next? (exec (.decPay 0x0B) (reading .readPayload 1 0 0 0x3C84 0))
      (fun t => t.ses == ⟨.readCrc, 0, 0, 2, 0xC2B4, 0⟩ && t.rx.buf == [(0, 0x0A), (1, 0x0B)]) = true := by decide
/-- V-DEC-10. -/
theorem test_decPay :
    next? (exec (.decPay 0xFF) (reading .readPayload 0 0 0 0x0E7C 0))
      (fun t => t.ses == ⟨.readPayload, 0, 0, 1, 0x833E, 0⟩ && t.rx.buf == [(0, 0xFF)]) = true := by decide
/-- R145's example: the second CRC byte accepts. -/
theorem test_decCrc_accept :
    next? (exec (.decCrc 0xB4) (reading .readCrc 2 0x00C2 1 0xC2B4 0))
      (fun t => t.ses == Session.init cfg && t.rx.status == .newData && (shown t).rxResult == some .accepted) = true := by decide
/-- V-DEC-11: the CRC bytes swapped. -/
theorem test_decCrc_reject :
    next? (exec (.decCrc 0xC2) (reading .readCrc 2 0x00B4 1 0xC2B4 0))
      (fun t => t.ses == Session.init cfg && t.rx.status == .dataLost && t.rx.id == 0x0102
        && (shown t).raised == [.checksumMismatch 0xB4C2 0xC2B4]) = true := by decide
/-- V-DEC-13 in `ReadPayload`. -/
theorem test_decNobyte :
    next? (exec .decNobyte (reading .readPayload 1 0 0 0x3C84 1))
      (fun t => t.quiet == (reading .readPayload 1 0 0 0x3C84 1).quiet && (shown t).rxResult == some .noProgress) = true := by
  decide
set_option maxRecDepth 2000 in
/-- The concrete scenario (R185, program P2). -/
theorem test_frame_accept :
    next? (exec (.frame 0x0102 [0x0A, 0x0B] 0xC2B4) start)
      (fun t => t.rx == ⟨0x0102, 2, .newData, [(0, 0x0A), (1, 0x0B)]⟩ && t.ses == Session.init cfg) = true := by decide
set_option maxRecDepth 2000 in
/-- Its corruption (R185, program P3). -/
theorem test_frame_reject :
    next? (exec (.frame 0x0102 [0x0A, 0x0C] 0xC2B4) start)
      (fun t => t.rx == ⟨0x0102, 2, .dataLost, [(0, 0x0A), (1, 0x0C)]⟩) = true := by decide

/-! ### The system side -/

/-- V-SYS-1. -/
theorem test_sysReset :
    next? (exec .sysReset { reading .readPayload 1 0 0 0x3C84 1 with enc := ⟨.payload, 7, 1, 0, 5, 1⟩ })
      (fun t => t.quiet == { start with rx := { start.rx with buf := [(0, 0x0A)] } }.quiet && (shown t).raised == []) = true := by
  decide
/-- V-SYS-13: reset overrides everything, the byte is not consumed. -/
theorem test_sysReset_overrides :
    next? (stepWith ⟨true, true, .byte 0xFF, true, some { start := true, ready := true }⟩ start)
      (fun t => t.ses.st == .waitSync1 && t.enc.st == .idle && (shown t).took == false) = true := by decide
/-- V-SYS-2. -/
theorem test_sysTake :
    next? (exec .sysTake (withStatus .newData start))
      (fun t => t.quiet == start.quiet) = true := by decide
/-- V-SYS-10: a release in the step that ends the frame is applied first. -/
theorem test_sysTake_with_byte :
    next? (stepWith { take := true, rx := .byte 0xB4 } (reading .readCrc 2 0x00C2 1 0xC2B4 0))
      (fun t => t.rx.status == .newData && (shown t).rxResult == some .accepted) = true := by decide
/-- V-SYS-9 with limit 2: the partial message stays visible. -/
theorem test_sysTick_fires :
    next? (exec .sysTick (reading .readPayload 1 0 0 0x3C84 1))
      (fun t => t.ses == Session.init cfg && t.rx == ⟨0x0102, 2, .noFlags, [(0, 0x0A)]⟩
        && (shown t).rxResult == some .truncated) = true := by decide
/-- V-SYS-12 with limit 2: the byte's write remains. -/
theorem test_sysTick_with_byte :
    next? (stepWith { rx := .byte 0x0B, tick := true } (reading .readPayload 0 0 0 0x0E7C 1))
      (fun t => t.ses == Session.init cfg && t.rx.buf == [(0, 0x0B)] && (shown t).rxResult == some .truncated) = true := by
  decide

/-! ### The Caller's side -/

/-- R60: the last cell can be written, the one after does not exist. -/
theorem test_callerWrite_edge :
    next? (step { start with inputs := [.writeTx 2 [7]] }) (fun t => t.txBuf == [(2, 7)]) = true
    ∧ step { start with inputs := [.writeTx 2 [7, 8]] } = .fault (.callerIndex 3) := ⟨by decide, by rfl⟩

/-! ### Witnesses: one per statement with hypotheses -/

/-- Signals that deliver these bytes, an encoder step in each. -/
def deliver (w : List Byte) : List Signals :=
  w.map fun b => { rx := .byte b, enc := some { start := false, ready := true } }

/-- Encoder steps with these answers. -/
def answering (as : List Bool) : List Signals := as.map fun a => { enc := some { start := false, ready := a } }

theorem witness_DecodeGivesBackEncodedOperation :
    (Instr.encStart 0xBEEF 3).wellFormed cfg = true ∧ (Instr.frame 0x0300 [] 0xFFFF).wellFormed cfg = true := by decide

theorem witness_DecodedWordLiesInItsRow :
    cfg.sync = 0xFF ∧ decode cfg (.enc 0b111000 0 0) = .ok .encDecline
    ∧ decode cfg (.wire [0xFF, 0xFF, 0x03, 0x00, 0x00, 0x00]) = .ok (.frame 0x0300 [] 0) := ⟨rfl, rfl, rfl⟩

/-- Codes 5 and 7 of `d_st`; codes 1, 7 and 15 of `e_st`. -/
theorem witness_ReservedCodesSelectNothing :
    ((0xD00 : BitVec 12).getLsbD 11 = true ∧ 5 ≤ ((0xD00 : BitVec 12).extractLsb' 8 3).toNat)
    ∧ ((0xF00 : BitVec 12).getLsbD 11 = true ∧ 5 ≤ ((0xF00 : BitVec 12).extractLsb' 8 3).toNat)
    ∧ (1 ≤ ((0b000010 : BitVec 6).extractLsb' 1 4).toNat ∧ ((0b000010 : BitVec 6).extractLsb' 1 4).toNat ≤ 7)
    ∧ (1 ≤ ((0b001110 : BitVec 6).extractLsb' 1 4).toNat ∧ ((0b001110 : BitVec 6).extractLsb' 1 4).toNat ≤ 7)
    ∧ ((0b011110 : BitVec 6).extractLsb' 1 4).toNat = 15 := by decide

/-- `start` with these inputs pending. -/
def pending (qs : List Input) : State := { start with inputs := qs }

theorem witness_StepRunsTheSelectedOperation :
    ((pending [.signals { rx := .byte 0xFF }]).inputs = .signals { rx := .byte 0xFF } :: []
      ∧ selectWords { rx := .byte 0xFF } (pending []) = [.dec 0x8FF] ∧ decode cfg (.dec 0x8FF) = .ok (.decSync1 0xFF))
    ∧ ((pending [.crcCall .encoder 0x101]).inputs = .crcCall .encoder 0x101 :: []
      ∧ decode cfg (.crc 0x101 .encoder) = .ok (.crcUpd .encoder 1))
    ∧ ((pending [.wire [0xFF, 0xFF, 3, 0, 0, 0]]).inputs = .wire [0xFF, 0xFF, 3, 0, 0, 0] :: []
      ∧ decode cfg (.wire [0xFF, 0xFF, 3, 0, 0, 0]) = .ok (.frame 0x0300 [] 0))
    ∧ start.inputs = [] := ⟨⟨rfl, rfl, rfl⟩, ⟨rfl, rfl⟩, ⟨rfl, rfl⟩, rfl⟩

theorem witness_StepPerformsRequestsInOrder :
    (pending [.signals { take := true, rx := .empty }]).inputs = .signals { take := true, rx := .empty } :: []
    ∧ ({ take := true, rx := .empty } : Signals).rst = false := ⟨rfl, rfl⟩

theorem witness_ResetSetsEveryRegister :
    (pending [.signals { rst := true, tick := true }]).inputs = .signals { rst := true, tick := true } :: []
    ∧ ({ rst := true, tick := true } : Signals).rst = true := ⟨rfl, rfl⟩

/-- A byte that leaves the decoder mid-frame, with the watchdog firing, and one that ends the frame; then the instances at
the last payload byte and at the second CRC byte. -/
theorem witness_ByteBeforeTickInOneStep :
    (let s := { reading .readId 0 0 0 0xFFFF 1 with inputs := [.signals { rx := .byte 0x01, tick := true }] };
      s.inputs = .signals { rx := .byte 0x01, tick := true } :: [] ∧ s.cfg.watchdogLimit = some 2
      ∧ next? (exec (decOp s.ses.st 0x01) { s with inputs := [] })
          (fun t => !hunting t.ses.st && decide (((2 : PNat) : Nat) ≤ t.ses.wd + 1)) = true)
    ∧ (let s := { reading .readCrc 2 0x00C2 1 0xC2B4 1 with inputs := [.signals { rx := .byte 0xB5, tick := true }] };
      s.inputs = .signals { rx := .byte 0xB5, tick := true } :: [] ∧ s.cfg.watchdogLimit = some 2
      ∧ next? (exec (decOp s.ses.st 0xB5) { s with inputs := [] }) (fun t => hunting t.ses.st) = true
      ∧ s.ses.st = .readCrc ∧ s.ses.fcnt = 1)
    ∧ (let s := { reading .readPayload 1 0 0 0x3C84 1 with inputs := [.signals { rx := .byte 0x0B, tick := true }] };
      s.inputs = .signals { rx := .byte 0x0B, tick := true } :: [] ∧ s.ses.st = .readPayload
      ∧ s.ses.cur < s.cfg.maxLen ∧ s.cfg.watchdogLimit = some 2 ∧ ((2 : PNat) : Nat) ≤ s.ses.wd + 1) := by decide

theorem witness_EncoderCommutesWithReceiveSide :
    ∃ t u t' u', isEncoderOp (.encStart 0x0102 3) = true ∧ isReceiveOp (.decSync1 0xFF) = true
      ∧ exec (.encStart 0x0102 3) start = .next t ∧ exec (.decSync1 0xFF) t = .next u
      ∧ exec (.decSync1 0xFF) start = .next t' ∧ exec (.encStart 0x0102 3) t' = .next u' :=
  ⟨_, _, _, _, rfl, rfl, rfl, rfl, rfl, rfl⟩

theorem witness_CrcInitSeedsTheAccumulator : start.cfg.Standard := by decide

/-- The worked values of R112. -/
def shifts (k : Nat) : Word :=
  [0xFEFF, 0xEDDF, 0xCB9F, 0x871F, 0x1E1F, 0x3C3E, 0x787C, 0xF0F8, 0xF1D1].getD k 0

theorem witness_CrcUpdDividesByThePolynomial :
    start.cfg.crcFn = .division 0x1021 ∧ shifts 0 = accOf .decoder start ^^^ ((0x01 : Byte) ++ 0#8)
    ∧ ∀ k < 8, shifts (k + 1) =
      if (shifts k).getLsbD 15 = true then (shifts k <<< 1) ^^^ 0x1021 else shifts k <<< 1 := by decide

theorem witness_CrcOperationsChangeOneAccumulator :
    (∃ t, exec (.crcInit .decoder) start = .next t) ∧ ∃ t, exec (.crcUpd .encoder 0xFF) start = .next t :=
  ⟨⟨_, rfl⟩, ⟨_, rfl⟩⟩

theorem witness_OneChangedByteChangesTheCrc :
    cfg.crcFn = .division 0x1021 ∧ 3 < [0x01, 0x02, 0x0A, 0x0B].length
    ∧ ([0x01, 0x02, 0x0A, 0x0B] : List Byte)[3]? ≠ some 0x0C := by decide

theorem witness_CrcCheckValues : cfg.Standard := by decide

/-- One state for each clause; the payload cursor at its highest cell. -/
theorem witness_EncoderOffersTheByteOfItsState :
    start.enc.st = .idle ∧ (sending .sync1 0 0 0 0 0 []).enc.st = .sync1 ∧ (sending .sync2 0 0 0 0 0 []).enc.st = .sync2
    ∧ (sending .idHi 0 0 0 0 0 []).enc.st = .idHi ∧ (sending .idLo 0 0 0 0 0 []).enc.st = .idLo
    ∧ ((sending .payload 0 3 2 0 0 []).enc.st = .payload ∧ (sending .payload 0 3 2 0 0 []).enc.cur < cfg.maxLen)
    ∧ (sending .crcHi 0 0 0 0 0 []).enc.st = .crcHi ∧ (sending .crcLo 0 0 0 0 0 []).enc.st = .crcLo := by decide

/-- The shortest and the longest length; a start while busy. -/
theorem witness_EncStartLatchesItsOperands :
    (start.enc.st = .idle ∧ 0 ≤ start.cfg.maxLen ∧ 3 ≤ start.cfg.maxLen)
    ∧ (let s := { sending .crcLo 0 0 0 0 0 [] with inputs := [.signals { enc := some ⟨true, 7, 1, false⟩ }] };
      s.enc.st ≠ .idle ∧ s.inputs = .signals { enc := some ⟨true, 7, 1, false⟩ } :: []) := by decide

theorem witness_EncPutSyncSendsTheSyncPair :
    (sending .sync1 7 1 0 0 0 []).enc.st = .sync1 ∧ (sending .sync2 7 1 0 0 0 []).enc.st = .sync2 := by decide

theorem witness_EncPutIdSendsTheId :
    (sending .idHi 7 1 0 0 0 []).enc.st = .idHi ∧ (sending .idLo 7 1 0 0 0 []).enc.st = .idLo := by decide

/-- The first cell and the last. -/
theorem witness_EncPutPaySendsTheBufferByte :
    ((sending .payload 7 3 0 0 0 []).enc.st = .payload ∧ (sending .payload 7 3 0 0 0 []).enc.cur < cfg.maxLen)
    ∧ (sending .payload 7 3 2 0 0 []).enc.cur < cfg.maxLen := by decide

theorem witness_EncPutCrcSendsTheAccumulator :
    (sending .crcHi 7 1 1 0 0 []).enc.st = .crcHi ∧ (sending .crcLo 7 1 1 0 0 []).enc.st = .crcLo := by decide

/-- With one unit of the budget left, and with none. -/
theorem witness_EncDeclineRetriesOrAbandons :
    (let s := sending .payload 7 3 2 0 0 [];
      s.enc.st ≠ .idle ∧ (s.enc.st = .payload → s.enc.cur < s.cfg.maxLen) ∧ s.enc.retry < s.cfg.retryBudget)
    ∧ (let s := sending .sync1 7 3 0 0 1 [];
      s.enc.st ≠ .idle ∧ (s.enc.st = .payload → s.enc.cur < s.cfg.maxLen) ∧ s.cfg.retryBudget ≤ s.enc.retry) := by decide

theorem witness_EncoderOperationsFrame :
    isEncoderOp .encPutPay = true ∧ (∃ t, exec .encPutPay (sending .payload 7 1 0 0 0 [(0, 5)]) = .next t)
    ∧ (∃ t, exec .encNop start = .next t) ∧ (∃ t, exec .encDecline (sending .sync1 7 1 0 0 0 []) = .next t) :=
  ⟨rfl, ⟨_, rfl⟩, ⟨_, rfl⟩, ⟨_, rfl⟩⟩

/-- An encode operation of one payload byte, one decline among the accepts. -/
def encodeAnswers : List Bool := [true, true, false, true, true, true, true, true]

/-- The start of an encode operation and its signals. -/
def encodeRun (as : List Bool) : State :=
  { start with
    txBuf := [(0, 0x2A)]
    inputs := .signals { enc := some { start := true, id := 7, len := 1, ready := true } }
      :: ((answering as).map .signals ++ []) }

/-- The pending inputs of an encode operation, as the statements put them. -/
abbrev startsWith (s : State) (as : List Bool) : Prop :=
  s.inputs = .signals { enc := some { start := true, id := 7, len := 1, ready := true } }
    :: ((answering as).map .signals ++ [])

theorem witness_EncodeOperationSendsTheFrame :
    Inv (encodeRun encodeAnswers) ∧ (encodeRun encodeAnswers).enc.st = .idle ∧ [0x2A].length ≤ cfg.maxLen
    ∧ (∀ k < [0x2A].length, txCell (encodeRun encodeAnswers) k = ([0x2A] : List Byte)[k]?)
    ∧ startsWith (encodeRun encodeAnswers) encodeAnswers
    ∧ (∀ h ∈ answering encodeAnswers, h.rst = false)
    ∧ (answersIn (answering encodeAnswers)).count true = [0x2A].length + 6
    ∧ endsWithAnswer (answering encodeAnswers) true
    ∧ (answersIn (answering encodeAnswers)).count false ≤ cfg.retryBudget :=
  ⟨by decide, by decide⟩

/-- The budget of one decline used up, and one more. -/
def abandonAnswers : List Bool := [true, false, true, false]

theorem witness_AbandonedOperationSendsAProperPrefix :
    Inv (encodeRun abandonAnswers) ∧ (encodeRun abandonAnswers).enc.st = .idle
    ∧ (∀ k < [0x2A].length, txCell (encodeRun abandonAnswers) k = ([0x2A] : List Byte)[k]?)
    ∧ startsWith (encodeRun abandonAnswers) abandonAnswers
    ∧ (∀ h ∈ answering abandonAnswers, h.rst = false)
    ∧ (answersIn (answering abandonAnswers)).count true < [0x2A].length + 6
    ∧ endsWithAnswer (answering abandonAnswers) false
    ∧ (answersIn (answering abandonAnswers)).count false = cfg.retryBudget + 1 := by
  decide

theorem witness_EncodeOperationEnds :
    let s := { sending .sync1 7 0 0 0xFFFF 0 [] with
      inputs := (List.replicate 7 true).map (fun a => .signals { enc := some { start := false, ready := a } }) ++ [] }
    Inv s ∧ s.enc.st = .sync1 ∧ s.enc.retry = 0
    ∧ (List.replicate 7 true).length = s.enc.len + 6 + s.cfg.retryBudget := by decide

theorem witness_DecSyncOneLooksForTheSyncByte : start.ses.st = .waitSync1 := by decide

theorem witness_DecSyncTwoStartsTheTransaction :
    (withSes (sesAt .waitSync2 0 0 0xFFFF)).ses.st = .waitSync2 ∧ (0xFF : Byte) = cfg.sync ∧ (0xFE : Byte) ≠ cfg.sync := by
  decide

/-- The first byte of the id; the second with length 0 and with `MAX_LEN`. -/
theorem witness_DecIdAssemblesTheId :
    (let s := withSes (sesAt .readId 0 0 0xFFFF); s.ses.st = .readId ∧ s.ses.fcnt = 0)
    ∧ (let s := withSes (sesAt .readId 0x0003 1 0); s.ses.st = .readId ∧ s.ses.fcnt ≠ 0
      ∧ s.cfg.lenOf (loByte s.ses.facc ++ (0x00 : Byte)) = 0
      ∧ s.cfg.lenOf (loByte s.ses.facc ++ (0xFF : Byte)) = s.cfg.maxLen) := by decide

theorem witness_DecPayStoresTheByte :
    (let s := reading .readPayload 0 0 0 0 0; s.ses.st = .readPayload ∧ s.ses.cur < s.cfg.maxLen)
    ∧ (let s := reading .readPayload 2 0 0 0 0; s.ses.st = .readPayload ∧ s.ses.cur < s.cfg.maxLen) := by decide

theorem witness_DecCrcJudgesTheFrame :
    (let s := reading .readCrc 2 0 0 0xC2B4 0; s.ses.st = .readCrc ∧ s.ses.fcnt = 0)
    ∧ (let s := reading .readCrc 2 0x00C2 1 0xC2B4 0; s.ses.st = .readCrc ∧ s.ses.fcnt ≠ 0
      ∧ loByte s.ses.facc ++ (0xB4 : Byte) = s.ses.crc ∧ loByte s.ses.facc ++ (0xB5 : Byte) ≠ s.ses.crc) := by decide

theorem witness_IdleOperationsChangeNothing : start.enc.st = .idle := by decide

theorem witness_DecoderOperationsFrame :
    isDecoderOp (.decPay 5) = true ∧ (∃ t, exec (.decPay 5) (reading .readPayload 0 0 0 0 0) = .next t)
    ∧ (∃ t, exec (.decSync1 5) start = .next t) ∧ (∃ t, exec .decNobyte start = .next t) :=
  ⟨rfl, ⟨_, rfl⟩, ⟨_, rfl⟩, ⟨_, rfl⟩⟩

set_option maxRecDepth 10000 in
/-- Length 0 and length `MAX_LEN`; an empty poll, an encoder step beside each byte. -/
theorem witness_FrameEndsAfterItsBytes :
    (let gs := { rx := .empty } :: deliver [0x03, 0x00, 1, 2];
      let s := { withSes (sesAt .readId 0 0 0xFFFF) with inputs := gs.map .signals };
      s.ses.st = .readId ∧ s.ses.fcnt = 0 ∧ s.cfg.lenOf (joinBytes 0x03 0x00) ≤ s.cfg.maxLen
      ∧ ([1, 2] : List Byte).length = s.cfg.lenOf (joinBytes 0x03 0x00) + 2
      ∧ Feeds s gs (0x03 :: 0x00 :: [1, 2]) ∧ endsWithByte gs)
    ∧ cfg.lenOf (joinBytes 0xFF 0xFF) = cfg.maxLen
    ∧ ([1, 2, 3, 4, 5] : List Byte).length = cfg.lenOf (joinBytes 0xFF 0xFF) + 2 := by decide

theorem witness_FrameIsReceived :
    start.ses.st = .waitSync1 ∧ (Instr.frame 0x0300 [] 0).wellFormed start.cfg = true
    ∧ (Instr.frame 0xFFFF [0xFF, 0xFF, 0xFF] 0).wellFormed start.cfg = true := by decide

theorem witness_FrameBytesMeanSomethingInEveryState :
    Inv (reading .readPayload 1 0 0 0 1) ∧ ∃ t, exec (.frame 0x0300 [] 0) (reading .readPayload 1 0 0 0 1) = .next t :=
  ⟨by decide, _, rfl⟩

set_option maxRecDepth 10000 in
/-- The bytes of a frame of no payload, and one byte left with the Transport. -/
theorem witness_PollIsItsSteps :
    (∃ r, poll false [0xFF, 0xFF, 0x03, 0x00, 0x00, 0x00, 0xFF] start = .next r) ∧ ∃ r, poll false [] start = .next r :=
  ⟨⟨_, rfl⟩, ⟨_, rfl⟩⟩

theorem witness_EmptyPollsDoNotMatter :
    (∃ t, (pending ([{ rx := .empty }, { rx := .byte 0xFF }].map .signals ++ [])).inputs
        = [{ rx := .empty }, { rx := .byte 0xFF }].map .signals ++ []
      ∧ run 2 (pending ([{ rx := .empty }, { rx := .byte 0xFF }].map .signals ++ [])) = .next t)
    ∧ ∃ u, (∀ q ∈ [Input.wire [0xFF, 0xFF], .signals { rx := .empty }, .signals { rx := .byte 3 }], onlyDelivers q = true)
      ∧ feed ([Input.wire [0xFF, 0xFF], .signals { rx := .empty }, .signals { rx := .byte 3 }].flatMap inputBytes)
          (pending []) = .next u := ⟨⟨_, rfl, rfl⟩, _, by decide, rfl⟩

/-- Bytes with a take, ticks while hunting, an encoder start and empty polls among them. -/
def deliverMixed (w : List Byte) : List Signals :=
  { take := true, tick := true, enc := some ⟨true, 7, 3, true⟩ } :: { rx := .empty, tick := true } :: deliver w

set_option maxRecDepth 10000 in
theorem witness_RoundTrip :
    let gs := deliverMixed (frameOf cfg 0x0300 [])
    let s := pending (gs.map .signals)
    s.ses.st = .waitSync1 ∧ ([] : List Byte).length ≤ s.cfg.maxLen ∧ s.cfg.lenOf 0x0300 = ([] : List Byte).length
    ∧ Feeds s gs (frameOf s.cfg 0x0300 []) ∧ endsWithByte gs := by decide

/-- The receiver: the length of id 7 is 1 there, and these signals are pending. -/
def receiver (hs : List Signals) : State :=
  { start with cfg := { cfg with lens := [(7, 1)] }, inputs := hs.map .signals }

set_option maxRecDepth 10000 in
theorem witness_EncodedMessageIsDecoded :
    (Inv (encodeRun encodeAnswers) ∧ (encodeRun encodeAnswers).enc.st = .idle ∧ [0x2A].length ≤ cfg.maxLen
      ∧ (∀ k < [0x2A].length, txCell (encodeRun encodeAnswers) k = ([0x2A] : List Byte)[k]?)
      ∧ startsWith (encodeRun encodeAnswers) encodeAnswers
      ∧ (∀ h ∈ answering encodeAnswers, h.rst = false)
      ∧ (answersIn (answering encodeAnswers)).count true = [0x2A].length + 6
      ∧ endsWithAnswer (answering encodeAnswers) true
      ∧ (answersIn (answering encodeAnswers)).count false ≤ cfg.retryBudget)
    ∧ (∀ hs, (receiver hs).ses.st = .waitSync1 ∧ (receiver hs).cfg.sync = cfg.sync
      ∧ (receiver hs).cfg.crcInit = cfg.crcInit
      ∧ (∀ acc b, crcUpdate (receiver hs).cfg.crcFn acc b = crcUpdate cfg.crcFn acc b)
      ∧ (receiver hs).cfg.lenOf 7 = [0x2A].length ∧ [0x2A].length ≤ (receiver hs).cfg.maxLen)
    ∧ (let hs := deliver (frameOf cfg 7 [0x2A])
      Feeds (receiver hs) hs (frameOf cfg 7 [0x2A]) ∧ endsWithByte hs) :=
  ⟨⟨by decide, by decide⟩, fun _ => ⟨rfl, rfl, rfl, fun _ _ => rfl, rfl, by show 1 ≤ 3; decide⟩, by decide⟩

set_option maxRecDepth 10000 in
/-- The last bit of the CRC field, and the first of the id, flipped. -/
theorem witness_SingleBitErrorIsDetected :
    start.cfg.crcFn = .division 0x1021 ∧ start.ses.st = .waitSync1 ∧ [0x0A, 0x0B].length ≤ start.cfg.maxLen
    ∧ start.cfg.lenOf 0x0102 = [0x0A, 0x0B].length
    ∧ (2 ≤ 7 ∧ 7 < [0x0A, 0x0B].length + 6 ∧ (flipBit (frameOf start.cfg 0x0102 [0x0A, 0x0B]) 7 0)[2]? = some 0x01
      ∧ (flipBit (frameOf start.cfg 0x0102 [0x0A, 0x0B]) 7 0)[3]? = some 0x02
      ∧ start.cfg.lenOf (joinBytes 0x01 0x02) = [0x0A, 0x0B].length)
    ∧ (let c : Config := { cfg with lens := [(0x0102, 2), (0x8102, 2)] };
      (flipBit (frameOf c 0x0102 [0x0A, 0x0B]) 2 7)[2]? = some 0x81
      ∧ (flipBit (frameOf c 0x0102 [0x0A, 0x0B]) 2 7)[3]? = some 0x02
      ∧ c.lenOf (joinBytes 0x81 0x02) = [0x0A, 0x0B].length)
    ∧ (let gs := deliver (flipBit (frameOf cfg 0x0102 [0x0A, 0x0B]) 7 0)
      Feeds (pending (gs.map .signals)) gs (flipBit (frameOf cfg 0x0102 [0x0A, 0x0B]) 7 0) ∧ endsWithByte gs) := by
  decide

set_option maxRecDepth 10000 in
theorem witness_ResyncAfterGarbage :
    (let gs := deliverMixed [0xFF, 0x00, 0xFF, 0x07];
      let s := pending (gs.map .signals);
      s.ses.st = .waitSync1 ∧ noSyncPair s.cfg false [0xFF, 0x00, 0xFF, 0x07] = true
      ∧ Feeds s gs [0xFF, 0x00, 0xFF, 0x07])
    ∧ noSyncPair cfg false [] = true
    ∧ (let gs := deliver ([0xFF, 0x07] ++ frameOf cfg 0x0300 []);
      let s := pending (gs.map .signals);
      noSyncPair s.cfg false [0xFF, 0x07] = true ∧ s.cfg.lenOf 0x0300 = ([] : List Byte).length
      ∧ Feeds s gs ([0xFF, 0x07] ++ frameOf s.cfg 0x0300 []) ∧ endsWithByte gs) := by decide

theorem witness_HuntingAgainWithinOneFrame :
    let gs := deliver (List.replicate 7 0xFF)
    let s := { withSes (sesAt .readId 0 0 0xFFFF) with inputs := gs.map .signals }
    Inv s ∧ gs.map .signals <+: s.inputs ∧ (bytesOf gs).length = 4 + s.cfg.maxLen := by decide

set_option maxRecDepth 10000 in
theorem witness_StraySyncByteMakesAPhantomFrame :
    cfg.lenOf (joinBytes cfg.sync (hiByte 0x0300)) ≤ cfg.maxLen
    ∧ (let gs := deliver ((frameOf cfg 0x0300 []).take 3);
      let s := { withSes (sesAt .waitSync2 0 0 0xFFFF) with inputs := gs.map .signals };
      s.ses.st = .waitSync2 ∧ Feeds s gs ((frameOf s.cfg 0x0300 []).take 3))
    ∧ (let gs := deliver ([0x07] ++ [cfg.sync] ++ (frameOf cfg 0x0300 []).take 3);
      let s := pending (gs.map .signals);
      s.ses.st = .waitSync1 ∧ noSyncPair s.cfg false [0x07] = true
      ∧ Feeds s gs ([0x07] ++ [s.cfg.sync] ++ (frameOf s.cfg 0x0300 []).take 3))
    ∧ (let gs := deliver ([0x07] ++ [cfg.sync, cfg.sync, 0x03, 0x00]);
      let s := pending (gs.map .signals);
      s.cfg.lenOf (joinBytes 0x03 0x00) ≤ s.cfg.maxLen
      ∧ Feeds s gs ([0x07] ++ [s.cfg.sync, s.cfg.sync, 0x03, 0x00])) :=
  ⟨by decide, by decide, by decide, by decide⟩

set_option maxRecDepth 20000 in
theorem witness_ConcreteScenario :
    cfg.Standard ∧ cfg.sync = 0xFF ∧ start.ses.st = .waitSync1 ∧ cfg.lenOf 0x0102 = 2 ∧ 2 ≤ cfg.maxLen
    ∧ joinBytes 0xC2 0xB4 = crcOf cfg [0x01, 0x02, 0x0A, 0x0B]
    ∧ crcOf cfg [0x01, 0x02, 0x0A, 0x0B] ≠ crcOf cfg [0x01, 0x02, 0x0A, 0x0C]
    ∧ (let gs := deliver [0xFF, 0xFF, 0x01, 0x02, 0x0A, 0x0B, 0xC2, 0xB4]
      Feeds (pending (gs.map .signals)) gs [0xFF, 0xFF, 0x01, 0x02, 0x0A, 0x0B, 0xC2, 0xB4] ∧ endsWithByte gs)
    ∧ (let gs := deliver [0xFF, 0xFF, 0x01, 0x02, 0x0A, 0x0C, 0xC2, 0xB4]
      Feeds (pending (gs.map .signals)) gs [0xFF, 0xFF, 0x01, 0x02, 0x0A, 0x0C, 0xC2, 0xB4] ∧ endsWithByte gs) := by
  decide

/-- No limit, hunting, one tick short of the limit, and the limit reached. -/
theorem witness_TickCountsOrTruncates :
    State.reset.cfg.watchdogLimit = none ∧ start.ses.st = .waitSync1
    ∧ (withSes (sesAt .waitSync2 0 0 0)).ses.st = .waitSync2
    ∧ (let s := reading .readPayload 0 0 0 0 0;
      s.cfg.watchdogLimit = some 2 ∧ s.ses.st = .readPayload ∧ ¬ 2 ≤ s.ses.wd + 1)
    ∧ (let s := reading .readCrc 2 0 0 0 1;
      s.cfg.watchdogLimit = some 2 ∧ s.ses.st = .readCrc ∧ 2 ≤ s.ses.wd + 1) := by decide

theorem witness_SystemOperationsFrame :
    (∃ t, exec .sysReset start = .next t) ∧ (∃ t, exec .sysTake start = .next t) ∧ ∃ t, exec .sysTick start = .next t :=
  ⟨⟨_, rfl⟩, ⟨_, rfl⟩, ⟨_, rfl⟩⟩

theorem witness_WatchdogEndsAStalledFrame :
    let s := { reading .readPayload 1 0 0 0 0 with inputs := List.replicate 2 (.signals { tick := true }) ++ [] }
    Inv s ∧ s.cfg.watchdogLimit = some 2 ∧ hunting s.ses.st = false := by decide

/-- A state no run from reset has left, with every kind of input pending that the premises allow. -/
def busy : State :=
  { reading .readPayload 1 0 0 0x3C84 1 with
    ses := ⟨.readPayload, 0, 0, 1, crcOf cfg [0x01, 0x02, 0x0A], 1⟩
    enc := ⟨.payload, 7, 3, 2, 5, 1⟩
    txBuf := [(0, 1), (2, 3)]
    inputs := [.signals { rx := .byte 0x0B, tick := true }, .writeRx 1 [1, 2], .remap [(7, 3)] 0] }

theorem witness_StepKeepsTheInvariant : Inv busy ∧ ∃ t, step busy = .next t := ⟨by decide, _, rfl⟩

theorem witness_NothingIsFatal : Inv busy := by decide

set_option maxRecDepth 10000 in
theorem witness_RunningCrcCoversIdAndPayload :
    Inv busy ∧ DecoderCrcOk busy ∧ (∀ q ∈ busy.inputs.head?, keepsRxBuf q = true) ∧ ∃ t, step busy = .next t := by
  refine ⟨by decide, ⟨by decide, fun _ => ?_⟩, by decide, _, rfl⟩
  rfl

theorem witness_ConfigurationIsConstant :
    (∃ t, step busy = .next t ∧ ∀ lens d, busy.inputs.head? ≠ some (.remap lens d))
    ∧ ∃ t, step (pending [.remap [(7, 3)] 0]) = .next t
      ∧ (pending [.remap [(7, 3)] 0]).inputs.head? = some (.remap [(7, 3)] 0) :=
  ⟨⟨_, rfl, fun _ _ => nofun⟩, _, rfl, rfl⟩

theorem witness_TxStreamOnlyGrows : ∃ t, step busy = .next t := ⟨_, rfl⟩

set_option maxRecDepth 10000 in
theorem witness_NewDataOnlyByAcceptance :
    (let s := { reading .readCrc 2 0x00C2 1 0xC2B4 0 with inputs := [.signals { rx := .byte 0xB4 }] };
      s.rx.status ≠ .newData ∧ next? (step s) (fun t => t.rx.status == .newData) = true)
    ∧ (let s := pending [.wire [0xFF, 0xFF, 0x01, 0x02, 0x0A, 0x0B, 0xC2, 0xB4]];
      s.rx.status ≠ .newData ∧ next? (step s) (fun t => t.rx.status == .newData) = true) := by decide

/-- One state for each stop. -/
theorem witness_WhereTheModelStops :
    (start.ses.st ≠ .waitSync2 ∧ start.ses.st ≠ .readId ∧ start.ses.st ≠ .readPayload ∧ start.ses.st ≠ .readCrc)
    ∧ (withSes (sesAt .readId 0 0 0)).ses.st ≠ .waitSync1
    ∧ (let s := reading .readPayload 3 0 0 0 0; s.ses.st = .readPayload ∧ s.cfg.maxLen ≤ s.ses.cur)
    ∧ (let s := { withSes (sesAt .readId 0 1 0) with cfg := { cfg with lenDefault := 4 } };
      s.ses.st = .readId ∧ s.ses.fcnt ≠ 0 ∧ s.cfg.maxLen < s.cfg.lenOf (shiftIn s.ses.facc 0))
    ∧ (sending .sync1 0 0 0 0 0 []).enc.st ≠ .idle ∧ start.enc.st = .idle ∧ start.cfg.maxLen < 4
    ∧ (let s := sending .payload 0 3 3 0 0 []; s.enc.st = .payload ∧ s.cfg.maxLen ≤ s.enc.cur)
    ∧ (putOp .crcLo = some .encPutCrcLo ∧ start.enc.st ≠ .crcLo) := by decide

end Sys2Proof.Tests
end

section
/-! Statements of 00_scope.md: what a step runs (O5), the independence of the two sides of the block (O8), and the
invariant over every step (O54). -/

namespace Sys2Proof.Machine

/-! ### Selection (R10, R91) -/

/-- With an input pending, a step performs it on the state without it (R10, R37). -/
theorem step_of_inputs_cons {s : State} {q : Input} {rest : List Input} (h : s.inputs = q :: rest) :
    step s = perform q { s with inputs := rest } := by
  simp only [step, h]

/-- With no input pending, a step only clears the outputs (R225, R240). -/
theorem step_of_inputs_nil {s : State} (h : s.inputs = []) : step s = .next s.quiet := by
  simp only [step, h, State.quiet]

/-- A word that selects an operation performs it (R91). -/
theorem runWord_of_decode {w : SelWord} {i : Instr} {s : State} (h : decode s.cfg w = .ok i) :
    runWord w s = exec i s := by
  simp only [runWord, h]

/-- A step of one word is that word's operation, nothing added around it (R10). -/
theorem runWords_singleton (w : SelWord) (s : State) : runWords [w] s = runWord w s :=
  followedBy_quiet (runWord w s)

/-- Wire bytes that form a frame are that frame's operation (R96, R100). -/
theorem perform_wire_of_decode {bytes : List Byte} {i : Instr} {s : State} (h : decode s.cfg (.wire bytes) = .ok i) :
    perform (.wire bytes) s = exec i s := by
  simp only [perform, h]

/-! ### The two sides of the block (R11): what an operation of each reads and writes -/

/-- `s` with the registers the receive side writes, and the outputs, taken from `t`. -/
def State.withReceiveOf (s t : State) : State := { s with ses := t.ses, rx := t.rx, out := t.out }

/-- `s` with the registers the encoder writes, and the outputs, taken from `t`. -/
def State.withEncoderOf (s t : State) : State := { s with enc := t.enc, txStream := t.txStream, out := t.out }

/-- The two states agree in everything the receive side reads. -/
structure SameReceive (s s' : State) : Prop where
  cfg : s'.cfg = s.cfg
  ses : s'.ses = s.ses
  rx : s'.rx = s.rx

/-- The two states agree in everything the encoder reads. -/
structure SameEncoder (s s' : State) : Prop where
  cfg : s'.cfg = s.cfg
  enc : s'.enc = s.enc
  txBuf : s'.txBuf = s.txBuf
  txStream : s'.txStream = s.txStream

/-- `f` works on the receive side alone: what it does is settled there, and it leaves the rest as it is. -/
def OnReceiveSide (f : State → Result) : Prop :=
  ∀ s s' : State, SameReceive s s' → f s' = andThen (f s) fun t => .next (s'.withReceiveOf t)

/-- `f` works on the encoder alone: what it does is settled there, and it leaves the rest as it is. -/
def OnEncoder (f : State → Result) : Prop :=
  ∀ s s' : State, SameEncoder s s' → f s' = andThen (f s) fun t => .next (s'.withEncoderOf t)

theorem OnReceiveSide.next {f : State → Result} (hf : OnReceiveSide f) {s s' t : State} (h : f s = .next t)
    (hs : SameReceive s s') : f s' = .next (s'.withReceiveOf t) := by
  rw [hf s s' hs, h, andThen_next]

theorem OnEncoder.next {f : State → Result} (hf : OnEncoder f) {s s' t : State} (h : f s = .next t)
    (hs : SameEncoder s s') : f s' = .next (s'.withEncoderOf t) := by
  rw [hf s s' hs, h, andThen_next]

/-- The frame of the receive side's operations. -/
theorem OnReceiveSide.frame {f : State → Result} (hf : OnReceiveSide f) {s t : State} (h : f s = .next t) :
    t = s.withReceiveOf t := by
  have hs := hf.next h ⟨rfl, rfl, rfl⟩
  rw [h] at hs
  exact Host.Outcome.next.inj hs

theorem OnReceiveSide.cfg {f : State → Result} (hf : OnReceiveSide f) {s t : State} (h : f s = .next t) :
    t.cfg = s.cfg := by
  rw [hf.frame h]; rfl

/-- The frame of the encoder's operations. -/
theorem OnEncoder.frame {f : State → Result} (hf : OnEncoder f) {s t : State} (h : f s = .next t) :
    t = s.withEncoderOf t := by
  have hs := hf.next h ⟨rfl, rfl, rfl, rfl⟩
  rw [h] at hs
  exact Host.Outcome.next.inj hs

/-! ### The decoder's operations and the system's but reset are on the receive side -/

theorem OnReceiveSide.decNobyte : OnReceiveSide execDecNobyte := by
  rintro s ⟨_, _, _⟩ ⟨rfl, rfl, rfl⟩
  rfl

/-- The guard reads the session's state alone. -/
theorem OnReceiveSide.whenDec {st : DSt} {f : State → Result} (hf : OnReceiveSide f) :
    OnReceiveSide fun s => whenDec st s (f s) := by
  intro s s' h
  simp only [Machine.whenDec, h.ses]
  split
  · exact hf s s' h
  · rfl

theorem OnReceiveSide.decSync1 (b : Byte) : OnReceiveSide (execDecSync1 b) := .whenDec <| by
  rintro s ⟨_, _, _⟩ ⟨rfl, rfl, rfl⟩
  simp only [huntSync1]
  split <;> rfl

theorem OnReceiveSide.decSync2 (b : Byte) : OnReceiveSide (execDecSync2 b) := .whenDec <| by
  rintro s ⟨_, _, _⟩ ⟨rfl, rfl, rfl⟩
  simp only [huntSync1]
  split <;> rfl

theorem OnReceiveSide.decId (b : Byte) : OnReceiveSide (execDecId b) := .whenDec <| by
  rintro s ⟨_, _, _⟩ ⟨rfl, rfl, rfl⟩
  dsimp only
  split
  · rfl
  · simp only [completeId]
    split <;> rfl

theorem OnReceiveSide.decPay (b : Byte) : OnReceiveSide (execDecPay b) := .whenDec <| by
  rintro s ⟨_, _, _⟩ ⟨rfl, rfl, rfl⟩
  dsimp only
  split <;> rfl

theorem OnReceiveSide.decCrc (b : Byte) : OnReceiveSide (execDecCrc b) := .whenDec <| by
  rintro s ⟨_, _, _⟩ ⟨rfl, rfl, rfl⟩
  dsimp only
  split
  · rfl
  · simp only [finishFrame]
    split <;> rfl

theorem OnReceiveSide.sysTake : OnReceiveSide execSysTake := by
  rintro s ⟨_, _, _⟩ ⟨rfl, rfl, rfl⟩
  rfl

theorem OnReceiveSide.sysTick : OnReceiveSide execSysTick := by
  rintro s ⟨_, _, _⟩ ⟨rfl, rfl, rfl⟩
  simp only [execSysTick]
  split
  · rfl
  · split
    · rfl
    · split <;> rfl

/-- A byte step reads its operation off the session's state. -/
theorem OnReceiveSide.byteStep (b : Byte) : OnReceiveSide (byteStep b) := by
  intro s s' h
  simp only [Machine.byteStep, h.ses]
  cases s.ses.st with
  | waitSync1 => exact OnReceiveSide.decSync1 b s s' h
  | waitSync2 => exact OnReceiveSide.decSync2 b s s' h
  | readId => exact OnReceiveSide.decId b s s' h
  | readPayload => exact OnReceiveSide.decPay b s s' h
  | readCrc => exact OnReceiveSide.decCrc b s s' h

theorem OnReceiveSide.feed (bs : List Byte) : OnReceiveSide (feed bs) := by
  induction bs with
  | nil =>
    rintro s ⟨_, _, _⟩ ⟨rfl, rfl, rfl⟩
    rfl
  | cons b bs ih =>
    intro s s' h
    rw [feed_cons, feed_cons, OnReceiveSide.byteStep b s s' h]
    cases hb : Machine.byteStep b s with
    | next t =>
      have hcfg : t.cfg = s.cfg := (OnReceiveSide.byteStep b).cfg hb
      simp only [followedBy, andThen_next, ih t (s'.withReceiveOf t) ⟨h.cfg.trans hcfg.symm, rfl, rfl⟩]
      cases Machine.feed bs t <;> rfl
    | fault f => rfl
    | refused f => rfl

theorem OnReceiveSide.wireFrame (id : Word) (p : List Byte) (crc : Word) : OnReceiveSide (execFrame id p crc) := by
  intro s s' h
  simp only [execFrame, h.cfg]
  exact OnReceiveSide.feed _ s s' h

/-- Every receive operation works on the receive side alone (R11). -/
theorem OnReceiveSide.exec : ∀ {j : Instr}, isReceiveOp j = true → OnReceiveSide (exec j)
  | .decNobyte, _ => .decNobyte
  | .decSync1 b, _ => .decSync1 b
  | .decSync2 b, _ => .decSync2 b
  | .decId b, _ => .decId b
  | .decPay b, _ => .decPay b
  | .decCrc b, _ => .decCrc b
  | .sysTake, _ => .sysTake
  | .sysTick, _ => .sysTick
  | .frame id p crc, _ => .wireFrame id p crc

/-! ### The encoder's operations are on the encoder -/

theorem offeredByte_congr {s s' : State} (h : SameEncoder s s') : offeredByte s' = offeredByte s := by
  simp only [offeredByte, txCell, h.cfg, h.enc, h.txBuf]

theorem OnEncoder.start (id : Word) (len : Nat) : OnEncoder (execEncStart id len) := by
  rintro s ⟨_, _, _⟩ ⟨rfl, rfl, rfl, rfl⟩
  simp only [execEncStart]
  split
  · split <;> rfl
  · rfl

theorem OnEncoder.nop : OnEncoder execEncNop := by
  rintro s ⟨_, _, _⟩ ⟨rfl, rfl, rfl, rfl⟩
  simp only [execEncNop]
  split <;> rfl

/-- A put is on the encoder when its own update reads and writes nothing else: the byte offered comes from there. -/
theorem OnEncoder.whenPut {st : ESt} {k : Byte → State → State}
    (hk : ∀ (b : Byte) (s r : State),
      k b { r with cfg := s.cfg, enc := s.enc, txBuf := s.txBuf, txStream := s.txStream }
        = State.withEncoderOf { r with cfg := s.cfg, txBuf := s.txBuf } (k b s)) :
    OnEncoder fun s => whenPut st s k := by
  intro s s' h
  have hoff := offeredByte_congr h
  obtain ⟨_, x, m, _, _, _, ins, o⟩ := s'
  obtain ⟨rfl, rfl, rfl, rfl⟩ := h
  simp only [Machine.whenPut, hoff]
  split
  · cases offeredByte s with
    | none => rfl
    | some b =>
      exact congrArg Host.Outcome.next
        (hk b { s with txStream := s.txStream ++ [b] } { s with ses := x, rx := m, inputs := ins, out := o })
  · rfl

theorem OnEncoder.putSync1 : OnEncoder execEncPutSync1 := .whenPut fun _ _ _ => rfl
theorem OnEncoder.putSync2 : OnEncoder execEncPutSync2 := .whenPut fun _ _ _ => rfl
theorem OnEncoder.putIdHi : OnEncoder execEncPutIdHi := .whenPut fun _ _ _ => rfl
theorem OnEncoder.putIdLo : OnEncoder execEncPutIdLo := .whenPut fun _ _ _ => rfl
theorem OnEncoder.putPay : OnEncoder execEncPutPay := .whenPut fun _ _ _ => rfl
theorem OnEncoder.putCrcHi : OnEncoder execEncPutCrcHi := .whenPut fun _ _ _ => rfl
theorem OnEncoder.putCrcLo : OnEncoder execEncPutCrcLo := .whenPut fun _ _ _ => rfl

theorem OnEncoder.decline : OnEncoder execEncDecline := by
  intro s s' h
  have hoff := offeredByte_congr h
  obtain ⟨_, _, _⟩ := s'
  obtain ⟨rfl, rfl, rfl, rfl⟩ := h
  simp only [execEncDecline, hoff]
  split
  · rfl
  · cases offeredByte s with
    | none => rfl
    | some b => dsimp only; split <;> rfl

/-- Every encoder operation works on the encoder alone (R11). -/
theorem OnEncoder.exec : ∀ {i : Instr}, isEncoderOp i = true → OnEncoder (exec i)
  | .encNop, _ => .nop
  | .encStart id len, _ => .start id len
  | .encPutSync1, _ => .putSync1
  | .encPutSync2, _ => .putSync2
  | .encPutIdHi, _ => .putIdHi
  | .encPutIdLo, _ => .putIdLo
  | .encPutPay, _ => .putPay
  | .encPutCrcHi, _ => .putCrcHi
  | .encPutCrcLo, _ => .putCrcLo
  | .encDecline, _ => .decline

/-! ### The two sides commute (R11, R175) -/

theorem OnEncoder.comm_receive {f g : State → Result} (hf : OnEncoder f) (hg : OnReceiveSide g) {s t u : State}
    (ht : f s = .next t) (hu : g t = .next u) :
    ∃ t' u', g s = .next t' ∧ f t' = .next u' ∧ u'.quiet = u.quiet := by
  have hft := hf.frame ht
  have hgu := hg.frame hu
  refine ⟨s.withReceiveOf u, _, hg.next hu ?_, hf.next ht ⟨rfl, rfl, rfl, rfl⟩, ?_⟩
  · rw [hft]; exact ⟨rfl, rfl, rfl⟩
  · rw [hgu, hft]; rfl

theorem OnReceiveSide.comm_encoder {f g : State → Result} (hg : OnReceiveSide g) (hf : OnEncoder f) {s t u : State}
    (ht : g s = .next t) (hu : f t = .next u) :
    ∃ t' u', f s = .next t' ∧ g t' = .next u' ∧ u'.quiet = u.quiet := by
  have hgt := hg.frame ht
  have hfu := hf.frame hu
  refine ⟨s.withEncoderOf u, _, hf.next hu ?_, hg.next ht ⟨rfl, rfl, rfl⟩, ?_⟩
  · rw [hgt]; exact ⟨rfl, rfl, rfl, rfl⟩
  · rw [hfu, hgt]; rfl

/-! ### The invariant of the receive side (R22, R23, R25, R26, R60, R154) -/

/-- The part of `Inv` that speaks of the session and the RX message. -/
structure ReceiveOk (c : Config) (x : Session) (m : RxMessage) : Prop where
  huntingInit : hunting x.st = true → x = { Session.init c with st := x.st }
  faccZero : x.fcnt = 0 → x.facc = 0
  fcntOne : x.fcnt = 1 → x.st = .readId ∨ x.st = .readCrc
  curInside : x.st = .readPayload → x.cur < m.len
  curAtEnd : x.st = .readCrc → x.cur = m.len
  noFlags : hunting x.st = false → m.status = .noFlags
  lenLe : m.len ≤ c.maxLen
  wdUnused : c.watchdogLimit = none → x.wd = 0
  wdBelow : ∀ limit ∈ c.watchdogLimit, x.wd < (limit : Nat)
  curFits : c.fitsLen x.cur
  bufWf : m.buf.wf
  bufInside : ∀ e ∈ m.buf, e.1 < c.maxLen

/-- The part of `Inv` that speaks of the encoder and TXBUF. -/
structure TransmitOk (c : Config) (e : Encoder) (m : Memory) : Prop where
  lenLe : e.len ≤ c.maxLen
  retryLe : e.retry ≤ c.retryBudget
  curInside : e.st = .payload → e.cur < e.len
  curAtEnd : e.st = .crcHi ∨ e.st = .crcLo → e.cur = e.len
  started : e.st = .sync1 ∨ e.st = .sync2 ∨ e.st = .idHi → e.cur = 0 ∧ e.crc = c.crcInit
  curZero : e.st = .idLo → e.cur = 0
  curFits : c.fitsLen e.cur
  bufWf : m.wf
  bufInside : ∀ e ∈ m, e.1 < c.maxLen

/-- The invariant by the two sides of the block. -/
theorem inv_iff (s : State) :
    Inv s ↔ s.cfg.Wf ∧ ReceiveOk s.cfg s.ses s.rx ∧ TransmitOk s.cfg s.enc s.txBuf
      ∧ ∀ q ∈ s.inputs, inputOk s.cfg q = true := by
  constructor
  · rintro ⟨hwf, ⟨h1, h2, h3, h4, h5, h6, h7, h8, h9⟩, ⟨g1, g2, g3, g4, g5, g6⟩, ⟨w1, -, -, w4⟩, ⟨b1, b2, b3, b4⟩,
      hin⟩
    exact ⟨hwf, ⟨h1, h2, h3, h4, h5, h6, h7, h8, h9, w1, b1, b3⟩, ⟨g1, g2, g3, g4, g5, g6, w4, b2, b4⟩, hin⟩
  · rintro ⟨hwf, h, g, hin⟩
    exact ⟨hwf,
      ⟨h.huntingInit, h.faccZero, h.fcntOne, h.curInside, h.curAtEnd, h.noFlags, h.lenLe, h.wdUnused, h.wdBelow⟩,
      ⟨g.lenLe, g.retryLe, g.curInside, g.curAtEnd, g.started, g.curZero⟩,
      ⟨h.curFits, fitsLen_of_le h.lenLe, fitsLen_of_le g.lenLe, g.curFits⟩,
      ⟨h.bufWf, g.bufWf, h.bufInside, g.bufInside⟩, hin⟩

section
variable {c : Config} {x : Session} {m : RxMessage}

/-- A hunting session meets its invariants beside any message of legal length (R26). -/
theorem ReceiveOk.of_hunting (h : ReceiveOk c x m) {st : DSt} (hst : hunting st = true) (m' : RxMessage)
    (hlen : m'.len ≤ c.maxLen) (hbuf : m'.buf = m.buf) : ReceiveOk c { Session.init c with st := st } m' where
  huntingInit := fun _ => rfl
  faccZero := fun _ => rfl
  fcntOne := nofun
  curInside := fun hp => by subst hp; simp at hst
  curAtEnd := fun hp => by subst hp; simp at hst
  noFlags := fun hp => absurd (hst.symm.trans hp) (by decide)
  lenLe := hlen
  wdUnused := fun _ => rfl
  wdBelow := fun limit _ => limit.pos
  curFits := fitsLen_of_le (Nat.zero_le _)
  bufWf := hbuf ▸ h.bufWf
  bufInside := hbuf ▸ h.bufInside

/-- Moving between the hunting states keeps the session's initial values (R26, R142). -/
theorem ReceiveOk.rehunt (h : ReceiveOk c x m) (hx : hunting x.st = true) {st : DSt} (hst : hunting st = true) :
    ReceiveOk c { x with st := st } m := by
  rw [h.huntingInit hx]
  exact h.of_hunting hst m h.lenLe rfl

/-- Clearing the status keeps the invariant (R172). -/
theorem ReceiveOk.noStatus (h : ReceiveOk c x m) : ReceiveOk c x { m with status := .noFlags } :=
  { h with noFlags := fun _ => rfl }

/-- The sync pair starts a transaction (R142). -/
theorem ReceiveOk.startId (h : ReceiveOk c x m) (acc : Word) :
    ReceiveOk c { x with st := .readId, facc := 0, fcnt := 0, crc := acc, wd := 0 } { m with status := .noFlags } where
  huntingInit := nofun
  faccZero := fun _ => rfl
  fcntOne := nofun
  curInside := nofun
  curAtEnd := nofun
  noFlags := fun _ => rfl
  lenLe := h.lenLe
  wdUnused := fun _ => rfl
  wdBelow := fun limit _ => limit.pos
  curFits := h.curFits
  bufWf := h.bufWf
  bufInside := h.bufInside

/-- The first byte of a two-byte field: the field's count goes to one (R143, R145). -/
theorem ReceiveOk.firstByte (h : ReceiveOk c x m) (hst : x.st = .readId ∨ x.st = .readCrc) (facc acc : Word) :
    ReceiveOk c { x with crc := acc, facc := facc, fcnt := 1 } m :=
  { h with
    huntingInit := fun hh => by rcases hst with hst | hst <;> simp [hst] at hh
    faccZero := nofun
    fcntOne := fun _ => hst }

/-- The id is complete: the length is latched and the cursor starts at 0 (R143). -/
theorem ReceiveOk.completeId (h : ReceiveOk c x m) (hst : x.st = .readId) (acc id : Word) {n : Nat}
    (hn : n ≤ c.maxLen) :
    ReceiveOk c
      { x with crc := acc, facc := 0, fcnt := 0, cur := 0, st := if n = 0 then .readCrc else .readPayload }
      { m with id := id, len := n } where
  huntingInit := fun hh => by split at hh <;> simp at hh
  faccZero := fun _ => rfl
  fcntOne := nofun
  curInside := fun hp => by
    rcases Nat.eq_zero_or_pos n with rfl | hpos
    · simp at hp
    · exact hpos
  curAtEnd := fun hp => by
    by_cases h0 : n = 0
    · exact h0.symm
    · simp [h0] at hp
  noFlags := fun _ => h.noFlags (by rw [hst]; rfl)
  lenLe := hn
  wdUnused := h.wdUnused
  wdBelow := h.wdBelow
  curFits := fitsLen_of_le (Nat.zero_le _)
  bufWf := h.bufWf
  bufInside := h.bufInside

/-- A payload byte: the cursor moves on, to at most the length (R144, R154). -/
theorem ReceiveOk.payload (h : ReceiveOk c x m) (hst : x.st = .readPayload) (hcur : x.cur < c.maxLen) (acc : Word)
    (b : Byte) :
    ReceiveOk c
      { x with crc := acc, cur := x.cur + 1, st := if x.cur + 1 = m.len then .readCrc else .readPayload }
      { m with buf := m.buf.store x.cur b } where
  huntingInit := fun hh => by split at hh <;> simp at hh
  faccZero := h.faccZero
  fcntOne := fun hf => by simpa [hst] using h.fcntOne hf
  curInside := fun hp => by
    have hlt : x.cur < m.len := h.curInside hst
    by_cases he : x.cur + 1 = m.len
    · simp [he] at hp
    · exact Nat.lt_of_le_of_ne hlt he
  curAtEnd := fun hp => by
    by_cases he : x.cur + 1 = m.len
    · exact he
    · simp [he] at hp
  noFlags := fun _ => h.noFlags (by rw [hst]; rfl)
  lenLe := h.lenLe
  wdUnused := h.wdUnused
  wdBelow := h.wdBelow
  curFits := fitsLen_of_le hcur
  bufWf := store_wf h.bufWf _ _
  bufInside := fun e he => by
    rcases mem_store he with rfl | he
    · exact hcur
    · exact h.bufInside e he

/-- A tick that counts leaves the counter below the limit (R173). -/
theorem ReceiveOk.count (h : ReceiveOk c x m) (hx : hunting x.st = false) {limit : PNat}
    (hl : c.watchdogLimit = some limit) (hwd : x.wd + 1 < limit) : ReceiveOk c { x with wd := x.wd + 1 } m :=
  { h with
    huntingInit := fun hh => absurd (hx.symm.trans hh) (by decide)
    wdUnused := fun hn => absurd (hl.symm.trans hn) nofun
    wdBelow := fun l hm => by
      obtain rfl : limit = l := Option.some.inj (hl.symm.trans hm)
      exact hwd }

end

/-! ### Every receive operation keeps it -/

/-- `f` keeps the receive side's part of the invariant. -/
def KeepsReceiveOk (f : State → Result) : Prop :=
  ∀ s t : State, ReceiveOk s.cfg s.ses s.rx → f s = .next t → ReceiveOk t.cfg t.ses t.rx

theorem huntSync1_receiveOk {s : State} (h : ReceiveOk s.cfg s.ses s.rx) (hst : hunting s.ses.st = true) (b : Byte) :
    ReceiveOk (huntSync1 b s).cfg (huntSync1 b s).ses (huntSync1 b s).rx := by
  unfold huntSync1
  split
  · exact h.rehunt hst rfl
  · exact h.rehunt hst rfl

theorem KeepsReceiveOk.decNobyte : KeepsReceiveOk execDecNobyte := by
  rintro s _ h ⟨⟩
  exact h

theorem KeepsReceiveOk.decSync1 (b : Byte) : KeepsReceiveOk (execDecSync1 b) := by
  intro s t h ht
  obtain ⟨hst, ⟨⟩⟩ := whenDec_eq_next.1 ht
  exact huntSync1_receiveOk h (by rw [hst]; rfl) b

theorem KeepsReceiveOk.decSync2 (b : Byte) : KeepsReceiveOk (execDecSync2 b) := by
  intro s t h ht
  obtain ⟨hst, ⟨⟩⟩ := whenDec_eq_next.1 ht
  split
  · exact h.startId _
  · exact huntSync1_receiveOk h (by rw [hst]; rfl) b

theorem KeepsReceiveOk.decId (b : Byte) : KeepsReceiveOk (execDecId b) := by
  intro s t h ht
  obtain ⟨hst, ht⟩ := whenDec_eq_next.1 ht
  split at ht
  · cases ht
    exact h.firstByte (.inl hst) _ _
  · simp only [completeId] at ht
    split at ht
    · next hn =>
      cases ht
      exact h.completeId hst _ _ hn
    · cases ht

theorem KeepsReceiveOk.decPay (b : Byte) : KeepsReceiveOk (execDecPay b) := by
  intro s t h ht
  obtain ⟨hst, ht⟩ := whenDec_eq_next.1 ht
  split at ht
  · next hcur =>
    cases ht
    exact h.payload hst hcur _ b
  · cases ht

theorem finishFrame_receiveOk {s : State} (h : ReceiveOk s.cfg s.ses s.rx) (b : Byte) :
    ReceiveOk (finishFrame b s).cfg (finishFrame b s).ses (finishFrame b s).rx := by
  simp only [finishFrame]
  split
  · exact h.of_hunting rfl _ h.lenLe rfl
  · exact h.of_hunting rfl _ h.lenLe rfl

theorem KeepsReceiveOk.decCrc (b : Byte) : KeepsReceiveOk (execDecCrc b) := by
  intro s t h ht
  obtain ⟨hst, ⟨⟩⟩ := whenDec_eq_next.1 ht
  split
  · exact h.firstByte (.inr hst) _ _
  · exact finishFrame_receiveOk h b

theorem KeepsReceiveOk.sysTake : KeepsReceiveOk execSysTake := by
  rintro s _ h ⟨⟩
  exact h.noStatus

theorem KeepsReceiveOk.sysTick : KeepsReceiveOk execSysTick := by
  intro s t h ht
  simp only [execSysTick] at ht
  split at ht
  · cases ht; exact h
  · next limit hl =>
    split at ht
    · cases ht; exact h
    · next hx =>
      split at ht
      · cases ht; exact h.of_hunting rfl _ h.lenLe rfl
      · next hwd =>
        cases ht
        exact h.count (Bool.not_eq_true _ ▸ hx) hl (Nat.not_le.1 hwd)

theorem KeepsReceiveOk.byteStep (b : Byte) : KeepsReceiveOk (byteStep b) := by
  intro s t h ht
  unfold Machine.byteStep at ht
  split at ht
  · exact KeepsReceiveOk.decSync1 b s t h ht
  · exact KeepsReceiveOk.decSync2 b s t h ht
  · exact KeepsReceiveOk.decId b s t h ht
  · exact KeepsReceiveOk.decPay b s t h ht
  · exact KeepsReceiveOk.decCrc b s t h ht

theorem KeepsReceiveOk.feed (bs : List Byte) : KeepsReceiveOk (feed bs) := by
  induction bs with
  | nil => rintro s _ h ⟨⟩; exact h
  | cons b bs ih =>
    intro s t h ht
    obtain ⟨u, v, hu, hv, rfl⟩ := followedBy_eq_next.1 ht
    exact ih u v (KeepsReceiveOk.byteStep b s u h hu) hv

theorem KeepsReceiveOk.exec : ∀ {j : Instr}, isReceiveOp j = true → KeepsReceiveOk (exec j)
  | .decNobyte, _ => .decNobyte
  | .decSync1 b, _ => .decSync1 b
  | .decSync2 b, _ => .decSync2 b
  | .decId b, _ => .decId b
  | .decPay b, _ => .decPay b
  | .decCrc b, _ => .decCrc b
  | .sysTake, _ => .sysTake
  | .sysTick, _ => .sysTick
  | .frame id p crc, _ => fun s t h ht => KeepsReceiveOk.feed (frameBytes s.cfg id p crc) s t h ht

/-! ### The encoder's operations -/

section
variable {c : Config} {e : Encoder} {m : Memory}

/-- An idle encoder meets its invariants with whatever its other registers hold (R129, R130). -/
theorem TransmitOk.idle (h : TransmitOk c e m) : TransmitOk c { e with st := .idle } m :=
  { h with curInside := nofun, curAtEnd := nofun, started := nofun, curZero := nofun }

theorem TransmitOk.start (h : TransmitOk c e m) (id : Word) {len : Nat} (hlen : len ≤ c.maxLen) :
    TransmitOk c { st := .sync1, id := id, len := len, cur := 0, crc := c.crcInit, retry := 0 } m where
  lenLe := hlen
  retryLe := Nat.zero_le _
  curInside := nofun
  curAtEnd := nofun
  started := fun _ => ⟨rfl, rfl⟩
  curZero := nofun
  curFits := fitsLen_of_le (Nat.zero_le _)
  bufWf := h.bufWf
  bufInside := h.bufInside

/-- Before the first folded byte the encoder may move on to any state that asks for no more (R123, R124). -/
theorem TransmitOk.head (h : TransmitOk c e m) (hst : e.st = .sync1 ∨ e.st = .sync2) {st : ESt}
    (hst' : st = .sync2 ∨ st = .idHi) : TransmitOk c { e with st := st } m where
  lenLe := h.lenLe
  retryLe := h.retryLe
  curInside := fun hp => by rcases hst' with rfl | rfl <;> cases hp
  curAtEnd := fun hp => by rcases hst' with rfl | rfl <;> simp at hp
  started := fun _ => h.started (hst.imp_right .inl)
  curZero := fun hp => by rcases hst' with rfl | rfl <;> cases hp
  curFits := h.curFits
  bufWf := h.bufWf
  bufInside := h.bufInside

theorem TransmitOk.idHi (h : TransmitOk c e m) (hst : e.st = .idHi) (acc : Word) :
    TransmitOk c { e with crc := acc, st := .idLo } m :=
  { h with
    curInside := nofun, curAtEnd := nofun, started := nofun
    curZero := fun _ => (h.started (.inr (.inr hst))).1 }

/-- After the id the cursor is 0: at the end of an empty payload, inside any other (R126). -/
theorem TransmitOk.idLo (h : TransmitOk c e m) (hst : e.st = .idLo) (acc : Word) :
    TransmitOk c { e with crc := acc, st := if e.len = 0 then .crcHi else .payload } m :=
  { h with
    curInside := fun hp => by
      by_cases h0 : e.len = 0
      · simp [h0] at hp
      · exact (h.curZero hst).trans_lt (Nat.pos_of_ne_zero h0)
    curAtEnd := fun hp => by
      by_cases h0 : e.len = 0
      · exact (h.curZero hst).trans h0.symm
      · simp [h0] at hp
    started := fun hp => by split at hp <;> simp at hp
    curZero := fun hp => by split at hp <;> simp at hp }

/-- A payload byte sent: the cursor moves on, to at most the length (R127, R62). -/
theorem TransmitOk.payload (h : TransmitOk c e m) (hst : e.st = .payload) (acc : Word) :
    TransmitOk c { e with crc := acc, cur := e.cur + 1, st := if e.cur + 1 = e.len then .crcHi else .payload } m :=
  have hlt : e.cur < e.len := h.curInside hst
  { h with
    curInside := fun hp => by
      by_cases he : e.cur + 1 = e.len
      · simp [he] at hp
      · exact Nat.lt_of_le_of_ne hlt he
    curAtEnd := fun hp => by
      by_cases he : e.cur + 1 = e.len
      · exact he
      · simp [he] at hp
    started := fun hp => by split at hp <;> simp at hp
    curZero := fun hp => by split at hp <;> simp at hp
    curFits := fitsLen_of_le (Nat.le_trans hlt h.lenLe) }

theorem TransmitOk.crcHi (h : TransmitOk c e m) (hst : e.st = .crcHi) : TransmitOk c { e with st := .crcLo } m :=
  { h with curInside := nofun, curAtEnd := fun _ => h.curAtEnd (.inl hst), started := nofun, curZero := nofun }

/-- A declined byte inside the budget costs one unit of it (R130). -/
theorem TransmitOk.retry (h : TransmitOk c e m) (hr : e.retry < c.retryBudget) :
    TransmitOk c { e with retry := e.retry + 1 } m :=
  { h with retryLe := hr }

end

/-- `f` keeps the encoder's part of the invariant. -/
def KeepsTransmitOk (f : State → Result) : Prop :=
  ∀ s t : State, TransmitOk s.cfg s.enc s.txBuf → f s = .next t → TransmitOk t.cfg t.enc t.txBuf

theorem KeepsTransmitOk.nop : KeepsTransmitOk execEncNop := by
  intro s t h ht
  simp only [execEncNop] at ht
  split at ht
  · cases ht; exact h
  · cases ht

theorem KeepsTransmitOk.start (id : Word) (len : Nat) : KeepsTransmitOk (execEncStart id len) := by
  intro s t h ht
  simp only [execEncStart] at ht
  split at ht
  · split at ht
    · next hlen => cases ht; exact h.start id hlen
    · cases ht
  · cases ht

/-- A put keeps the encoder's invariant when its own update does in the state that selects it. -/
theorem KeepsTransmitOk.whenPut {st : ESt} {k : Byte → State → State}
    (hk : ∀ b s, s.enc.st = st → TransmitOk s.cfg s.enc s.txBuf → TransmitOk (k b s).cfg (k b s).enc (k b s).txBuf) :
    KeepsTransmitOk fun s => whenPut st s k := by
  intro s t h ht
  obtain ⟨hst, b, -, rfl⟩ := whenPut_eq_next.1 ht
  exact hk b { s with txStream := s.txStream ++ [b] } hst h

theorem KeepsTransmitOk.putSync1 : KeepsTransmitOk execEncPutSync1 :=
  .whenPut fun _ _ hst h => h.head (.inl hst) (.inl rfl)

theorem KeepsTransmitOk.putSync2 : KeepsTransmitOk execEncPutSync2 :=
  .whenPut fun _ _ hst h => h.head (.inr hst) (.inr rfl)

theorem KeepsTransmitOk.putIdHi : KeepsTransmitOk execEncPutIdHi :=
  .whenPut fun _ _ hst h => h.idHi hst _

theorem KeepsTransmitOk.putIdLo : KeepsTransmitOk execEncPutIdLo :=
  .whenPut fun _ _ hst h => h.idLo hst _

theorem KeepsTransmitOk.putPay : KeepsTransmitOk execEncPutPay :=
  .whenPut fun _ _ hst h => h.payload hst _

theorem KeepsTransmitOk.putCrcHi : KeepsTransmitOk execEncPutCrcHi :=
  .whenPut fun _ _ hst h => h.crcHi hst

theorem KeepsTransmitOk.putCrcLo : KeepsTransmitOk execEncPutCrcLo :=
  .whenPut fun _ _ _ h => h.idle

theorem KeepsTransmitOk.decline : KeepsTransmitOk execEncDecline := by
  intro s t h ht
  simp only [execEncDecline] at ht
  split at ht
  · cases ht
  · split at ht
    · cases ht
    · split at ht
      · next hr => cases ht; exact h.retry hr
      · cases ht; exact h.idle

theorem KeepsTransmitOk.exec : ∀ {i : Instr}, isEncoderOp i = true → KeepsTransmitOk (exec i)
  | .encNop, _ => .nop
  | .encStart id len, _ => .start id len
  | .encPutSync1, _ => .putSync1
  | .encPutSync2, _ => .putSync2
  | .encPutIdHi, _ => .putIdHi
  | .encPutIdLo, _ => .putIdLo
  | .encPutPay, _ => .putPay
  | .encPutCrcHi, _ => .putCrcHi
  | .encPutCrcLo, _ => .putCrcLo
  | .encDecline, _ => .decline

/-! ### The invariant over a whole step -/

/-- `f` keeps the machine's invariant. -/
def KeepsInv (f : State → Result) : Prop := ∀ s t : State, Inv s → f s = .next t → Inv t

/-- What works on the receive side alone and keeps its part keeps the whole. -/
theorem KeepsInv.of_receive {f : State → Result} (hf : OnReceiveSide f) (hk : KeepsReceiveOk f) : KeepsInv f := by
  intro s t hs ht
  obtain ⟨hwf, hr, he, hin⟩ := (inv_iff s).1 hs
  have hr' := hk s t hr ht
  rw [hf.frame ht] at hr' ⊢
  exact (inv_iff _).2 ⟨hwf, hr', he, hin⟩

/-- What works on the encoder alone and keeps its part keeps the whole. -/
theorem KeepsInv.of_encoder {f : State → Result} (hf : OnEncoder f) (hk : KeepsTransmitOk f) : KeepsInv f := by
  intro s t hs ht
  obtain ⟨hwf, hr, he, hin⟩ := (inv_iff s).1 hs
  have he' := hk s t he ht
  rw [hf.frame ht] at he' ⊢
  exact (inv_iff _).2 ⟨hwf, hr, he', hin⟩

theorem KeepsInv.receiveOp {j : Instr} (hj : isReceiveOp j = true) : KeepsInv (exec j) :=
  .of_receive (.exec hj) (.exec hj)

theorem KeepsInv.encoderOp {i : Instr} (hi : isEncoderOp i = true) : KeepsInv (exec i) :=
  .of_encoder (.exec hi) (.exec hi)

theorem KeepsInv.feed (bs : List Byte) : KeepsInv (feed bs) := .of_receive (.feed bs) (.feed bs)

theorem KeepsInv.sysReset : KeepsInv execSysReset := by
  rintro s _ hs ⟨⟩
  obtain ⟨hwf, hr, he, hin⟩ := (inv_iff s).1 hs
  have hr' := hr.of_hunting (st := .waitSync1) rfl { s.rx with id := 0, len := 0, status := .noFlags }
    (Nat.zero_le _) rfl
  have he' := (he.start 0 (Nat.zero_le _)).idle
  exact (inv_iff _).2 ⟨hwf, hr', he', hin⟩

/-! ### What a word can select (R92 to R96) -/

theorem isReceiveOp_decOp (st : DSt) (b : Byte) : isReceiveOp (decOp st b) = true := by cases st <;> rfl

theorem isEncoderOp_of_putOp {st : ESt} {put : Instr} (h : putOp st = some put) : isEncoderOp put = true := by
  cases st <;> cases h <;> rfl

theorem isReceiveOp_of_decodeDec {w : BitVec 12} {i : Instr} (h : decodeDec w = .ok i) : isReceiveOp i = true := by
  unfold decodeDec at h
  split at h
  · split at h
    · cases h; exact isReceiveOp_decOp _ _
    · cases h
  · cases h; rfl

theorem isEncoderOp_of_decodeEnc {w : BitVec 6} {id : Word} {len : Nat} {i : Instr} (h : decodeEnc w id len = .ok i) :
    isEncoderOp i = true := by
  unfold decodeEnc at h
  split at h
  · cases h
  · split at h
    · split at h <;> cases h <;> rfl
    · next hput =>
      split at h <;> cases h
      · exact isEncoderOp_of_putOp hput
      · rfl

theorem decodeSys_eq_ok {w : BitVec 3} {i : Instr} (h : decodeSys w = .ok i) :
    isReceiveOp i = true ∨ i = .sysReset := by
  unfold decodeSys at h
  split at h
  · cases h; exact .inr rfl
  · split at h
    · cases h; exact .inl rfl
    · split at h <;> cases h
      exact .inl rfl

theorem decodeWire_eq_ok {c : Config} {bytes : List Byte} {i : Instr} (h : decodeWire c bytes = .ok i) :
    ∃ id p crc, i = .frame id p crc := by
  unfold decodeWire at h
  split at h
  · split at h
    · split at h <;> cases h
      exact ⟨_, _, _, rfl⟩
    · cases h
  · cases h

/-- Every word but a CRC word selects an operation of the encoder or of the receive side, or reset. -/
theorem decode_agent {c : Config} {w : SelWord} {i : Instr} (hw : ∀ v u, w ≠ .crc v u) (h : decode c w = .ok i) :
    isEncoderOp i = true ∨ isReceiveOp i = true ∨ i = .sysReset := by
  cases w with
  | dec v => exact .inr (.inl (isReceiveOp_of_decodeDec h))
  | enc v id len => exact .inl (isEncoderOp_of_decodeEnc h)
  | sys v => exact .inr (decodeSys_eq_ok h)
  | crc v u => exact absurd rfl (hw v u)
  | wire bytes =>
    obtain ⟨id, p, crc, rfl⟩ := decodeWire_eq_ok h
    exact .inr (.inl rfl)

theorem KeepsInv.runWord {w : SelWord} (hw : ∀ v u, w ≠ .crc v u) : KeepsInv (runWord w) := by
  intro s t hs ht
  unfold Machine.runWord at ht
  split at ht
  · next i hdec =>
    obtain hi | hi | rfl := decode_agent hw hdec
    · exact KeepsInv.encoderOp hi s t hs ht
    · exact KeepsInv.receiveOp hi s t hs ht
    · exact KeepsInv.sysReset s t hs ht
  · cases ht

theorem KeepsInv.runWords {ws : List SelWord} (hws : ∀ w ∈ ws, ∀ v u, w ≠ .crc v u) : KeepsInv (runWords ws) := by
  induction ws with
  | nil => rintro s _ hs ⟨⟩; exact hs
  | cons w ws ih =>
    intro s t hs ht
    obtain ⟨u, v, hu, hv, rfl⟩ := followedBy_eq_next.1 ht
    have hsu := KeepsInv.runWord (hws w List.mem_cons_self) s u hs hu
    exact ih (fun w hw => hws w (List.mem_cons_of_mem _ hw)) u v hsu hv

/-- Signals form no CRC word (R95). -/
theorem ne_crc_of_mem_selectWords {g : Signals} {s : State} {w : SelWord} (h : w ∈ selectWords g s) (v : BitVec 9)
    (u : CrcUser) : w ≠ .crc v u := by
  rintro rfl
  unfold selectWords at h
  split at h
  · simp [sysWord] at h
  · obtain ((h | h) | h) | h := by simpa only [List.mem_append] using h
    · split at h <;> simp [sysWord] at h
    · cases hrx : g.rx <;> simp [hrx, decWords] at h
    · split at h <;> simp [sysWord] at h
    · cases henc : g.enc <;> simp [henc, encWords] at h

/-- The Caller's writes to TXBUF keep the invariant (R244). -/
theorem Inv.callerWriteTx {i : Nat} {bytes : List Byte} {s t : State} (hs : Inv s)
    (ht : callerWriteTx i bytes s = .next t) : Inv t := by
  obtain ⟨hwf, hr, he, hin⟩ := (inv_iff s).1 hs
  obtain ⟨hfr, hbuf, hinside⟩ := callerWriteTx_next ht
  rw [hfr]
  exact (inv_iff _).2 ⟨hwf, hr, { he with bufWf := hbuf he.bufWf, bufInside := hinside he.bufInside }, hin⟩

/-- The Caller's writes to RXBUF keep the invariant (R244). -/
theorem Inv.callerWriteRx {i : Nat} {bytes : List Byte} {s t : State} (hs : Inv s)
    (ht : callerWriteRx i bytes s = .next t) : Inv t := by
  obtain ⟨hwf, hr, he, hin⟩ := (inv_iff s).1 hs
  obtain ⟨hfr, hbuf, hinside⟩ := callerWriteRx_next ht
  rw [hfr]
  exact (inv_iff _).2 ⟨hwf, { hr with bufWf := hbuf hr.bufWf, bufInside := hinside hr.bufInside }, he, hin⟩

/-- A change of the mapping that answers within `MAX_LEN` keeps the invariant (R174, R244). -/
theorem Inv.remap {s : State} (hs : Inv s) {lens : List (Word × Nat)} {d : Nat} (hl : lensWithin s.cfg.maxLen lens d) :
    Inv { s with cfg := { s.cfg with lens := lens, lenDefault := d } } := by
  obtain ⟨-, hses, henc, hwidth, hbuf, hin⟩ := hs
  exact ⟨hl, hses, henc, hwidth, hbuf, hin⟩

/-- An input that meets the Caller's premises keeps the invariant. -/
theorem Inv.perform {q : Input} {s t : State} (hs : Inv s) (hok : inputOk s.cfg q = true)
    (ht : perform q s = .next t) : Inv t := by
  cases q with
  | signals g => exact KeepsInv.runWords (fun w hw => ne_crc_of_mem_selectWords hw) s t hs ht
  | crcCall u w => cases hok
  | wire bytes =>
    simp only [Machine.perform] at ht
    split at ht
    · next i hdec =>
      obtain ⟨id, p, crc, rfl⟩ := decodeWire_eq_ok hdec
      exact KeepsInv.receiveOp rfl s t hs ht
    · exact KeepsInv.feed bytes s t hs ht
  | writeTx i bytes => exact Inv.callerWriteTx (s := { s with out := [] }) hs ht
  | writeRx i bytes => exact Inv.callerWriteRx (s := { s with out := [] }) hs ht
  | remap lens d =>
    cases ht
    exact hs.remap (of_decide_eq_true hok)

/-! ### The statements -/

/-- Settles O54: the pending input meets the premises, and every input that does keeps the invariant. -/
theorem stepKeepsTheInvariant : Obligations.StepKeepsTheInvariant := by
  intro s t hs ht
  cases hq : s.inputs with
  | nil =>
    rw [step_of_inputs_nil hq] at ht
    cases ht
    exact hs
  | cons q rest =>
    rw [step_of_inputs_cons hq] at ht
    obtain ⟨hwf, hr, he, hin⟩ := (inv_iff s).1 hs
    obtain ⟨hok, hrest⟩ := List.forall_mem_cons.1 (hq ▸ hin)
    have hs' : Inv { s with inputs := rest } := (inv_iff _).2 ⟨hwf, hr, he, hrest⟩
    exact hs'.perform hok ht

/-- Settles O8: the two sides share no register. -/
theorem encoderCommutesWithReceiveSide : Obligations.EncoderCommutesWithReceiveSide := fun _ _ _ _ _ hi hj =>
  ⟨(OnEncoder.exec hi).comm_receive (.exec hj), (OnReceiveSide.exec hj).comm_encoder (.exec hi)⟩

/-- Settles O5: the pending input is taken off, and the one word it forms is run. -/
theorem stepRunsTheSelectedOperation : Obligations.StepRunsTheSelectedOperation := by
  refine ⟨fun s g rest w i hin hsel hdec => ?_, fun s u w rest i hin hdec => ?_, fun s bytes rest i hin hdec => ?_,
    fun s => step_of_inputs_nil⟩
  · calc step s = runWords (selectWords g { s with inputs := rest }) { s with inputs := rest } :=
          step_of_inputs_cons hin
      _ = runWord w { s with inputs := rest } := by rw [hsel, runWords_singleton]
      _ = exec i { s with inputs := rest } := runWord_of_decode hdec
  · exact (step_of_inputs_cons hin).trans (runWord_of_decode (s := { s with inputs := rest }) hdec)
  · exact (step_of_inputs_cons hin).trans (perform_wire_of_decode (s := { s with inputs := rest }) hdec)

end Sys2Proof.Machine
end

section
/-! Statements of 10_state.md: the frames of the three agents' operations (O24, O33, O50), the decoder's running CRC
(O56), the configuration (O57), what makes `rx_status` `NewData` (O59), and the state after reset (O52, O53). -/

namespace Sys2Proof.Machine

/-! ### What each decoder operation can answer (R141 to R145) -/

@[simp] theorem huntSync1_rx (b : Byte) (s : State) : (huntSync1 b s).rx = s.rx := by
  unfold huntSync1; split <;> rfl

/-- Hunting changes `d_st` alone (R141). -/
theorem huntSync1_ses (b : Byte) (s : State) :
    (huntSync1 b s).ses = { s.ses with st := if b = s.cfg.sync then .waitSync2 else .waitSync1 } := by
  unfold huntSync1; split <;> rfl

/-- A byte examined for a sync leaves the session hunting (R141). -/
theorem hunting_huntSync1 (b : Byte) (s : State) : hunting (huntSync1 b s).ses.st = true := by
  rw [huntSync1_ses]; dsimp only; split <;> rfl

theorem execDecSync1_eq_next {b : Byte} {s t : State} (h : execDecSync1 b s = .next t) : t = huntSync1 b s := by
  obtain ⟨-, ⟨⟩⟩ := whenDec_eq_next.1 h
  rfl

/-- The state the sync pair leaves (R142). -/
def startTransaction (s : State) : State :=
  { withStatus .noFlags s with
    ses := { s.ses with st := .readId, facc := 0, fcnt := 0, crc := s.cfg.crcInit, wd := 0 }
    out := [byteOut .consumed] }

theorem execDecSync2_eq_next {b : Byte} {s t : State} (h : execDecSync2 b s = .next t) :
    t = startTransaction s ∨ t = huntSync1 b s := by
  obtain ⟨-, ⟨⟩⟩ := whenDec_eq_next.1 h
  split
  · exact .inl rfl
  · exact .inr rfl

/-- The state the first byte of the id leaves (R143). -/
def firstIdByte (b : Byte) (s : State) : State :=
  { s with
    ses := { s.ses with crc := crcUpdate s.cfg.crcFn s.ses.crc b, facc := shiftIn s.ses.facc b, fcnt := 1 }
    out := [byteOut .consumed] }

/-- The state the second byte of the id leaves, id and length latched (R143). -/
def latchId (b : Byte) (s : State) : State :=
  { s with
    rx := { s.rx with id := shiftIn s.ses.facc b, len := s.cfg.lenOf (shiftIn s.ses.facc b) }
    ses := { s.ses with
      crc := crcUpdate s.cfg.crcFn s.ses.crc b
      facc := 0
      fcnt := 0
      cur := 0
      st := if s.cfg.lenOf (shiftIn s.ses.facc b) = 0 then .readCrc else .readPayload }
    out := [{ byteOut .consumed with lenId := some (shiftIn s.ses.facc b) }] }

theorem execDecId_eq_next {b : Byte} {s t : State} (h : execDecId b s = .next t) :
    s.ses.st = .readId ∧ (s.ses.fcnt = 0 ∧ t = firstIdByte b s ∨ s.ses.fcnt ≠ 0 ∧ t = latchId b s) := by
  obtain ⟨hst, h⟩ := whenDec_eq_next.1 h
  refine ⟨hst, ?_⟩
  split at h
  · next h0 => cases h; exact .inl ⟨h0, rfl⟩
  · next h0 =>
    simp only [completeId] at h
    split at h <;> cases h
    exact .inr ⟨h0, rfl⟩

/-- The state a payload byte leaves (R144). -/
def storePayload (b : Byte) (s : State) : State :=
  { s with
    rx := { s.rx with buf := s.rx.buf.store s.ses.cur b }
    ses := { s.ses with
      crc := crcUpdate s.cfg.crcFn s.ses.crc b
      cur := s.ses.cur + 1
      st := if s.ses.cur + 1 = s.rx.len then .readCrc else .readPayload }
    out := [{ byteOut .consumed with plWrite := some (s.ses.cur, b) }] }

theorem execDecPay_eq_next {b : Byte} {s t : State} (h : execDecPay b s = .next t) :
    s.ses.st = .readPayload ∧ s.ses.cur < s.cfg.maxLen ∧ t = storePayload b s := by
  obtain ⟨hst, h⟩ := whenDec_eq_next.1 h
  split at h <;> cases h
  exact ⟨hst, ‹_›, rfl⟩

/-- The state the first byte of the CRC field leaves (R145). -/
def firstCrcByte (b : Byte) (s : State) : State :=
  { s with ses := { s.ses with facc := shiftIn s.ses.facc b, fcnt := 1 }, out := [byteOut .consumed] }

theorem execDecCrc_eq_next {b : Byte} {s t : State} (h : execDecCrc b s = .next t) :
    s.ses.st = .readCrc ∧ (t = firstCrcByte b s ∨ t = finishFrame b s) := by
  obtain ⟨hst, ⟨⟩⟩ := whenDec_eq_next.1 h
  split
  · exact ⟨hst, .inl rfl⟩
  · exact ⟨hst, .inr rfl⟩

/-- A frame's last byte returns the session (R145, R146). -/
@[simp] theorem finishFrame_ses (b : Byte) (s : State) : (finishFrame b s).ses = Session.init s.cfg := by
  simp only [finishFrame]; split <;> rfl

/-- A frame's last byte sets the status and leaves the rest of the message (R145). -/
theorem finishFrame_rx (b : Byte) (s : State) :
    (finishFrame b s).rx = { s.rx with status := (finishFrame b s).rx.status } := by
  simp only [finishFrame]; split <;> rfl

/-- Only the accepting branch makes the message new (R145). -/
theorem finishFrame_out_of_newData {b : Byte} {s : State} (h : (finishFrame b s).rx.status = .newData) :
    (finishFrame b s).out = [byteOut .accepted] := by
  simp only [finishFrame] at h ⊢
  split
  · rfl
  · next hne => simp [hne] at h

/-! ### The receive buffer after a store (R60, R144) -/

theorem rxCell_congr {s t : State} (hcfg : t.cfg = s.cfg) (hbuf : t.rx.buf = s.rx.buf) (a : Nat) :
    rxCell t a = rxCell s a := by
  rw [rxCell_eq, rxCell_eq, hcfg, hbuf]

theorem txCell_congr {s t : State} (hcfg : t.cfg = s.cfg) (hbuf : t.txBuf = s.txBuf) (a : Nat) :
    txCell t a = txCell s a := by
  rw [txCell_eq, txCell_eq, hcfg, hbuf]

theorem rxCell_storePayload_same (b : Byte) {s : State} (h : s.ses.cur < s.cfg.maxLen) :
    rxCell (storePayload b s) s.ses.cur = some b := by
  simp [rxCell_eq, storePayload, h]

theorem rxCell_storePayload_of_ne (b : Byte) (s : State) {a : Nat} (h : a ≠ s.ses.cur) :
    rxCell (storePayload b s) a = rxCell s a := by
  simp [rxCell_eq, storePayload, h]

/-- A payload byte is added at the end of the bytes received (R144). -/
theorem received_storePayload (b : Byte) {s : State} (h : s.ses.cur < s.cfg.maxLen) :
    received (storePayload b s) (s.ses.cur + 1) = received s s.ses.cur ++ [b] := by
  have hbelow : received (storePayload b s) s.ses.cur = received s s.ses.cur :=
    List.filterMap_congr fun a ha => rxCell_storePayload_of_ne b s (Nat.ne_of_lt (List.mem_range.1 ha))
  rw [← hbelow]
  simp [received, List.range_succ, List.filterMap_append, rxCell_storePayload_same b h]

/-! ### What each system operation can answer (R171 to R173) -/

/-- A tick changes nothing, counts, or returns the session of a frame under way (R173). -/
theorem execSysTick_eq_next {s t : State} (h : execSysTick s = .next t) :
    t = { s with out := [quietOut .quiet] }
    ∨ hunting s.ses.st = false
      ∧ (t = { s with ses := { s.ses with wd := s.ses.wd + 1 }, out := [quietOut .quiet] }
        ∨ t = takeCondition (.truncated s.ses.st s.ses.cur) s) := by
  unfold execSysTick at h
  split at h
  · cases h; exact .inl rfl
  · split at h
    · cases h; exact .inl rfl
    · next hx =>
      refine .inr ⟨Bool.not_eq_true _ ▸ hx, ?_⟩
      split at h
      · cases h; exact .inr rfl
      · cases h; exact .inl rfl

/-- A tick leaves the RX Message Object alone (R173). -/
theorem execSysTick_rx {s t : State} (h : execSysTick s = .next t) : t.rx = s.rx := by
  obtain rfl | ⟨-, rfl | rfl⟩ := execSysTick_eq_next h <;> rfl

/-! ### The frames of the two sides, field by field (R11) -/

theorem isReceiveOp_of_isDecoderOp : ∀ {i : Instr}, isDecoderOp i = true → isReceiveOp i = true
  | .decNobyte, _ | .decSync1 _, _ | .decSync2 _, _ | .decId _, _ | .decPay _, _ | .decCrc _, _ => rfl

theorem OnReceiveSide.fields {f : State → Result} (hf : OnReceiveSide f) {s t : State} (h : f s = .next t) :
    t.cfg = s.cfg ∧ t.enc = s.enc ∧ t.txBuf = s.txBuf ∧ t.txStream = s.txStream ∧ t.inputs = s.inputs := by
  rw [hf.frame h]; exact ⟨rfl, rfl, rfl, rfl, rfl⟩

theorem OnEncoder.cfg {f : State → Result} (hf : OnEncoder f) {s t : State} (h : f s = .next t) : t.cfg = s.cfg := by
  rw [hf.frame h]; rfl

theorem OnEncoder.fields {f : State → Result} (hf : OnEncoder f) {s t : State} (h : f s = .next t) :
    t.cfg = s.cfg ∧ t.ses = s.ses ∧ t.rx = s.rx ∧ t.txBuf = s.txBuf ∧ t.inputs = s.inputs := by
  rw [hf.frame h]; exact ⟨rfl, rfl, rfl, rfl, rfl⟩

/-! ### Relations that pass from operation to operation of a step (R10, R100, R175) -/

/-- `R` between the state before and the state after an operation carries over to several in a row. -/
structure PassesAlong (R : State → State → Prop) : Prop where
  quiet : ∀ s : State, R s s.quiet
  followed : ∀ {s u v : State}, R s u → R u v → R s { v with out := u.out ++ v.out }

theorem PassesAlong.runWords {R : State → State → Prop} (hR : PassesAlong R) {ws : List SelWord}
    (hws : ∀ w ∈ ws, ∀ s t, runWord w s = .next t → R s t) {s t : State} (h : runWords ws s = .next t) : R s t := by
  induction ws generalizing s t with
  | nil => cases h; exact hR.quiet s
  | cons w ws ih =>
    obtain ⟨u, v, hu, hv, rfl⟩ := followedBy_eq_next.1 h
    obtain ⟨hw, hws⟩ := List.forall_mem_cons.1 hws
    exact hR.followed (hw s u hu) (ih hws hv)

theorem PassesAlong.feed {R : State → State → Prop} (hR : PassesAlong R)
    (hb : ∀ b s t, byteStep b s = .next t → R s t) {bs : List Byte} {s t : State} (h : feed bs s = .next t) :
    R s t := by
  induction bs generalizing s t with
  | nil => cases h; exact hR.quiet s
  | cons b bs ih =>
    obtain ⟨u, v, hu, hv, rfl⟩ := followedBy_eq_next.1 h
    exact hR.followed (hb b s u hu) (ih hv)

/-- `R` holds of every operation a signal can select, and carries over to several in a row. -/
structure StepRule (R : State → State → Prop) : Prop extends PassesAlong R where
  encoder : ∀ {i : Instr} {s t : State}, isEncoderOp i = true → exec i s = .next t → R s t
  decoder : ∀ {i : Instr} {s t : State}, isDecoderOp i = true → exec i s = .next t → R s t
  reset : ∀ {s t : State}, execSysReset s = .next t → R s t
  take : ∀ {s t : State}, execSysTake s = .next t → R s t
  tick : ∀ {s t : State}, execSysTick s = .next t → R s t

/-- What a word selects, performed (R91). -/
theorem runWord_eq_next {w : SelWord} {s t : State} (h : runWord w s = .next t) :
    ∃ i, decode s.cfg w = .ok i ∧ exec i s = .next t := by
  unfold runWord at h
  split at h
  · exact ⟨_, ‹_›, h⟩
  · cases h

/-- Wire bytes are byte steps, whether they form a frame or not (R100). -/
theorem perform_wire_eq_feed (bytes : List Byte) (s : State) : ∃ w, perform (.wire bytes) s = feed w s := by
  cases hdec : decode s.cfg (.wire bytes) with
  | error e => exact ⟨bytes, by simp only [perform, hdec]⟩
  | ok i =>
    obtain ⟨id, p, crc, rfl⟩ := decodeWire_eq_ok hdec
    exact ⟨frameBytes s.cfg id p crc, perform_wire_of_decode hdec⟩

theorem isDecoderOp_decOp (st : DSt) (b : Byte) : isDecoderOp (decOp st b) = true := by cases st <;> rfl

section
variable {R : State → State → Prop}

/-- Such a rule holds of bytes back to back (R100). -/
theorem StepRule.feed (hR : StepRule R) {bs : List Byte} {s t : State} (h : feed bs s = .next t) : R s t :=
  hR.toPassesAlong.feed (fun b s _ hb => hR.decoder (isDecoderOp_decOp s.ses.st b) (byteStep_eq_exec b s ▸ hb)) h

theorem StepRule.receiveOp (hR : StepRule R) {s t : State} :
    ∀ {j : Instr}, isReceiveOp j = true → exec j s = .next t → R s t
  | .decNobyte, _, h | .decSync1 _, _, h | .decSync2 _, _, h | .decId _, _, h | .decPay _, _, h | .decCrc _, _, h =>
    hR.decoder rfl h
  | .sysTake, _, h => hR.take h
  | .sysTick, _, h => hR.tick h
  | .frame _ _ _, _, h => hR.feed h

/-- Such a rule holds of every step of signals (R91 to R94, R175). -/
theorem StepRule.signals (hR : StepRule R) {g : Signals} {s t : State} (h : perform (.signals g) s = .next t) :
    R s t := by
  refine hR.runWords (fun w hw u v huv => ?_) h
  obtain ⟨i, hdec, hi⟩ := runWord_eq_next huv
  obtain he | hr | rfl := decode_agent (ne_crc_of_mem_selectWords hw) hdec
  · exact hR.encoder he hi
  · exact hR.receiveOp hr hi
  · exact hR.reset hi

/-- Such a rule holds of every step that takes bytes off the line (R100). -/
theorem StepRule.wire (hR : StepRule R) {bytes : List Byte} {s t : State} (h : perform (.wire bytes) s = .next t) :
    R s t := by
  obtain ⟨w, hw⟩ := perform_wire_eq_feed bytes s
  exact hR.feed (hw ▸ h)

end

/-! ### What the other inputs change (R95, R41) -/

/-- A direct call of the engine changes one accumulator and the outputs (R95, R111, R112). -/
theorem perform_crcCall_eq_next {u : CrcUser} {w : BitVec 9} {s t : State} (h : perform (.crcCall u w) s = .next t) :
    ∃ v, t = { withAcc u v s with out := [] } := by
  obtain ⟨i, hdec, hi⟩ := runWord_eq_next (w := .crc w u) h
  simp only [decode, decodeCrc] at hdec
  split at hdec <;> cases hdec <;> cases hi <;> exact ⟨_, rfl⟩

theorem perform_writeTx_eq_next {i : Nat} {bytes : List Byte} {s t : State}
    (h : perform (.writeTx i bytes) s = .next t) : t = { s with txBuf := t.txBuf, out := [] } := by
  obtain ⟨hframe, -, -⟩ := callerWriteTx_next (s := { s with out := [] }) h
  exact hframe

theorem perform_writeRx_eq_next {i : Nat} {bytes : List Byte} {s t : State}
    (h : perform (.writeRx i bytes) s = .next t) : t = { s with rx := { s.rx with buf := t.rx.buf }, out := [] } := by
  obtain ⟨hframe, -, -⟩ := callerWriteRx_next (s := { s with out := [] }) h
  exact hframe


/-! ### The decoder's running CRC (R24, R154 b, c) -/

/-- The CRC of a message with one byte more (R113). -/
theorem crcOf_concat (c : Config) (m : List Byte) (b : Byte) :
    crcOf c (m ++ [b]) = crcUpdate c.crcFn (crcOf c m) b := by
  simp [crcOf]

/-- While hunting the running CRC covers nothing. -/
theorem DecoderCrcOk.of_hunting {s : State} (h : hunting s.ses.st = true) : DecoderCrcOk s := by
  constructor
  · intro hst; simp [hst] at h
  · rintro (hst | hst) <;> simp [hst] at h

theorem startTransaction_crcOk (s : State) : DecoderCrcOk (startTransaction s) := ⟨fun _ => rfl, nofun⟩

/-- The first byte of the id is the first one folded (R143). -/
theorem firstIdByte_crcOk (b : Byte) {s : State} (h : DecoderCrcOk s) (hst : s.ses.st = .readId)
    (h0 : s.ses.fcnt = 0) : DecoderCrcOk (firstIdByte b s) := by
  obtain ⟨hid, -⟩ := h
  have hseed : s.ses.crc = s.cfg.crcInit := by simpa [h0] using hid hst
  refine ⟨fun _ => ?_, fun hp => ?_⟩
  · simp [firstIdByte, crcOf, shiftIn, hseed]
  · simp [firstIdByte, hst] at hp

/-- The second byte of the id completes it, with no payload received (R143). -/
theorem latchId_crcOk (b : Byte) {s : State} (h : DecoderCrcOk s) (hst : s.ses.st = .readId)
    (h0 : s.ses.fcnt ≠ 0) : DecoderCrcOk (latchId b s) := by
  obtain ⟨hid, -⟩ := h
  have hfirst : s.ses.crc = crcOf s.cfg [loByte s.ses.facc] := by simpa [h0] using hid hst
  refine ⟨fun hr => ?_, fun _ => ?_⟩
  · simp only [latchId] at hr; split at hr <;> cases hr
  · calc (latchId b s).ses.crc = crcUpdate s.cfg.crcFn (crcOf s.cfg [loByte s.ses.facc]) b := by
          rw [← hfirst]; rfl
      _ = crcOf s.cfg [loByte s.ses.facc, b] := (crcOf_concat s.cfg [loByte s.ses.facc] b).symm
      _ = _ := by simp [latchId, shiftIn, received]

/-- A payload byte is folded and received (R144). -/
theorem storePayload_crcOk (b : Byte) {s : State} (h : DecoderCrcOk s) (hst : s.ses.st = .readPayload)
    (hcur : s.ses.cur < s.cfg.maxLen) : DecoderCrcOk (storePayload b s) := by
  obtain ⟨-, hpay⟩ := h
  refine ⟨fun hr => ?_, fun _ => ?_⟩
  · simp only [storePayload] at hr; split at hr <;> cases hr
  · have hrec : received (storePayload b s) (storePayload b s).ses.cur = received s s.ses.cur ++ [b] :=
      received_storePayload b hcur
    rw [hrec, ← List.cons_append, ← List.cons_append]
    calc (storePayload b s).ses.crc = crcUpdate s.cfg.crcFn s.ses.crc b := rfl
      _ = _ := by rw [hpay (.inl hst)]; exact (crcOf_concat s.cfg _ b).symm

/-- The first byte of the CRC field is not folded (R145). -/
theorem firstCrcByte_crcOk (b : Byte) {s : State} (h : DecoderCrcOk s) (hst : s.ses.st = .readCrc) :
    DecoderCrcOk (firstCrcByte b s) := by
  obtain ⟨-, hpay⟩ := h
  exact ⟨fun hr => by simp [firstCrcByte, hst] at hr, hpay⟩

theorem decoderOp_crcOk {s t : State} :
    ∀ {i : Instr}, isDecoderOp i = true → exec i s = .next t → DecoderCrcOk s → DecoderCrcOk t
  | .decNobyte, _, ht, hs => by
    cases ht
    exact hs
  | .decSync1 b, _, ht, _ => by
    rw [execDecSync1_eq_next ht]
    exact .of_hunting (hunting_huntSync1 b s)
  | .decSync2 b, _, ht, _ => by
    obtain rfl | rfl := execDecSync2_eq_next ht
    · exact startTransaction_crcOk s
    · exact .of_hunting (hunting_huntSync1 b s)
  | .decId b, _, ht, hs => by
    obtain ⟨hst, ⟨h0, rfl⟩ | ⟨h0, rfl⟩⟩ := execDecId_eq_next ht
    · exact firstIdByte_crcOk b hs hst h0
    · exact latchId_crcOk b hs hst h0
  | .decPay b, _, ht, hs => by
    obtain ⟨hst, hcur, rfl⟩ := execDecPay_eq_next ht
    exact storePayload_crcOk b hs hst hcur
  | .decCrc b, _, ht, hs => by
    obtain ⟨hst, rfl | rfl⟩ := execDecCrc_eq_next ht
    · exact firstCrcByte_crcOk b hs hst
    · exact .of_hunting (by simp)

/-- The rule of the running CRC over a step: every operation a signal can select keeps it. -/
theorem decoderCrcOk_stepRule : StepRule fun s t => DecoderCrcOk s → DecoderCrcOk t where
  quiet := fun _ hs => hs
  followed := fun hu hv hs => hv (hu hs)
  encoder := fun hi ht hs => by
    rw [(OnEncoder.exec hi).frame ht]
    exact hs
  decoder := decoderOp_crcOk
  reset := fun ht _ => by
    cases ht
    exact .of_hunting rfl
  take := fun ht hs => by
    cases ht
    exact hs
  tick := fun ht hs => by
    obtain rfl | ⟨-, rfl | rfl⟩ := execSysTick_eq_next ht
    · exact hs
    · exact hs
    · exact .of_hunting rfl

/-- An input that meets the Caller's premises and does not write RXBUF keeps the running CRC (R257). -/
theorem perform_decoderCrcOk {q : Input} {s t : State} (hok : inputOk s.cfg q = true) (hkeep : keepsRxBuf q = true)
    (hs : DecoderCrcOk s) (ht : perform q s = .next t) : DecoderCrcOk t := by
  cases q with
  | signals g => exact decoderCrcOk_stepRule.signals ht hs
  | crcCall u w => cases hok
  | wire bytes => exact decoderCrcOk_stepRule.wire ht hs
  | writeTx i bytes =>
    rw [perform_writeTx_eq_next ht]
    exact hs
  | writeRx i bytes => cases hkeep
  | remap lens d =>
    cases ht
    exact hs

/-- Settles O56: the pending input meets the premises, and every input that does keeps the running CRC. -/
theorem runningCrcCoversIdAndPayload : Obligations.RunningCrcCoversIdAndPayload := by
  intro s t hinv hs hkeep ht
  cases hq : s.inputs with
  | nil =>
    rw [step_of_inputs_nil hq] at ht
    cases ht
    exact hs
  | cons q rest =>
    rw [step_of_inputs_cons hq] at ht
    obtain ⟨-, -, -, hin⟩ := (inv_iff s).1 hinv
    exact perform_decoderCrcOk (s := { s with inputs := rest }) (hin q (by simp [hq])) (hkeep q (by simp [hq])) hs ht

/-! ### The configuration (R37, R74) -/

theorem execSysReset_cfg {s t : State} (h : execSysReset s = .next t) : t.cfg = s.cfg := by
  cases h; rfl

/-- No operation changes a parameter. -/
theorem sameCfg_stepRule : StepRule fun s t => t.cfg = s.cfg where
  quiet := fun _ => rfl
  followed := fun hu hv => hv.trans hu
  encoder := fun hi => (OnEncoder.exec hi).cfg
  decoder := fun hi => (OnReceiveSide.exec (isReceiveOp_of_isDecoderOp hi)).cfg
  reset := execSysReset_cfg
  take := OnReceiveSide.sysTake.cfg
  tick := OnReceiveSide.sysTick.cfg

/-- No input but a change of the mapping changes a parameter (R74). -/
theorem perform_cfg {q : Input} {s t : State} (hq : ∀ lens d, q ≠ .remap lens d) (ht : perform q s = .next t) :
    t.cfg = s.cfg := by
  cases q with
  | signals g => exact sameCfg_stepRule.signals ht
  | crcCall u w =>
    obtain ⟨v, rfl⟩ := perform_crcCall_eq_next ht
    exact withAcc_cfg u v s
  | wire bytes => exact sameCfg_stepRule.wire ht
  | writeTx i bytes => rw [perform_writeTx_eq_next ht]
  | writeRx i bytes => rw [perform_writeRx_eq_next ht]
  | remap lens d => exact absurd rfl (hq lens d)

/-- No step but one that performs a change of the mapping changes a parameter (R74). -/
theorem step_cfg {s t : State} (hq : ∀ lens d, s.inputs.head? ≠ some (.remap lens d)) (ht : step s = .next t) :
    t.cfg = s.cfg := by
  cases hin : s.inputs with
  | nil =>
    rw [step_of_inputs_nil hin] at ht
    cases ht
    rfl
  | cons q rest =>
    rw [step_of_inputs_cons hin] at ht
    exact perform_cfg (s := { s with inputs := rest }) (fun lens d he => hq lens d (by simp [hin, he])) ht

/-- A step that performs a change of the mapping changes the mapping and nothing else (R174). -/
theorem step_of_remap {s t : State} {lens : List (Word × Nat)} {d : Nat} (hq : s.inputs.head? = some (.remap lens d))
    (ht : step s = .next t) :
    t = { s with cfg := { s.cfg with lens := lens, lenDefault := d }, inputs := s.inputs.tail, out := [] } := by
  rw [step_of_inputs_cons (List.eq_cons_of_mem_head? hq)] at ht
  cases ht
  rfl

/-- Settles O57: a step performs a change of the mapping, or leaves the configuration as it is. -/
theorem configurationIsConstant : Obligations.ConfigurationIsConstant := by
  intro s t ht
  refine ⟨?_, fun hq => step_cfg hq ht, fun lens d hq => ?_⟩
  · by_cases hq : ∃ lens d, s.inputs.head? = some (.remap lens d)
    · obtain ⟨lens, d, hq⟩ := hq
      rw [step_of_remap hq ht]
    · rw [step_cfg (fun lens d h => hq ⟨lens, d, h⟩) ht]
  · rw [step_of_remap hq ht]
    exact ⟨rfl, rfl⟩

/-! ### The frame of the encoder's operations (R30, R36, R120 to R130) -/

/-- The encoder registers an operation other than `ENC.START` keeps. -/
def KeepsEncoderRegisters (i : Instr) (e e' : Encoder) : Prop :=
  e'.id = e.id ∧ e'.len = e.len
  ∧ (i ≠ .encPutPay → e'.cur = e.cur)
  ∧ (i ≠ .encPutIdHi ∧ i ≠ .encPutIdLo ∧ i ≠ .encPutPay → e'.crc = e.crc)
  ∧ (i ≠ .encDecline → e'.retry = e.retry)
  ∧ (i = .encNop → e' = e)

/-- What an encoder operation does to its registers, the TX stream and the decoder's result. -/
structure EncoderEffect (i : Instr) (s t : State) : Prop where
  registers : (∃ id len, i = .encStart id len) ∨ KeepsEncoderRegisters i s.enc t.enc
  stream : if i = .encNop ∨ i = .encDecline ∨ s.enc.st = .idle then t.txStream = s.txStream
    else t.txStream = s.txStream ++ (offeredByte s).toList
  noRxResult : ∀ o ∈ t.out, o.rxResult = none

theorem EncoderEffect.nop {s t : State} (h : execEncNop s = .next t) : EncoderEffect .encNop s t := by
  unfold execEncNop at h
  split at h <;> cases h
  exact ⟨.inr ⟨rfl, rfl, fun _ => rfl, fun _ => rfl, fun _ => rfl, fun _ => rfl⟩, by simp, by simp [putOut]⟩

theorem EncoderEffect.start {id : Word} {len : Nat} {s t : State} (h : execEncStart id len s = .next t) :
    EncoderEffect (.encStart id len) s t := by
  unfold execEncStart at h
  split at h
  · next hidle =>
    split at h <;> cases h
    exact ⟨.inl ⟨id, len, rfl⟩, by simp [hidle], by simp [putOut]⟩
  · cases h

theorem EncoderEffect.decline {s t : State} (h : execEncDecline s = .next t) : EncoderEffect .encDecline s t := by
  unfold execEncDecline at h
  split at h
  · cases h
  · split at h
    · cases h
    · split at h <;> cases h
      · exact ⟨.inr ⟨rfl, rfl, fun _ => rfl, fun _ => rfl, fun hne => absurd rfl hne, nofun⟩, by simp, by simp [putOut]⟩
      · exact ⟨.inr ⟨rfl, rfl, fun _ => rfl, fun _ => rfl, fun _ => rfl, nofun⟩, by simp, by simp⟩

/-- A put appends the byte its state offers; the rest of its effect is its own update's. -/
theorem EncoderEffect.put {st : ESt} {i : Instr} {k : Byte → State → State} {s t : State}
    (h : whenPut st s k = .next t) (hput : putOp st = some i)
    (hk : ∀ b s, (k b s).txStream = s.txStream ∧ KeepsEncoderRegisters i s.enc (k b s).enc
      ∧ ∃ r, (k b s).out = [putOut r (some b)]) : EncoderEffect i s t := by
  obtain ⟨hst, b, hb, rfl⟩ := whenPut_eq_next.1 h
  obtain ⟨hstream, hreg, r, hout⟩ := hk b { s with txStream := s.txStream ++ [b] }
  have hsent : i ≠ .encNop ∧ i ≠ .encDecline ∧ s.enc.st ≠ .idle := by
    rw [hst]
    cases st <;> cases hput <;> simp
  obtain ⟨hnop, hdecline, hidle⟩ := hsent
  refine ⟨.inr hreg, ?_, by simp [hout, putOut]⟩
  simp only [hnop, hdecline, hidle, or_self, if_false, hstream, hb, Option.toList_some]

section
variable {s t : State}

theorem EncoderEffect.putSync1 (h : execEncPutSync1 s = .next t) : EncoderEffect .encPutSync1 s t :=
  .put h rfl fun _ _ => ⟨rfl, by simp [KeepsEncoderRegisters], _, rfl⟩

theorem EncoderEffect.putSync2 (h : execEncPutSync2 s = .next t) : EncoderEffect .encPutSync2 s t :=
  .put h rfl fun _ _ => ⟨rfl, by simp [KeepsEncoderRegisters], _, rfl⟩

theorem EncoderEffect.putIdHi (h : execEncPutIdHi s = .next t) : EncoderEffect .encPutIdHi s t :=
  .put h rfl fun _ _ => ⟨rfl, by simp [KeepsEncoderRegisters], _, rfl⟩

theorem EncoderEffect.putIdLo (h : execEncPutIdLo s = .next t) : EncoderEffect .encPutIdLo s t :=
  .put h rfl fun _ _ => ⟨rfl, by simp [KeepsEncoderRegisters], _, rfl⟩

theorem EncoderEffect.putPay (h : execEncPutPay s = .next t) : EncoderEffect .encPutPay s t :=
  .put h rfl fun _ _ => ⟨rfl, by simp [KeepsEncoderRegisters], _, rfl⟩

theorem EncoderEffect.putCrcHi (h : execEncPutCrcHi s = .next t) : EncoderEffect .encPutCrcHi s t :=
  .put h rfl fun _ _ => ⟨rfl, by simp [KeepsEncoderRegisters], _, rfl⟩

theorem EncoderEffect.putCrcLo (h : execEncPutCrcLo s = .next t) : EncoderEffect .encPutCrcLo s t :=
  .put h rfl fun _ _ => ⟨rfl, by simp [KeepsEncoderRegisters], _, rfl⟩

theorem EncoderEffect.exec : ∀ {i : Instr}, isEncoderOp i = true → exec i s = .next t → EncoderEffect i s t
  | .encNop, _, h => .nop h
  | .encStart _ _, _, h => .start h
  | .encPutSync1, _, h => .putSync1 h
  | .encPutSync2, _, h => .putSync2 h
  | .encPutIdHi, _, h => .putIdHi h
  | .encPutIdLo, _, h => .putIdLo h
  | .encPutPay, _, h => .putPay h
  | .encPutCrcHi, _, h => .putCrcHi h
  | .encPutCrcLo, _, h => .putCrcLo h
  | .encDecline, _, h => .decline h

end

/-- Settles O24: the encoder's operations are on the encoder, and each one's effect there is known. -/
theorem encoderOperationsFrame : Obligations.EncoderOperationsFrame := by
  intro i s t hi ht
  obtain ⟨hcfg, hses, hrx, htx, hin⟩ := (OnEncoder.exec hi).fields ht
  have heff := EncoderEffect.exec hi ht
  exact ⟨hcfg, hses, hrx, htx, hin, fun a => ⟨rxCell_congr hcfg (congrArg _ hrx) a, txCell_congr hcfg htx a⟩,
    heff.registers, heff.stream⟩

/-! ### The frame of the system operations (R171 to R173) -/

/-- Settles O50: take and tick are on the receive side, and reset writes registers alone. -/
theorem systemOperationsFrame : Obligations.SystemOperationsFrame := by
  rintro i s t (rfl | rfl | rfl) ht
  · cases ht
    exact ⟨rfl, rfl, rfl, rfl, rfl, fun _ => ⟨rfl, rfl⟩, fun h => absurd rfl h, nofun, nofun⟩
  · cases ht
    exact ⟨rfl, rfl, rfl, rfl, rfl, fun _ => ⟨rfl, rfl⟩, fun _ => ⟨rfl, rfl, rfl⟩, fun _ => rfl, nofun⟩
  · obtain ⟨hcfg, henc, htx, hstream, hin⟩ := OnReceiveSide.sysTick.fields ht
    have hrx := execSysTick_rx ht
    exact ⟨hcfg, htx, hstream, hin, by rw [hrx], fun a => ⟨rxCell_congr hcfg (by rw [hrx]) a, txCell_congr hcfg htx a⟩,
      fun _ => ⟨henc, by rw [hrx], by rw [hrx]⟩, nofun, fun _ => hrx⟩

/-! ### The state after reset (R44) -/

/-- Settles O52: each register by computation, each cell unwritten. -/
theorem resetState : Obligations.ResetState := by
  refine ⟨rfl, rfl, rfl, rfl, rfl, fun i hi => ?_⟩
  rw [rxCell_eq, txCell_eq, if_pos hi, if_pos hi]
  exact ⟨rfl, rfl⟩

/-- Settles O53: the reset state is one concrete state, and it hunts. -/
theorem resetMeetsTheInvariants : Obligations.ResetMeetsTheInvariants := ⟨by decide, .of_hunting rfl⟩

/-! ### The frame of the decoder's operations (R20, R27, R141 to R147) -/

/-- Which operation may change which register of the session and of the RX Message Object. -/
structure DecoderEffect (i : Instr) (s t : State) : Prop where
  rxBuf : (∃ b, i = .decPay b) ∨ t.rx.buf = s.rx.buf
  idLen : (∃ b, i = .decId b) ∨ (t.rx.id = s.rx.id ∧ t.rx.len = s.rx.len)
  status : (∃ b, i = .decSync2 b ∨ i = .decCrc b) ∨ t.rx.status = s.rx.status
  wd : (∃ b, i = .decSync2 b ∨ i = .decCrc b) ∨ t.ses.wd = s.ses.wd
  cur : (∃ b, i = .decId b ∨ i = .decPay b ∨ i = .decCrc b) ∨ t.ses.cur = s.ses.cur
  crc : (∃ b, i = .decSync2 b ∨ i = .decId b ∨ i = .decPay b ∨ i = .decCrc b) ∨ t.ses.crc = s.ses.crc
  field : (∃ b, i = .decSync2 b ∨ i = .decId b ∨ i = .decCrc b) ∨
    (t.ses.facc = s.ses.facc ∧ t.ses.fcnt = s.ses.fcnt)

section
variable {b : Byte} {s t : State}

/-- What leaves the RX Message Object alone, and the session but for `d_st`, is in every frame. -/
theorem DecoderEffect.of_st (i : Instr) {st : DSt} (hrx : t.rx = s.rx) (hses : t.ses = { s.ses with st := st }) :
    DecoderEffect i s t := by
  constructor <;> simp [hrx, hses]

theorem DecoderEffect.nobyte (h : execDecNobyte s = .next t) : DecoderEffect .decNobyte s t := by
  cases h
  exact .of_st (st := s.ses.st) _ rfl rfl

theorem DecoderEffect.hunt (i : Instr) (b : Byte) (s : State) : DecoderEffect i s (huntSync1 b s) :=
  .of_st i (huntSync1_rx b s) (huntSync1_ses b s)

theorem DecoderEffect.sync1 (h : execDecSync1 b s = .next t) : DecoderEffect (.decSync1 b) s t := by
  rw [execDecSync1_eq_next h]
  exact .hunt _ b s

theorem DecoderEffect.sync2 (h : execDecSync2 b s = .next t) : DecoderEffect (.decSync2 b) s t := by
  obtain rfl | rfl := execDecSync2_eq_next h
  · exact ⟨.inr rfl, .inr ⟨rfl, rfl⟩, .inl ⟨b, .inl rfl⟩, .inl ⟨b, .inl rfl⟩, .inr rfl, .inl ⟨b, .inl rfl⟩,
      .inl ⟨b, .inl rfl⟩⟩
  · exact .hunt _ b s

theorem DecoderEffect.id (h : execDecId b s = .next t) : DecoderEffect (.decId b) s t := by
  obtain ⟨-, ⟨-, rfl⟩ | ⟨-, rfl⟩⟩ := execDecId_eq_next h <;>
    exact ⟨.inr rfl, .inl ⟨b, rfl⟩, .inr rfl, .inr rfl, .inl ⟨b, .inl rfl⟩, .inl ⟨b, .inr (.inl rfl)⟩,
      .inl ⟨b, .inr (.inl rfl)⟩⟩

theorem DecoderEffect.pay (h : execDecPay b s = .next t) : DecoderEffect (.decPay b) s t := by
  obtain ⟨-, -, rfl⟩ := execDecPay_eq_next h
  exact ⟨.inl ⟨b, rfl⟩, .inr ⟨rfl, rfl⟩, .inr rfl, .inr rfl, .inl ⟨b, .inr (.inl rfl)⟩,
    .inl ⟨b, .inr (.inr (.inl rfl))⟩, .inr ⟨rfl, rfl⟩⟩

theorem DecoderEffect.crcField (h : execDecCrc b s = .next t) : DecoderEffect (.decCrc b) s t := by
  have hrx : t.rx = { s.rx with status := t.rx.status } := by
    obtain ⟨-, rfl | rfl⟩ := execDecCrc_eq_next h
    · rfl
    · exact finishFrame_rx b s
  refine ⟨.inr ?_, .inr ⟨?_, ?_⟩, .inl ⟨b, .inr rfl⟩, .inl ⟨b, .inr rfl⟩, .inl ⟨b, .inr (.inr rfl)⟩,
    .inl ⟨b, .inr (.inr (.inr rfl))⟩, .inl ⟨b, .inr (.inr rfl)⟩⟩ <;> rw [hrx]

theorem DecoderEffect.exec : ∀ {i : Instr}, isDecoderOp i = true → exec i s = .next t → DecoderEffect i s t
  | .decNobyte, _, h => .nobyte h
  | .decSync1 _, _, h => .sync1 h
  | .decSync2 _, _, h => .sync2 h
  | .decId _, _, h => .id h
  | .decPay _, _, h => .pay h
  | .decCrc _, _, h => .crcField h

end

/-- Settles O33: the decoder's operations are on the receive side, and each one's effect there is known. -/
theorem decoderOperationsFrame : Obligations.DecoderOperationsFrame := by
  intro i s t hi ht
  obtain ⟨hcfg, henc, htx, hstream, hin⟩ := (OnReceiveSide.exec (isReceiveOp_of_isDecoderOp hi)).fields ht
  have heff := DecoderEffect.exec hi ht
  refine ⟨hcfg, henc, htx, hstream, hin, txCell_congr hcfg htx, heff.rxBuf.imp_right (rxCell_congr hcfg), ?_,
    heff.idLen, heff.status, heff.wd, heff.cur, heff.crc, heff.field, ?_⟩
  · rintro b rfl
    obtain ⟨-, hcur, rfl⟩ := execDecPay_eq_next ht
    exact ⟨rxCell_storePayload_same b hcur, fun a => rxCell_storePayload_of_ne b s⟩
  · rintro rfl
    cases ht
    rfl

/-! ### What makes the message new (R28, R145) -/

/-- A decoder operation that makes the message new is the last byte of an accepted frame (R145). -/
theorem decoderOp_accepts {i : Instr} {s t : State} (hi : isDecoderOp i = true) (h : exec i s = .next t)
    (hs : s.rx.status ≠ .newData) (ht : t.rx.status = .newData) :
    t.ses = Session.init s.cfg ∧ t.out = [byteOut .accepted] := by
  obtain ⟨b, rfl | rfl⟩ | hkept := (DecoderEffect.exec hi h).status
  · obtain rfl | rfl := execDecSync2_eq_next h
    · cases ht
    · exact absurd (huntSync1_rx b s ▸ ht) hs
  · obtain ⟨-, rfl | rfl⟩ := execDecCrc_eq_next h
    · exact absurd ht hs
    · exact ⟨finishFrame_ses b s, finishFrame_out_of_newData ht⟩
  · exact absurd (hkept ▸ ht) hs

/-- The outputs leave the decoder's result of the step as it is. -/
def LeaveRxResult (outs : List Outputs) : Prop := ∀ o ∈ outs, o.rxResult = none ∨ o.rxResult = some .quiet

/-- An operation beside the byte's: it makes no message new, and at `SESSION_INIT` it changes neither the session nor
the decoder's result. -/
structure BesideByte (s t : State) : Prop where
  cfg : t.cfg = s.cfg
  notNew : t.rx.status = .newData → s.rx.status = .newData
  ses : s.ses = Session.init s.cfg → t.ses = Session.init s.cfg
  out : s.ses = Session.init s.cfg → LeaveRxResult t.out

theorem BesideByte.passesAlong : PassesAlong BesideByte where
  quiet := fun _ => ⟨rfl, id, id, fun _ => by simp [LeaveRxResult]⟩
  followed := fun {s u v} hu hv => by
    have hinit : s.ses = Session.init s.cfg → u.ses = Session.init u.cfg := fun h => hu.cfg ▸ hu.ses h
    refine ⟨hv.cfg.trans hu.cfg, hu.notNew ∘ hv.notNew, fun h => hu.cfg ▸ hv.ses (hinit h), fun h o ho => ?_⟩
    obtain ho | ho := List.mem_append.1 ho
    · exact hu.out h o ho
    · exact hv.out (hinit h) o ho

theorem BesideByte.encoderOp {i : Instr} {s t : State} (hi : isEncoderOp i = true) (h : exec i s = .next t) :
    BesideByte s t := by
  obtain ⟨hcfg, hses, hrx, -, -⟩ := (OnEncoder.exec hi).fields h
  have hout := (EncoderEffect.exec hi h).noRxResult
  exact ⟨hcfg, fun ht => hrx ▸ ht, fun hs => hses.trans hs, fun _ o ho => .inl (hout o ho)⟩

theorem BesideByte.reset {s t : State} (h : execSysReset s = .next t) : BesideByte s t := by
  cases h
  exact ⟨rfl, nofun, fun _ => rfl, fun _ => by simp [LeaveRxResult]⟩

theorem BesideByte.take {s t : State} (h : execSysTake s = .next t) : BesideByte s t := by
  cases h
  exact ⟨rfl, nofun, id, fun _ => by simp [LeaveRxResult, quietOut]⟩

/-- A tick finds the session at `SESSION_INIT` hunting, and does nothing (R173). -/
theorem BesideByte.tick {s t : State} (h : execSysTick s = .next t) : BesideByte s t := by
  have hidle : s.ses = Session.init s.cfg → t = { s with out := [quietOut .quiet] } := fun hs =>
    (execSysTick_eq_next h).resolve_right fun ⟨hx, _⟩ => by simp [hs] at hx
  refine ⟨OnReceiveSide.sysTick.cfg h, fun ht => execSysTick_rx h ▸ ht, fun hs => ?_, fun hs => ?_⟩
  · rw [hidle hs]; exact hs
  · rw [hidle hs]; simp [LeaveRxResult, quietOut]

/-- The words of signals that carry no byte: those of the system and of the encoder (R93, R94). -/
def isBesideWord : SelWord → Bool
  | .enc _ _ _ => true
  | .sys _ => true
  | .dec _ => false
  | .crc _ _ => false
  | .wire _ => false

theorem BesideByte.runWord {w : SelWord} (hw : isBesideWord w = true) {s t : State} (h : runWord w s = .next t) :
    BesideByte s t := by
  obtain ⟨i, hdec, hi⟩ := runWord_eq_next h
  cases w with
  | enc v id len => exact .encoderOp (isEncoderOp_of_decodeEnc hdec) hi
  | sys v =>
    simp only [decode, decodeSys] at hdec
    split at hdec
    · cases hdec; exact .reset hi
    · split at hdec
      · cases hdec; exact .take hi
      · split at hdec <;> cases hdec
        exact .tick hi
  | dec v => cases hw
  | crc v u => cases hw
  | wire bytes => cases hw

theorem BesideByte.runWords {ws : List SelWord} (hws : ∀ w ∈ ws, isBesideWord w = true) {s t : State}
    (h : runWords ws s = .next t) : BesideByte s t :=
  BesideByte.passesAlong.runWords (fun w hw _ _ => BesideByte.runWord (hws w hw)) h

theorem isDecoderOp_of_decodeDec {w : BitVec 12} {i : Instr} (h : decodeDec w = .ok i) : isDecoderOp i = true := by
  unfold decodeDec at h
  split at h
  · split at h <;> cases h
    exact isDecoderOp_decOp _ _
  · cases h; rfl

/-- The words of one step's signals: at most one carries a byte, and the others stand beside it (R42, R175). -/
theorem selectWords_eq_append (g : Signals) (s : State) :
    ∃ before byte after, selectWords g s = before ++ (byte ++ after)
      ∧ (∀ w ∈ before, isBesideWord w = true) ∧ (∀ w ∈ after, isBesideWord w = true)
      ∧ (byte = [] ∨ ∃ v, byte = [.dec v]) := by
  unfold selectWords
  split
  · exact ⟨[sysWord true g.take g.tick], [], [], rfl, by simp [sysWord, isBesideWord], nofun, .inl rfl⟩
  · refine ⟨if g.take then [sysWord false true false] else [], decWords s.ses.st g.rx,
      (if g.tick then [sysWord false false true] else []) ++ encWords s.enc.st g.enc, by simp only [List.append_assoc],
      ?_, ?_, ?_⟩
    · split <;> simp [sysWord, isBesideWord]
    · refine List.forall_mem_append.2 ⟨?_, ?_⟩
      · split <;> simp [sysWord, isBesideWord]
      · cases g.enc <;> simp [encWords, isBesideWord]
    · cases g.rx with
      | notAsked => exact .inl rfl
      | empty => exact .inr ⟨_, rfl⟩
      | byte b => exact .inr ⟨_, rfl⟩

/-- The outputs hold an acceptance that nothing after it hides. -/
def ShowAcceptance (outs : List Outputs) : Prop :=
  ∃ before after, outs = before ++ byteOut .accepted :: after ∧ LeaveRxResult after

theorem foldl_merge_rxResult {after : List Outputs} (h : LeaveRxResult after) {o : Outputs} {r : RxResult}
    (ho : o.rxResult = some r) : (after.foldl Outputs.merge o).rxResult = some r := by
  induction after generalizing o with
  | nil => exact ho
  | cons p after ih =>
    obtain ⟨hp, hafter⟩ := List.forall_mem_cons.1 h
    refine ih hafter ?_
    rcases hp with hp | hp <;> simp [Outputs.merge, laterRx, ho, hp]

/-- Such outputs show the acceptance (R175). -/
theorem ShowAcceptance.shownOf {outs : List Outputs} (h : ShowAcceptance outs) :
    (shownOf outs).rxResult = some .accepted := by
  obtain ⟨before, after, rfl, hafter⟩ := h
  rw [Machine.shownOf, List.foldl_append, List.foldl_cons]
  refine foldl_merge_rxResult hafter ?_
  cases h : (before.foldl Outputs.merge {}).rxResult <;> simp [Outputs.merge, laterRx, byteOut, h]

/-- The byte's word that makes the message new, and the words beside it (R145, R175). -/
theorem runWords_dec_accepts {v : BitVec 12} {after : List SelWord} (hafter : ∀ w ∈ after, isBesideWord w = true)
    {s t : State} (h : runWords (.dec v :: after) s = .next t) (hs : s.rx.status ≠ .newData)
    (ht : t.rx.status = .newData) : t.ses = Session.init t.cfg ∧ ShowAcceptance t.out := by
  obtain ⟨u, x, hu, hx, rfl⟩ := followedBy_eq_next.1 h
  obtain ⟨i, hdec, hi⟩ := runWord_eq_next hu
  have hop := isDecoderOp_of_decodeDec hdec
  have hbeside := BesideByte.runWords hafter hx
  obtain ⟨hses, hout⟩ := decoderOp_accepts hop hi hs (hbeside.notNew ht)
  have hinit : u.ses = Session.init u.cfg := (sameCfg_stepRule.decoder hop hi).symm ▸ hses
  exact ⟨hbeside.cfg ▸ hbeside.ses hinit, [], x.out, by rw [hout]; rfl, hbeside.out hinit⟩

/-- A run of words, at most one of them a byte's, that makes the message new. -/
theorem runWords_accepts {before byte after : List SelWord} (hbefore : ∀ w ∈ before, isBesideWord w = true)
    (hafter : ∀ w ∈ after, isBesideWord w = true) (hbyte : byte = [] ∨ ∃ v, byte = [.dec v]) {s t : State}
    (h : runWords (before ++ (byte ++ after)) s = .next t) (hs : s.rx.status ≠ .newData)
    (ht : t.rx.status = .newData) : t.ses = Session.init t.cfg ∧ ShowAcceptance t.out := by
  induction before generalizing s t with
  | nil =>
    obtain rfl | ⟨v, rfl⟩ := hbyte
    · exact absurd ((BesideByte.runWords hafter h).notNew ht) hs
    · exact runWords_dec_accepts hafter h hs ht
  | cons w before ih =>
    obtain ⟨u, x, hu, hx, rfl⟩ := followedBy_eq_next.1 h
    obtain ⟨hw, hbefore⟩ := List.forall_mem_cons.1 hbefore
    have hus : u.rx.status ≠ .newData := fun hn => hs ((BesideByte.runWord hw hu).notNew hn)
    obtain ⟨hses, outs, rest, hout, hrest⟩ := ih hbefore hx hus ht
    exact ⟨hses, u.out ++ outs, rest, by rw [hout, List.append_assoc], hrest⟩

/-- A step of signals that makes the message new ends at `SESSION_INIT` and shows `Accepted` (R145, R258). -/
theorem perform_signals_accepts {g : Signals} {s t : State} (h : perform (.signals g) s = .next t)
    (hs : s.rx.status ≠ .newData) (ht : t.rx.status = .newData) :
    (shown t).rxResult = some .accepted ∧ t.ses = Session.init s.cfg := by
  obtain ⟨before, byte, after, hwords, hbefore, hafter, hbyte⟩ := selectWords_eq_append g s
  have hrun : runWords (before ++ (byte ++ after)) s = .next t := hwords ▸ h
  obtain ⟨hses, hout⟩ := runWords_accepts hbefore hafter hbyte hrun hs ht
  exact ⟨hout.shownOf, sameCfg_stepRule.signals h ▸ hses⟩

/-- An operation that makes the message new gives `Accepted`, and its result stays among the step's. -/
theorem accepts_stepRule :
    StepRule fun s t => s.rx.status ≠ .newData → t.rx.status = .newData → .accepted ∈ resultsOf t.out where
  quiet := fun _ hs ht => absurd ht hs
  followed := fun {s u v} hu hv hs ht => by
    rw [resultsOf_append]
    by_cases hn : u.rx.status = .newData
    · exact List.mem_append_left _ (hu hs hn)
    · exact List.mem_append_right _ (hv hn ht)
  encoder := fun hi h hs ht => absurd ((BesideByte.encoderOp hi h).notNew ht) hs
  decoder := fun hi h hs ht => by
    obtain ⟨-, hout⟩ := decoderOp_accepts hi h hs ht
    simp [hout, resultsOf, byteOut]
  reset := fun h hs ht => absurd ((BesideByte.reset h).notNew ht) hs
  take := fun h hs ht => absurd ((BesideByte.take h).notNew ht) hs
  tick := fun h hs ht => absurd ((BesideByte.tick h).notNew ht) hs

/-- An input of any kind that makes the message new: the inputs that are no signals and no bytes keep the status. -/
theorem perform_accepts {q : Input} {s t : State} (h : perform q s = .next t) (hs : s.rx.status ≠ .newData)
    (ht : t.rx.status = .newData) : .accepted ∈ resultsOf t.out := by
  cases q with
  | signals g => exact accepts_stepRule.signals h hs ht
  | wire bytes => exact accepts_stepRule.wire h hs ht
  | crcCall u w =>
    obtain ⟨v, rfl⟩ := perform_crcCall_eq_next h
    exact absurd (withAcc_rx u v s ▸ ht) hs
  | writeTx i bytes =>
    rw [perform_writeTx_eq_next h] at ht
    exact absurd ht hs
  | writeRx i bytes =>
    rw [perform_writeRx_eq_next h] at ht
    exact absurd ht hs
  | remap lens d =>
    cases h
    exact absurd ht hs

/-- Settles O59: only the last byte of an accepted frame makes the message new, and nothing beside it hides that. -/
theorem newDataOnlyByAcceptance : Obligations.NewDataOnlyByAcceptance := by
  refine ⟨fun s t g rest hin h hs ht => ?_, fun s t h hs ht => ?_⟩
  · rw [step_of_inputs_cons hin] at h
    exact perform_signals_accepts (s := { s with inputs := rest }) h hs ht
  · cases hin : s.inputs with
    | nil =>
      rw [step_of_inputs_nil hin] at h
      cases h
      exact absurd ht hs
    | cons q rest =>
      rw [step_of_inputs_cons hin] at h
      exact perform_accepts (s := { s with inputs := rest }) h hs ht

end Sys2Proof.Machine
end

section
/-! Statements of 20_memory.md: the TX stream only grows (O58). -/

namespace Sys2Proof.Machine

/-! ### The TX stream (R60, R67) -/

/-- An encoder operation leaves the TX stream or adds the byte it offers at its end (R121). -/
theorem EncoderEffect.txStream_prefix {i : Instr} {s t : State} (h : EncoderEffect i s t) :
    s.txStream <+: t.txStream := by
  have hstream := h.stream
  split at hstream
  · rw [hstream]
  · exact ⟨(offeredByte s).toList, hstream.symm⟩

/-- The receive side's operations never touch the TX stream (R11). -/
theorem OnReceiveSide.txStream {f : State → Result} (hf : OnReceiveSide f) {s t : State} (h : f s = .next t) :
    t.txStream = s.txStream := by
  rw [hf.frame h]; rfl

/-- Every operation extends the TX stream, reset too: it sends nothing and takes nothing back (R171). -/
theorem txStreamGrows_stepRule : StepRule fun s t => s.txStream <+: t.txStream where
  quiet := fun _ => List.prefix_rfl
  followed := fun hu hv => hu.trans hv
  encoder := fun hi h => (EncoderEffect.exec hi h).txStream_prefix
  decoder := fun hi h => by rw [(OnReceiveSide.exec (isReceiveOp_of_isDecoderOp hi)).txStream h]
  reset := fun h => by cases h; exact List.prefix_rfl
  take := fun h => by rw [OnReceiveSide.sysTake.txStream h]
  tick := fun h => by rw [OnReceiveSide.sysTick.txStream h]

/-- An input of any kind extends the TX stream: what is neither signals nor bytes of the line leaves it (R41). -/
theorem perform_txStream_prefix {q : Input} {s t : State} (h : perform q s = .next t) :
    s.txStream <+: t.txStream := by
  cases q with
  | signals g => exact txStreamGrows_stepRule.signals h
  | wire bytes => exact txStreamGrows_stepRule.wire h
  | crcCall u w =>
    obtain ⟨v, rfl⟩ := perform_crcCall_eq_next h
    simp only [withAcc_txStream, List.prefix_rfl]
  | writeTx i bytes => rw [perform_writeTx_eq_next h]
  | writeRx i bytes => rw [perform_writeRx_eq_next h]
  | remap lens d => cases h; exact List.prefix_rfl

/-- Settles O58: a step performs its input on the stream as it stood, and every input extends it. -/
theorem txStreamOnlyGrows : Obligations.TxStreamOnlyGrows := by
  intro s t h
  cases hin : s.inputs with
  | nil =>
    rw [step_of_inputs_nil hin] at h
    cases h
    exact List.prefix_rfl
  | cons q rest =>
    rw [step_of_inputs_cons hin] at h
    exact perform_txStream_prefix (s := { s with inputs := rest }) h

end Sys2Proof.Machine
end

section
/-! Statements of 30_encoding.md: the words of every format and what they decode to (O1 to O4), the order of one step's
requests (O6), the whole encode operation (O25), and the operation FRAME (O35, O36). -/

namespace Sys2Proof.Machine

/-! ### The fields of a word (R92 to R95) -/

theorem exists_ofBool (x : BitVec 1) : ∃ v, x = BitVec.ofBool v := by
  revert x; decide

/-- Every DEC word is put together from its three fields (R92). -/
theorem exists_decWord (w : BitVec 12) : ∃ (v : Bool) (s : BitVec 3) (b : Byte), w = BitVec.ofBool v ++ s ++ b := by
  obtain ⟨v, hv⟩ := exists_ofBool ((w.extractLsb' 8 4).extractLsb' 3 1)
  refine ⟨v, (w.extractLsb' 8 4).extractLsb' 0 3, w.extractLsb' 0 8, ?_⟩
  rw [← hv, BitVec.extractLsb'_append_extractLsb', BitVec.extractLsb'_append_extractLsb']

/-- Every ENC word is put together from its three fields (R93). -/
theorem exists_encWord (w : BitVec 6) :
    ∃ (g : Bool) (s : BitVec 4) (r : Bool), w = BitVec.ofBool g ++ s ++ BitVec.ofBool r := by
  obtain ⟨g, hg⟩ := exists_ofBool ((w.extractLsb' 1 5).extractLsb' 4 1)
  obtain ⟨r, hr⟩ := exists_ofBool (w.extractLsb' 0 1)
  refine ⟨g, (w.extractLsb' 1 5).extractLsb' 0 4, r, ?_⟩
  rw [← hg, ← hr, BitVec.extractLsb'_append_extractLsb', BitVec.extractLsb'_append_extractLsb']

/-- Every SYS word is put together from its three requests (R94). -/
theorem exists_sysWord (w : BitVec 3) :
    ∃ rst take tick : Bool, w = BitVec.ofBool rst ++ BitVec.ofBool take ++ BitVec.ofBool tick := by
  revert w; decide

theorem getLsbD_ofBool_append {n : Nat} (v : Bool) (x : BitVec n) : (BitVec.ofBool v ++ x).getLsbD n = v := by
  simp only [BitVec.getLsbD_append]; simp

theorem getLsbD_decWord (v : Bool) (s : BitVec 3) (b : Byte) : (BitVec.ofBool v ++ s ++ b).getLsbD 11 = v := by
  rw [BitVec.getLsbD_append]
  exact getLsbD_ofBool_append v s

theorem getLsbD_encWord_start (g : Bool) (s : BitVec 4) (r : Bool) :
    (BitVec.ofBool g ++ s ++ BitVec.ofBool r).getLsbD 5 = g := by
  rw [BitVec.getLsbD_append]
  exact getLsbD_ofBool_append g s

theorem getLsbD_encWord_ready (g : Bool) (s : BitVec 4) (r : Bool) :
    (BitVec.ofBool g ++ s ++ BitVec.ofBool r).getLsbD 0 = r := by
  rw [BitVec.getLsbD_append]
  simp

/-- The field in the middle of a word is read off above the lowest one. -/
theorem extractLsb'_append_middle {k m n : Nat} (x : BitVec m) (y : BitVec n) (z : BitVec k) :
    (x ++ y ++ z).extractLsb' k n = y := by
  rw [BitVec.extractLsb'_append_eq_of_le le_rfl, Nat.sub_self, BitVec.extractLsb'_append_eq_right]

/-! ### State codes (R21, R31, R97) -/

theorem eq_dstCode_of_dstOfCode {s : BitVec 3} {st : DSt} (h : dstOfCode s = some st) : s = dstCode st := by
  cases st <;> revert s <;> decide

theorem eq_estCode_of_estOfCode {s : BitVec 4} {st : ESt} (h : estOfCode s = some st) : s = estCode st := by
  cases st <;> revert s <;> decide

theorem dstOfCode_reserved : ∀ {s : BitVec 3}, 5 ≤ s.toNat → dstOfCode s = none := by decide

theorem estOfCode_reserved : ∀ {s : BitVec 4}, (1 ≤ s.toNat ∧ s.toNat ≤ 7) ∨ s.toNat = 15 → estOfCode s = none := by
  decide

/-! ### What a word of each format decodes to (R92 to R96) -/

theorem decodeDec_empty (s : BitVec 3) (b : Byte) : decodeDec (BitVec.ofBool false ++ s ++ b) = .ok .decNobyte := by
  rw [decodeDec, getLsbD_decWord]; rfl

theorem decodeDec_byte (st : DSt) (b : Byte) :
    decodeDec (BitVec.ofBool true ++ dstCode st ++ b) = .ok (decOp st b) := by
  rw [decodeDec, getLsbD_decWord, extractLsb'_append_middle, BitVec.extractLsb'_append_eq_right, dstOfCode_dstCode]
  rfl

theorem decodeDec_reserved {w : BitVec 12} (hv : w.getLsbD 11 = true) (hs : dstOfCode (w.extractLsb' 8 3) = none) :
    decodeDec w = .error (.reservedDst (w.extractLsb' 8 3)) := by
  simp only [decodeDec, hv, hs, if_true]

theorem decodeEnc_encWord (g : Bool) (st : ESt) (r : Bool) (id : Word) (len : Nat) :
    decodeEnc (BitVec.ofBool g ++ estCode st ++ BitVec.ofBool r) id len = .ok (encoderOpFor st ⟨g, id, len, r⟩) := by
  rw [decodeEnc, getLsbD_encWord_start, getLsbD_encWord_ready, extractLsb'_append_middle, estOfCode_estCode]
  simp only [encoderOpFor]
  cases putOp st <;> rfl

theorem decodeEnc_reserved {w : BitVec 6} (hs : estOfCode (w.extractLsb' 1 4) = none) (id : Word) (len : Nat) :
    decodeEnc w id len = .error (.reservedEst (w.extractLsb' 1 4)) := by
  simp only [decodeEnc, hs]

theorem decodeCrc_crcWord (v : Bool) (b : Byte) (u : CrcUser) :
    decodeCrc (BitVec.ofBool v ++ b) u = if v then .crcUpd u b else .crcInit u := by
  rw [decodeCrc, getLsbD_ofBool_append, BitVec.extractLsb'_append_eq_right]

/-- A word of the decoder's format that decodes has no byte, or a byte and the code of a state (R92). -/
theorem decodeDec_eq_ok {w : BitVec 12} {i : Instr} (h : decodeDec w = .ok i) :
    (w.getLsbD 11 = false ∧ i = .decNobyte)
    ∨ ∃ st b, w = BitVec.ofBool true ++ dstCode st ++ b ∧ i = decOp st b := by
  obtain ⟨v, s, b, rfl⟩ := exists_decWord w
  cases v with
  | false =>
    rw [decodeDec_empty] at h
    cases h
    exact .inl ⟨getLsbD_decWord false s b, rfl⟩
  | true =>
    cases hs : dstOfCode s with
    | none =>
      rw [decodeDec_reserved (getLsbD_decWord true s b) (by rw [extractLsb'_append_middle, hs])] at h
      cases h
    | some st =>
      obtain rfl := eq_dstCode_of_dstOfCode hs
      rw [decodeDec_byte] at h
      cases h
      exact .inr ⟨st, b, rfl, rfl⟩

/-- A word of the encoder's format that decodes holds the code of a state (R93). -/
theorem decodeEnc_eq_ok {w : BitVec 6} {id : Word} {len : Nat} {i : Instr} (h : decodeEnc w id len = .ok i) :
    ∃ g st r, w = BitVec.ofBool g ++ estCode st ++ BitVec.ofBool r ∧ i = encoderOpFor st ⟨g, id, len, r⟩ := by
  obtain ⟨g, s, r, rfl⟩ := exists_encWord w
  cases hs : estOfCode s with
  | none =>
    rw [decodeEnc_reserved (by rw [extractLsb'_append_middle, hs])] at h
    cases h
  | some st =>
    obtain rfl := eq_estCode_of_estOfCode hs
    rw [decodeEnc_encWord] at h
    cases h
    exact ⟨g, st, r, rfl, rfl⟩

/-- The bytes after the id are a payload of `n` bytes and the CRC field, high byte first (R81, R84). -/
theorem splitTail_eq_some {n : Nat} {rest p : List Byte} {crc : Word} :
    splitTail n rest = some (p, crc) ↔ p.length = n ∧ rest = p ++ [hiByte crc, loByte crc] := by
  constructor
  · intro h
    unfold splitTail at h
    split at h
    · next hi lo hdrop =>
      cases h
      have hlen : rest.length - n = 2 := by rw [← List.length_drop, hdrop]; rfl
      refine ⟨by rw [List.length_take]; omega, ?_⟩
      rw [hiByte_joinBytes, loByte_joinBytes, ← hdrop, List.take_append_drop]
    · cases h
  · rintro ⟨rfl, rfl⟩
    simp [splitTail]

/-- The bytes that decode are exactly the frames of the length their id asks for (R96). -/
theorem decodeWire_eq_ok_iff {c : Config} {bytes : List Byte} {i : Instr} :
    decodeWire c bytes = .ok i ↔
      ∃ id p crc, i = .frame id p crc ∧ p.length = c.lenOf id ∧ bytes = frameBytes c id p crc := by
  constructor
  · intro h
    unfold decodeWire at h
    split at h
    · next s1 s2 ih il rest =>
      split at h
      · next hsync =>
        obtain ⟨rfl, rfl⟩ := hsync
        split at h <;> cases h
        next p crc hsplit =>
        obtain ⟨hlen, rfl⟩ := splitTail_eq_some.1 hsplit
        exact ⟨_, p, crc, rfl, hlen, by simp [frameBytes]⟩
      · cases h
    · cases h
  · rintro ⟨id, p, crc, rfl, hlen, rfl⟩
    have hsplit := splitTail_eq_some.2 (⟨hlen, rfl⟩ : _ ∧ p ++ [hiByte crc, loByte crc] = _)
    simp [frameBytes, decodeWire, hsplit]

/-! ### The encoding (R92 to R96) -/

theorem decode_encodeDec (c : Config) (st : DSt) (b : Byte) : decode c (encodeDec st b) = .ok (decOp st b) :=
  decodeDec_byte st b

theorem decode_encodePut (c : Config) {st : ESt} {put : Instr} (h : putOp st = some put) :
    decode c (encodePut st) = .ok put := by
  refine (decodeEnc_encWord false st true 0 0).trans ?_
  simp only [encoderOpFor, h, if_true]

/-- The payload of a well-formed frame has the length its id asks for, and fits the buffer (R81, R96). -/
theorem length_of_wellFormed_frame {c : Config} {id : Word} {p : List Byte} {crc : Word}
    (h : (Instr.frame id p crc).wellFormed c = true) : p.length = c.lenOf id ∧ p.length ≤ c.maxLen := by
  simpa [Instr.wellFormed] using h

/-- Settles O1: a word of the format whose fields name the operation, each field read back. -/
theorem decodeGivesBackEncodedOperation : Obligations.DecodeGivesBackEncodedOperation := by
  intro c i hwf
  cases i with
  | crcInit u => exact congrArg Except.ok (decodeCrc_crcWord false 0 u)
  | crcUpd u b => exact congrArg Except.ok (decodeCrc_crcWord true b u)
  | encNop => exact decodeEnc_encWord false .idle false 0 0
  | encStart id len => exact decodeEnc_encWord true .idle false id len
  | encPutSync1 => exact decode_encodePut c rfl
  | encPutSync2 => exact decode_encodePut c rfl
  | encPutIdHi => exact decode_encodePut c rfl
  | encPutIdLo => exact decode_encodePut c rfl
  | encPutPay => exact decode_encodePut c rfl
  | encPutCrcHi => exact decode_encodePut c rfl
  | encPutCrcLo => exact decode_encodePut c rfl
  | encDecline => exact decodeEnc_encWord false .sync1 false 0 0
  | decNobyte => exact decodeDec_empty 0 0
  | decSync1 b => exact decode_encodeDec c .waitSync1 b
  | decSync2 b => exact decode_encodeDec c .waitSync2 b
  | decId b => exact decode_encodeDec c .readId b
  | decPay b => exact decode_encodeDec c .readPayload b
  | decCrc b => exact decode_encodeDec c .readCrc b
  | sysReset => rfl
  | sysTake => rfl
  | sysTick => rfl
  | frame id p crc =>
    obtain ⟨hlen, -⟩ := length_of_wellFormed_frame hwf
    exact decodeWire_eq_ok_iff.2 ⟨id, p, crc, rfl, hlen, rfl⟩

/-! ### The rows of the opcode table (R92 to R96) -/

/-- A word under a mask of one bit is that bit. -/
theorem and_mask_of_getLsbD {n k : Nat} {w : BitVec n} {v : Bool} (h : w.getLsbD k = v) :
    w.toNat &&& 2 ^ k = v.toNat * 2 ^ k := by
  rw [Nat.and_two_pow, BitVec.testBit_toNat, h]

theorem dec_row {w : BitVec 12} {i : Instr} (h : decodeDec w = .ok i) : (rowOf i).holds (.dec w) := by
  obtain ⟨hv, rfl⟩ | ⟨st, b, rfl, rfl⟩ := decodeDec_eq_ok h
  · exact and_mask_of_getLsbD hv
  · have hrow : rowOf (decOp st b) = ⟨0xF00, (8 + (dstCode st).toNat) * 256⟩ := by cases st <;> rfl
    rw [hrow]
    exact Laws.TableRow.dec_word_bits st b

/-- The operands beside an ENC word do not decide its row (R93). -/
theorem rowOf_encoderOpFor (st : ESt) (g r : Bool) (id : Word) (len : Nat) :
    rowOf (encoderOpFor st ⟨g, id, len, r⟩) = rowOf (encoderOpFor st ⟨g, 0, 0, r⟩) := by
  simp only [encoderOpFor]
  cases putOp st with
  | none => cases g <;> rfl
  | some put => rfl

/-- The bits of each ENC word that holds the code of a state, against the row of its operation (R93). -/
theorem enc_word_bits (st : ESt) (g r : Bool) :
    (rowOf (encoderOpFor st ⟨g, 0, 0, r⟩)).holds (.enc (BitVec.ofBool g ++ estCode st ++ BitVec.ofBool r) 0 0) := by
  cases st <;> cases g <;> cases r <;> rfl

theorem enc_row {w : BitVec 6} {id : Word} {len : Nat} {i : Instr} (h : decodeEnc w id len = .ok i) :
    (rowOf i).holds (.enc w id len) := by
  obtain ⟨g, st, r, rfl, rfl⟩ := decodeEnc_eq_ok h
  rw [rowOf_encoderOpFor]
  exact enc_word_bits st g r

theorem sys_row {w : BitVec 3} {i : Instr} (h : decodeSys w = .ok i) : (rowOf i).holds (.sys w) := by
  obtain ⟨rst, take, tick, rfl⟩ := exists_sysWord w
  cases rst <;> cases take <;> cases tick <;> cases h <;> rfl

theorem crc_row (w : BitVec 9) (u : CrcUser) : (rowOf (decodeCrc w u)).holds (.crc w u) := by
  unfold decodeCrc
  split
  · next hv => exact and_mask_of_getLsbD hv
  · next hv => exact and_mask_of_getLsbD (Bool.eq_false_of_not_eq_true hv)

/-- Settles O2: the fields that select the operation are the bits its row masks. -/
theorem decodedWordLiesInItsRow : Obligations.DecodedWordLiesInItsRow := by
  intro c w i hsync h
  cases w with
  | dec w => exact dec_row h
  | enc w id len => exact enc_row h
  | sys w => exact sys_row h
  | crc w u =>
    cases h
    exact crc_row w u
  | wire bytes =>
    obtain ⟨id, p, crc, rfl, -, rfl⟩ := decodeWire_eq_ok_iff.1 h
    exact Laws.TableRow.frame id p crc c hsync

/-- Settles O3: a reserved code names no state. -/
theorem reservedCodesSelectNothing : Obligations.ReservedCodesSelectNothing :=
  ⟨fun _ _ hv hs => decodeDec_reserved hv (dstOfCode_reserved hs),
    fun _ _ id len hs => decodeEnc_reserved (estOfCode_reserved hs) id len⟩

/-- Settles O4: each word by computation. -/
theorem programWordsDecode : Obligations.ProgramWordsDecode := fun _ =>
  ⟨rfl, rfl, rfl, rfl, rfl, rfl, rfl, rfl, rfl, rfl, rfl, rfl, rfl⟩

/-! ### The order of one step's requests (R175) -/

/-- The word selects the operation, whatever the configuration: no word of signals is a frame. -/
def Selects (w : SelWord) (i : Instr) : Prop := ∀ c : Config, decode c w = .ok i

/-- The operation the receive signals ask for in a state (R92). -/
def byteOps (st : DSt) : RxIn → List Instr
  | .notAsked => []
  | .empty => [.decNobyte]
  | .byte b => [decOp st b]

/-- The operations of the receive side one step's signals ask for, in the order of R175. -/
def receiveOps (g : Signals) (st : DSt) : List Instr :=
  (if g.take then [.sysTake] else []) ++ byteOps st g.rx ++ (if g.tick then [.sysTick] else [])

/-- The operation the transmit signals ask for in a state (R93). -/
def encoderOps (st : ESt) : Option EncIn → List Instr
  | none => []
  | some e => [encoderOpFor st e]

/-- One step's operations are those of the receive side, then the encoder's. -/
theorem operationsOf_eq (g : Signals) (s : State) :
    operationsOf g s = receiveOps g s.ses.st ++ encoderOps s.enc.st g.enc := by
  simp only [operationsOf, receiveOps]
  cases g.rx <;> cases g.enc <;> rfl

theorem selects_byteOps (st : DSt) (x : RxIn) : List.Forall₂ Selects (decWords st x) (byteOps st x) := by
  cases x with
  | notAsked => exact .nil
  | empty => exact .cons (fun _ => decodeDec_empty (dstCode st) 0) .nil
  | byte b => exact .cons (fun _ => decodeDec_byte st b) .nil

theorem selects_encoderOps (st : ESt) (x : Option EncIn) : List.Forall₂ Selects (encWords st x) (encoderOps st x) := by
  cases x with
  | none => exact .nil
  | some e => exact .cons (fun _ => decodeEnc_encWord e.start st e.ready e.id e.len) .nil

/-- A request for one operation of the system side, its word and its operation (R94). -/
theorem selects_request (asked : Bool) {w : SelWord} {i : Instr} (h : Selects w i) :
    List.Forall₂ Selects (if asked then [w] else []) (if asked then [i] else []) := by
  cases asked with
  | false => exact .nil
  | true => exact .cons h .nil

/-- The words one step's signals form select the operations they ask for, in the same order (R175). -/
theorem selects_operationsOf {g : Signals} (hrst : g.rst = false) (s : State) :
    List.Forall₂ Selects (selectWords g s) (operationsOf g s) := by
  rw [operationsOf_eq]
  simp only [selectWords, hrst, Bool.false_eq_true, if_false, receiveOps]
  have htake := selects_request g.take (w := sysWord false true false) (i := .sysTake) fun _ => rfl
  have htick := selects_request g.tick (w := sysWord false false true) (i := .sysTick) fun _ => rfl
  have hreceive := List.rel_append (List.rel_append htake (selects_byteOps s.ses.st g.rx)) htick
  exact List.rel_append hreceive (selects_encoderOps s.enc.st g.enc)

/-- Words run one after another are the operations they select, one after another. -/
theorem runWords_eq_inOrder {ws : List SelWord} {is : List Instr} (h : List.Forall₂ Selects ws is) (s : State) :
    runWords ws s = inOrder is s := by
  induction h generalizing s with
  | nil => rfl
  | cons hw _ ih => rw [runWords, inOrder, runWord_of_decode (hw s.cfg), funext ih]

/-- Settles O6: the words are formed before the step, and each selects its operation wherever it is run. -/
theorem stepPerformsRequestsInOrder : Obligations.StepPerformsRequestsInOrder := fun s _ rest hin hrst =>
  (step_of_inputs_cons hin).trans (runWords_eq_inOrder (selects_operationsOf hrst { s with inputs := rest }) _)

/-! ### Every byte means something in every state (R98, R140) -/

theorem lookupLen_le {m d : Nat} (hd : d ≤ m) (id : Word) {lens : List (Word × Nat)} (h : ∀ e ∈ lens, e.2 ≤ m) :
    lookupLen d id lens ≤ m := by
  induction lens with
  | nil => exact hd
  | cons e lens ih =>
    obtain ⟨he, hlens⟩ := List.forall_mem_cons.1 h
    simp only [lookupLen]
    split
    · exact he
    · exact ih hlens

/-- A mapping that keeps R8's bound answers every id within it. -/
theorem lenOf_le_maxLen {c : Config} (h : c.Wf) (id : Word) : c.lenOf id ≤ c.maxLen :=
  let ⟨hdefault, hlens⟩ := h
  lookupLen_le hdefault id hlens

section
variable {s : State}

theorem byteStep_waitSync1 (hst : s.ses.st = .waitSync1) (b : Byte) : byteStep b s = .next (huntSync1 b s) := by
  simp [byteStep, hst, execDecSync1]

theorem byteStep_waitSync2 (hst : s.ses.st = .waitSync2) (b : Byte) :
    byteStep b s = .next (if b = s.cfg.sync then startTransaction s else huntSync1 b s) := by
  simp [byteStep, hst, execDecSync2, startTransaction]

theorem byteStep_readId_first (hst : s.ses.st = .readId) (h0 : s.ses.fcnt = 0) (b : Byte) :
    byteStep b s = .next (firstIdByte b s) := by
  simp [byteStep, hst, execDecId, h0, firstIdByte]

theorem byteStep_readId_second (hst : s.ses.st = .readId) (h0 : s.ses.fcnt ≠ 0) {b : Byte}
    (hlen : s.cfg.lenOf (shiftIn s.ses.facc b) ≤ s.cfg.maxLen) : byteStep b s = .next (latchId b s) := by
  simp [byteStep, hst, execDecId, h0, completeId, hlen, latchId]

theorem byteStep_readPayload (hst : s.ses.st = .readPayload) (hcur : s.ses.cur < s.cfg.maxLen) (b : Byte) :
    byteStep b s = .next (storePayload b s) := by
  simp [byteStep, hst, execDecPay, hcur, storePayload]

theorem byteStep_readCrc_first (hst : s.ses.st = .readCrc) (h0 : s.ses.fcnt = 0) (b : Byte) :
    byteStep b s = .next (firstCrcByte b s) := by
  simp [byteStep, hst, execDecCrc, h0, firstCrcByte]

theorem byteStep_readCrc_second (hst : s.ses.st = .readCrc) (h0 : s.ses.fcnt ≠ 0) (b : Byte) :
    byteStep b s = .next (finishFrame b s) := by
  simp [byteStep, hst, execDecCrc, h0]

/-- A byte goes through in every state of the receive side that meets the invariant (R140). -/
theorem byteStep_goes_through (hwf : s.cfg.Wf) (h : ReceiveOk s.cfg s.ses s.rx) (b : Byte) :
    ∃ t, byteStep b s = .next t := by
  cases hst : s.ses.st with
  | waitSync1 => exact ⟨_, byteStep_waitSync1 hst b⟩
  | waitSync2 => exact ⟨_, byteStep_waitSync2 hst b⟩
  | readId =>
    by_cases h0 : s.ses.fcnt = 0
    · exact ⟨_, byteStep_readId_first hst h0 b⟩
    · exact ⟨_, byteStep_readId_second hst h0 (lenOf_le_maxLen hwf _)⟩
  | readPayload => exact ⟨_, byteStep_readPayload hst (Nat.lt_of_lt_of_le (h.curInside hst) h.lenLe) b⟩
  | readCrc =>
    by_cases h0 : s.ses.fcnt = 0
    · exact ⟨_, byteStep_readCrc_first hst h0 b⟩
    · exact ⟨_, byteStep_readCrc_second hst h0 b⟩

end

/-- Bytes back to back go through: each byte step keeps the invariant the next one needs (R98). -/
theorem feed_goes_through (bs : List Byte) {s : State} (hwf : s.cfg.Wf) (h : ReceiveOk s.cfg s.ses s.rx) :
    ∃ t, feed bs s = .next t := by
  induction bs generalizing s with
  | nil => exact ⟨_, rfl⟩
  | cons b bs ih =>
    obtain ⟨u, hu⟩ := byteStep_goes_through hwf h b
    have hcfg := (OnReceiveSide.byteStep b).cfg hu
    obtain ⟨v, hv⟩ := ih (hcfg.symm ▸ hwf) (KeepsReceiveOk.byteStep b s u h hu)
    exact ⟨_, followedBy_eq_next.2 ⟨u, v, hu, hv, rfl⟩⟩

/-- Settles O36: the frame's bytes go through one by one, and the frame is on the receive side. -/
theorem frameBytesMeanSomethingInEveryState : Obligations.FrameBytesMeanSomethingInEveryState := by
  intro id p crc s
  refine ⟨fun hinv => ?_, fun t ht => ?_⟩
  · obtain ⟨hwf, hreceive, -, -⟩ := (inv_iff s).1 hinv
    exact feed_goes_through (frameBytes s.cfg id p crc) hwf hreceive
  · obtain ⟨hcfg, henc, htx, hstream, hin⟩ := (OnReceiveSide.wireFrame id p crc).fields ht
    exact ⟨hcfg, henc, htx, hstream, hin, txCell_congr hcfg htx⟩

/-! ### Bytes of a frame, each `Consumed` (R141 to R144) -/

/-- The bytes `w`, fed back to back, each give `Consumed` and leave `t`, but for the outputs. -/
def Consumes (w : List Byte) (s t : State) : Prop :=
  ∃ o, feed w s = .next { t with out := o } ∧ resultsOf o = List.replicate w.length .consumed

theorem Consumes.nil (s : State) : Consumes [] s s := ⟨[], rfl, rfl⟩

theorem Consumes.cons {b : Byte} {w : List Byte} {s u t : State} (hb : byteStep b s = .next u)
    (hres : resultsOf u.out = [.consumed]) (h : Consumes w u t) : Consumes (b :: w) s t := by
  obtain ⟨o, hfeed, ho⟩ := h
  refine ⟨u.out ++ o, followedBy_eq_next.2 ⟨u, _, hb, hfeed, rfl⟩, ?_⟩
  rw [resultsOf_append, hres, ho]
  rfl

theorem Consumes.append {v w : List Byte} {s u t : State} (hv : Consumes v s u) (hw : Consumes w u t) :
    Consumes (v ++ w) s t := by
  obtain ⟨o, hv, ho⟩ := hv
  obtain ⟨o', hw, ho'⟩ := hw
  refine ⟨o ++ o', ?_, by rw [resultsOf_append, ho, ho', List.length_append, List.replicate_add]⟩
  rw [feed_append]
  exact followedBy_eq_next.2 ⟨_, _, hv, (feed_out w u o).trans hw, rfl⟩

/-- One byte more, whatever its result. -/
theorem Consumes.byte {w : List Byte} {b : Byte} {s u t : State} (hw : Consumes w s u) (hb : byteStep b u = .next t) :
    ∃ o, feed (w ++ [b]) s = .next { t with out := o ++ t.out }
      ∧ resultsOf o = List.replicate w.length .consumed := by
  obtain ⟨o, hw, ho⟩ := hw
  have hlast : feed [b] { u with out := o } = .next t := by
    rw [feed_out, feed_cons, hb]
    exact followedBy_quiet (.next t)
  exact ⟨o, by rw [feed_append]; exact followedBy_eq_next.2 ⟨_, _, hw, hlast, rfl⟩, ho⟩

/-- The decoder waits for the payload of a message: nothing of it read, no field begun. -/
structure AwaitsPayload (id : Word) (n : Nat) (s : State) : Prop where
  st : s.ses.st = if n = 0 then .readCrc else .readPayload
  fcnt : s.ses.fcnt = 0
  cur : s.ses.cur = 0
  id : s.rx.id = id
  len : s.rx.len = n

/-- Two bytes shifted into a field are the field, high byte first (R22). -/
theorem shiftIn_shiftIn (facc : Word) (hi lo : Byte) : shiftIn (shiftIn facc hi) lo = joinBytes hi lo := by
  simp [shiftIn]

/-- The state the sync pair and the id leave (R141 to R143). -/
def startMessage (id : Word) (s : State) : State :=
  latchId (loByte id) (firstIdByte (hiByte id) (startTransaction (huntSync1 s.cfg.sync s)))

theorem huntSync1_sync (s : State) :
    huntSync1 s.cfg.sync s = { s with ses := { s.ses with st := .waitSync2 }, out := [byteOut .consumed] } :=
  if_pos rfl

@[simp] theorem startMessage_cfg (id : Word) (s : State) : (startMessage id s).cfg = s.cfg := by
  simp [startMessage, huntSync1_sync, latchId, firstIdByte, startTransaction]

@[simp] theorem startMessage_rx (id : Word) (s : State) :
    (startMessage id s).rx = { s.rx with id := id, len := s.cfg.lenOf id, status := .noFlags } := by
  simp [startMessage, huntSync1_sync, latchId, firstIdByte, startTransaction, shiftIn_shiftIn]

/-- No field is begun, and the cursor is at the first cell. -/
theorem startMessage_ses (id : Word) (s : State) :
    (startMessage id s).ses.fcnt = 0 ∧ (startMessage id s).ses.cur = 0
      ∧ (startMessage id s).ses.st = if s.cfg.lenOf id = 0 then .readCrc else .readPayload := by
  simp [startMessage, huntSync1_sync, latchId, firstIdByte, startTransaction, shiftIn_shiftIn]

/-- The sync pair and the id begin a message of the length the mapping answers (R142, R143). -/
theorem consumes_head {s : State} {id : Word} (hst : s.ses.st = .waitSync1) (hlen : s.cfg.lenOf id ≤ s.cfg.maxLen) :
    Consumes [s.cfg.sync, s.cfg.sync, hiByte id, loByte id] s (startMessage id s) := by
  have hsecond : byteStep s.cfg.sync (huntSync1 s.cfg.sync s)
      = .next (startTransaction (huntSync1 s.cfg.sync s)) := by
    rw [huntSync1_sync]
    exact (byteStep_waitSync2 rfl _).trans (if_pos rfl ▸ rfl)
  have hlatch : byteStep (loByte id) (firstIdByte (hiByte id) (startTransaction (huntSync1 s.cfg.sync s)))
      = .next (startMessage id s) := by
    refine byteStep_readId_second rfl Fin.zero_ne_one.symm ?_
    rw [huntSync1_sync]
    simpa [firstIdByte, startTransaction, shiftIn_shiftIn] using hlen
  have hfirst : resultsOf (huntSync1 s.cfg.sync s).out = [.consumed] := by rw [huntSync1_sync]; rfl
  exact .cons (byteStep_waitSync1 hst _) hfirst <| .cons hsecond rfl <|
    .cons (byteStep_readId_first rfl rfl _) rfl <| .cons hlatch rfl <| .nil _

/-- What the payload bytes `p` leave of the state `s` that waits for them (R144). -/
structure ReadsPayload (p : List Byte) (s t : State) : Prop where
  consumes : Consumes p s t
  st : t.ses.st = .readCrc
  fcnt : t.ses.fcnt = s.ses.fcnt
  cur : t.ses.cur = s.ses.cur + p.length
  cfg : t.cfg = s.cfg
  id : t.rx.id = s.rx.id
  len : t.rx.len = s.rx.len
  inside : ∀ k < p.length, rxCell t (s.ses.cur + k) = p[k]?
  outside : ∀ a, a < s.ses.cur ∨ s.ses.cur + p.length ≤ a → rxCell t a = rxCell s a

theorem ReadsPayload.nil {s : State} (hst : s.ses.st = .readCrc) : ReadsPayload [] s s :=
  ⟨.nil s, hst, rfl, rfl, rfl, rfl, rfl, nofun, fun _ _ => rfl⟩

theorem ReadsPayload.cons {b : Byte} {p : List Byte} {s t : State} (hst : s.ses.st = .readPayload)
    (hcur : s.ses.cur < s.cfg.maxLen) (h : ReadsPayload p (storePayload b s) t) : ReadsPayload (b :: p) s t where
  consumes := .cons (byteStep_readPayload hst hcur b) rfl h.consumes
  st := h.st
  fcnt := h.fcnt
  cur := h.cur.trans (by simp only [storePayload, List.length_cons]; omega)
  cfg := h.cfg
  id := h.id
  len := h.len
  inside := fun k hk => by
    cases k with
    | zero =>
      exact (h.outside s.ses.cur (.inl (Nat.lt_succ_self _))).trans (rxCell_storePayload_same b hcur)
    | succ k =>
      have hnext : s.ses.cur + (k + 1) = (storePayload b s).ses.cur + k := by simp only [storePayload]; omega
      rw [hnext, h.inside k (Nat.lt_of_succ_lt_succ hk), List.getElem?_cons_succ]
  outside := fun a ha => by
    rw [List.length_cons] at ha
    have hout : a < (storePayload b s).ses.cur ∨ (storePayload b s).ses.cur + p.length ≤ a := by
      simp only [storePayload]; omega
    rw [h.outside a hout, rxCell_storePayload_of_ne b s (by omega)]

/-- As many payload bytes as the message still lacks are stored one after another (R144). -/
theorem readsPayload (p : List Byte) {s : State}
    (hst : s.ses.st = if s.ses.cur = s.rx.len then .readCrc else .readPayload)
    (hlen : s.ses.cur + p.length = s.rx.len) (hmax : s.rx.len ≤ s.cfg.maxLen) : ∃ t, ReadsPayload p s t := by
  induction p generalizing s with
  | nil => exact ⟨s, .nil (hst.trans (if_pos hlen))⟩
  | cons b p ih =>
    rw [List.length_cons] at hlen
    have hlen' : (storePayload b s).ses.cur + p.length = (storePayload b s).rx.len := by
      simp only [storePayload]; omega
    obtain ⟨t, ht⟩ := ih (s := storePayload b s) rfl hlen' hmax
    exact ⟨t, ht.cons (hst.trans (if_neg (by omega))) (by omega)⟩

/-! ### The last byte of a frame (R145) -/

theorem finishFrame_status (b : Byte) (s : State) :
    (finishFrame b s).rx.status = if shiftIn s.ses.facc b = s.ses.crc then .newData else .dataLost := by
  simp only [finishFrame]; split <;> rfl

/-- The result of a frame's last byte, the only output of its step. -/
theorem finishFrame_out (b : Byte) (s : State) :
    ∃ o, (finishFrame b s).out = [o]
      ∧ o.rxResult = some (if shiftIn s.ses.facc b = s.ses.crc then .accepted else .rejected) := by
  simp only [finishFrame]; split <;> exact ⟨_, rfl, rfl⟩

/-- The last operation's result is the one the ports show, unless it is `Quiet` (R175). -/
theorem shownOf_concat_rxResult (os : List Outputs) {o : Outputs} {r : RxResult} (ho : o.rxResult = some r)
    (hr : r ≠ .quiet) : (shownOf (os ++ [o])).rxResult = some r := by
  rw [shownOf_concat]
  cases r <;> cases h : (shownOf os).rxResult <;> simp_all [Outputs.merge, laterRx]

theorem resultsOf_singleton {o : Outputs} {r : RxResult} (ho : o.rxResult = some r) (hr : r ≠ .noProgress) :
    resultsOf [o] = [r] := by
  simp [resultsOf, ho, hr]

/-- A list is what is read at consecutive places that hold its elements. -/
theorem filterMap_range'_eq {α : Type} {f : Nat → Option α} {a : Nat} {l : List α}
    (h : ∀ k < l.length, f (a + k) = l[k]?) : (List.range' a l.length).filterMap f = l := by
  induction l generalizing a with
  | nil => rfl
  | cons x l ih =>
    have hx : f a = some x := h 0 (Nat.succ_pos _)
    have hl : ∀ k < l.length, f (a + 1 + k) = l[k]? := fun k hk => by
      rw [Nat.add_right_comm]
      exact h (k + 1) (Nat.succ_lt_succ hk)
    rw [List.length_cons, List.range'_succ, List.filterMap_cons_some hx, ih hl]

theorem received_eq {s : State} {p : List Byte} (h : ∀ k < p.length, rxCell s k = p[k]?) : received s p.length = p := by
  rw [received, List.range_eq_range']
  exact filterMap_range'_eq fun k hk => by rw [Nat.zero_add, h k hk]

/-- A frame of `id` and `p` up to its last byte, met in `s` while hunting, leaves `t`: the message is stored, and the
CRC of id and payload stands beside the first byte `hi` of the CRC field (R143 to R145). -/
structure HoldsFrame (id : Word) (p : List Byte) (hi : Byte) (s t : State) : Prop where
  consumes : Consumes ([s.cfg.sync, s.cfg.sync, hiByte id, loByte id] ++ p ++ [hi]) s t
  st : t.ses.st = .readCrc
  fcnt : t.ses.fcnt ≠ 0
  field : loByte t.ses.facc = hi
  crc : t.ses.crc = frameCrc s.cfg id p
  cfg : t.cfg = s.cfg
  id : t.rx.id = id
  len : t.rx.len = p.length
  inside : ∀ k < p.length, rxCell t k = p[k]?
  outside : ∀ a, p.length ≤ a → rxCell t a = rxCell s a

/-- The running CRC of a frame met while hunting covers its id and payload when the CRC field begins (R154). -/
theorem crc_of_consumes {w : List Byte} {s t : State} {id : Word} {p : List Byte} (h : Consumes w s t)
    (hs : s.ses.st = .waitSync1) (ht : t.ses.st = .readCrc) (hcfg : t.cfg = s.cfg) (hid : t.rx.id = id)
    (hcur : t.ses.cur = p.length) (hp : ∀ k < p.length, rxCell t k = p[k]?) : t.ses.crc = frameCrc s.cfg id p := by
  obtain ⟨o, hfeed, -⟩ := h
  have hrunning : DecoderCrcOk { t with out := o } :=
    decoderCrcOk_stepRule.feed hfeed (.of_hunting (by rw [hs]; rfl))
  obtain ⟨-, hcovers⟩ := hrunning
  have hcrc : t.ses.crc = crcOf t.cfg (hiByte t.rx.id :: loByte t.rx.id :: received t t.ses.cur) := hcovers (.inr ht)
  rw [hcrc, hcfg, hid, hcur, received_eq hp]
  rfl

theorem holdsFrame {s : State} {id : Word} {p : List Byte} (hst : s.ses.st = .waitSync1)
    (hlen : p.length = s.cfg.lenOf id) (hmax : p.length ≤ s.cfg.maxLen) (hi : Byte) : ∃ t, HoldsFrame id p hi s t := by
  obtain ⟨hfcnt, hcur, hses⟩ := startMessage_ses id s
  have hhead := consumes_head hst (hlen ▸ hmax)
  obtain ⟨u, hu⟩ := readsPayload p (s := startMessage id s) (by simp [hses, hcur, eq_comm]) (by simp [hcur, hlen])
    (by simpa [← hlen] using hmax)
  have hcfg : u.cfg = s.cfg := hu.cfg.trans (startMessage_cfg id s)
  have hid : u.rx.id = id := by rw [hu.id, startMessage_rx]
  have hend : u.ses.cur = p.length := by rw [hu.cur, hcur, Nat.zero_add]
  have hinside : ∀ k < p.length, rxCell u k = p[k]? := by simpa [hcur] using hu.inside
  have hbuf (a : Nat) : rxCell (startMessage id s) a = rxCell s a := rxCell_congr (by simp) (by simp) a
  have hpayload := hhead.append hu.consumes
  have hcrc := crc_of_consumes hpayload hst hu.st hcfg hid hend hinside
  exact ⟨firstCrcByte hi u, {
    consumes := hpayload.append (.cons (byteStep_readCrc_first hu.st (hu.fcnt.trans hfcnt) hi) rfl (.nil _))
    st := hu.st
    fcnt := Fin.zero_ne_one.symm
    field := by simp [firstCrcByte, shiftIn]
    crc := hcrc
    cfg := hcfg
    id := hid
    len := by rw [hlen]; exact hu.len.trans (by simp)
    inside := hinside
    outside := fun a ha => (hu.outside a (.inr (by rwa [hcur, Nat.zero_add]))).trans (hbuf a) }⟩

/-- The last byte judges the field it completes against the CRC of id and payload (R145). -/
theorem HoldsFrame.judges {id : Word} {p : List Byte} {hi : Byte} {s t : State} (h : HoldsFrame id p hi s t)
    (lo : Byte) : shiftIn t.ses.facc lo = t.ses.crc ↔ joinBytes hi lo = frameCrc s.cfg id p := by
  rw [shiftIn, h.field, h.crc]

/-- Settles O35: the frame is consumed up to its last byte, which judges it against the CRC of id and payload. -/
theorem frameIsReceived : Obligations.FrameIsReceived := by
  intro id p crc s hst hwf
  obtain ⟨hlen, hmax⟩ := length_of_wellFormed_frame hwf
  obtain ⟨u, hu⟩ := holdsFrame hst hlen hmax (hiByte crc)
  obtain ⟨o, hfeed, ho⟩ := hu.consumes.byte (byteStep_readCrc_second hu.st hu.fcnt (loByte crc))
  have hexec : exec (.frame id p crc) s = feed (([s.cfg.sync, s.cfg.sync, hiByte id, loByte id] ++ p ++ [hiByte crc])
      ++ [loByte crc]) s := congrArg (feed · s) (by simp [frameBytes])
  rw [← hexec] at hfeed
  obtain ⟨hcfg, henc, htx, hstream, hin⟩ := (OnReceiveSide.wireFrame id p crc).fields hfeed
  obtain ⟨last, hout, hresult⟩ := finishFrame_out (loByte crc) u
  have hstatus := finishFrame_status (loByte crc) u
  simp only [hu.judges, joinBytes_hi_lo] at hresult hstatus
  have hrx := finishFrame_rx (loByte crc) u
  have hbuf (a : Nat) : rxCell (finishFrame (loByte crc) u) a = rxCell u a :=
    rxCell_congr (hcfg.trans hu.cfg.symm) (by rw [hrx]) a
  refine ⟨_, hfeed, by rw [hrx]; exact hu.id, by rw [hrx]; exact hu.len, by simp [hu.cfg], hstatus, ?_, ?_,
    fun k hk => (hbuf k).trans (hu.inside k hk), fun k hk => (hbuf k).trans (hu.outside k hk), txCell_congr hcfg htx,
    hcfg, henc, htx, hstream, hin⟩
  · rw [shown, hout]
    exact shownOf_concat_rxResult o hresult (by split <;> nofun)
  · have hcount : ([s.cfg.sync, s.cfg.sync, hiByte id, loByte id] ++ p ++ [hiByte crc]).length = p.length + 5 := by
      simp only [List.length_append, List.length_cons, List.length_nil]
      omega
    rw [resultsOf_append, ho, hcount, hout, resultsOf_singleton hresult (by split <;> nofun)]

/-! ### Operations one after another (R175) -/

/-- A receive operation does not read the record of the outputs. -/
theorem OnReceiveSide.out_unread {f : State → Result} (hf : OnReceiveSide f) (s : State) (o : List Outputs) :
    f { s with out := o } = f s := by
  rw [hf s { s with out := o } ⟨rfl, rfl, rfl⟩]
  cases h : f s with
  | next t => exact congrArg Host.Outcome.next (hf.frame h).symm
  | fault e => rfl
  | refused e => rfl

/-- An encoder operation does not read the record of the outputs. -/
theorem OnEncoder.out_unread {f : State → Result} (hf : OnEncoder f) (s : State) (o : List Outputs) :
    f { s with out := o } = f s := by
  rw [hf s { s with out := o } ⟨rfl, rfl, rfl, rfl⟩]
  cases h : f s with
  | next t => exact congrArg Host.Outcome.next (hf.frame h).symm
  | fault e => rfl
  | refused e => rfl

/-- No operation reads the record of the outputs, which is no state of the block (R37). -/
theorem exec_out_unread (i : Instr) (s : State) (o : List Outputs) : exec i { s with out := o } = exec i s := by
  by_cases he : isEncoderOp i = true
  · exact (OnEncoder.exec he).out_unread s o
  · by_cases hr : isReceiveOp i = true
    · exact (OnReceiveSide.exec hr).out_unread s o
    · cases i with
      | crcInit u => cases u <;> rfl
      | crcUpd u b => cases u <;> rfl
      | sysReset => rfl
      | _ => simp [isEncoderOp, isReceiveOp] at he hr

theorem inOrder_out_unread (is : List Instr) (s : State) (o : List Outputs) :
    inOrder is { s with out := o } = inOrder is s := by
  cases is with
  | nil => rfl
  | cons i is => rw [inOrder, inOrder, exec_out_unread]

theorem inOrder_singleton (i : Instr) (s : State) : inOrder [i] s = exec i s := followedBy_quiet (exec i s)

/-- Operations in two parts: the second on the state the first left, the outputs of both in order. -/
theorem inOrder_append {is : List Instr} (js : List Instr) {s u : State} (h : inOrder is s = .next u) :
    inOrder (is ++ js) s = putBefore u.out (inOrder js u) := by
  induction is generalizing s u with
  | nil =>
    cases h
    exact (inOrder_out_unread js s []).symm.trans (putBefore_nil _).symm
  | cons i is ih =>
    obtain ⟨v, x, hv, hx, rfl⟩ := followedBy_eq_next.1 h
    rw [List.cons_append, inOrder, hv, inOrder_out_unread]
    simp only [followedBy, andThen_next, ih hx, putBefore_append]

theorem PassesAlong.inOrder {R : State → State → Prop} (hR : PassesAlong R) {is : List Instr}
    (his : ∀ i ∈ is, ∀ s t, exec i s = .next t → R s t) {s t : State} (h : inOrder is s = .next t) : R s t := by
  induction is generalizing s t with
  | nil => cases h; exact hR.quiet s
  | cons i is ih =>
    obtain ⟨u, v, hu, hv, rfl⟩ := followedBy_eq_next.1 h
    obtain ⟨hi, his⟩ := List.forall_mem_cons.1 his
    exact hR.followed (hi s u hu) (ih his hv)

/-! ### The receive side of a step goes through (R140, R172, R173) -/

theorem execSysTick_goes_through (s : State) : ∃ t, execSysTick s = .next t := by
  unfold execSysTick
  split
  · exact ⟨_, rfl⟩
  · split
    · exact ⟨_, rfl⟩
    · split <;> exact ⟨_, rfl⟩

/-- Any traffic of the receive side goes through from a state that meets the invariant: a take keeps the decoder's
state, the byte's operation is selected by it, and a tick is legal anywhere. -/
theorem receiveOps_go_through (g : Signals) {s : State} (hwf : s.cfg.Wf) (h : ReceiveOk s.cfg s.ses s.rx) :
    ∃ t, inOrder (receiveOps g s.ses.st) s = .next t := by
  obtain ⟨u, hu, hcfg, hses, hrx⟩ : ∃ u, inOrder (if g.take then [.sysTake] else []) s = .next u
      ∧ u.cfg = s.cfg ∧ u.ses = s.ses ∧ ReceiveOk u.cfg u.ses u.rx := by
    cases g.take with
    | false => exact ⟨s.quiet, rfl, rfl, rfl, h⟩
    | true => exact ⟨_, inOrder_singleton .sysTake s, rfl, rfl, h.noStatus⟩
  obtain ⟨v, hv⟩ : ∃ v, inOrder (byteOps s.ses.st g.rx) u = .next v := by
    cases g.rx with
    | notAsked => exact ⟨_, rfl⟩
    | empty => exact ⟨_, inOrder_singleton .decNobyte u⟩
    | byte b =>
      obtain ⟨v, hv⟩ := byteStep_goes_through (hcfg.symm ▸ hwf) hrx b
      rw [byteStep_eq_exec, hses] at hv
      exact ⟨v, (inOrder_singleton _ u).trans hv⟩
  obtain ⟨x, hx⟩ : ∃ x, inOrder (if g.tick then [.sysTick] else []) v = .next x := by
    cases g.tick with
    | false => exact ⟨_, rfl⟩
    | true =>
      obtain ⟨x, hx⟩ := execSysTick_goes_through v
      exact ⟨x, (inOrder_singleton .sysTick v).trans hx⟩
  have huv := (inOrder_append (byteOps s.ses.st g.rx) hu).trans (congrArg (putBefore u.out) hv)
  have hvx := (inOrder_append (if g.tick then [.sysTick] else []) huv).trans
    (congrArg (putBefore _) ((inOrder_out_unread _ v _).trans hx))
  exact ⟨_, hvx⟩

theorem isReceiveOp_of_mem_byteOps {st : DSt} {x : RxIn} {i : Instr} (h : i ∈ byteOps st x) :
    isReceiveOp i = true := by
  cases x with
  | notAsked => cases h
  | empty => rw [List.mem_singleton.1 h]; rfl
  | byte b => rw [List.mem_singleton.1 h]; exact isReceiveOp_decOp st b

theorem isReceiveOp_of_mem_receiveOps {g : Signals} {st : DSt} {i : Instr} (h : i ∈ receiveOps g st) :
    isReceiveOp i = true := by
  simp only [receiveOps, List.mem_append] at h
  obtain (h | h) | h := h
  · split at h <;> simp_all [isReceiveOp]
  · exact isReceiveOp_of_mem_byteOps h
  · split at h <;> simp_all [isReceiveOp]

/-- The two states agree in everything the encoder reads, and in the inputs. -/
def SameTransmit (s t : State) : Prop := SameEncoder s t ∧ t.inputs = s.inputs

theorem sameTransmit_passesAlong : PassesAlong SameTransmit where
  quiet := fun _ => ⟨⟨rfl, rfl, rfl, rfl⟩, rfl⟩
  followed := fun ⟨hu, hui⟩ ⟨hv, hvi⟩ =>
    ⟨⟨hv.cfg.trans hu.cfg, hv.enc.trans hu.enc, hv.txBuf.trans hu.txBuf, hv.txStream.trans hu.txStream⟩, hvi.trans hui⟩

/-- A step of signals, seen from the encoder: the receive side's operations touch nothing it reads, and its own comes
last (R11, R175). -/
theorem step_eq_encoder {s : State} {g : Signals} {rest : List Input} (hinv : Inv s)
    (hin : s.inputs = .signals g :: rest) (hrst : g.rst = false) :
    ∃ m, SameEncoder s m ∧ m.inputs = rest
      ∧ step s = putBefore m.out (inOrder (encoderOps s.enc.st g.enc) m) := by
  obtain ⟨hwf, hreceive, -, -⟩ := (inv_iff s).1 hinv
  obtain ⟨m, hm⟩ := receiveOps_go_through g (s := { s with inputs := rest }) hwf hreceive
  obtain ⟨hsame, hrest⟩ := sameTransmit_passesAlong.inOrder (fun i hi u v huv => by
    obtain ⟨hcfg, henc, htx, hstream, hinputs⟩ := (OnReceiveSide.exec (isReceiveOp_of_mem_receiveOps hi)).fields huv
    exact ⟨⟨hcfg, henc, htx, hstream⟩, hinputs⟩) hm
  refine ⟨m, ⟨hsame.cfg, hsame.enc, hsame.txBuf, hsame.txStream⟩, hrest, ?_⟩
  rw [stepPerformsRequestsInOrder s g rest hin hrst, operationsOf_eq]
  exact inOrder_append _ hm

/-! ### The bytes an encode operation still has to send (R121 to R129) -/

/-- The payload cells from the cursor on. -/
def unsent (s : State) : List Byte := (List.range' s.enc.cur (s.enc.len - s.enc.cur)).filterMap (txCell s)

/-- The rest of the frame from the payload on, `acc` the CRC of what stands before it (R127 to R129). -/
def bodyFrom (acc : Word) (s : State) : List Byte :=
  let crc := (unsent s).foldl (crcUpdate s.cfg.crcFn) acc
  unsent s ++ [hiByte crc, loByte crc]

/-- The bytes the encoder has yet to get accepted, by its state, in the order of the wire format (R31, R81). -/
def toSend (s : State) : List Byte :=
  let afterHi := crcUpdate s.cfg.crcFn s.enc.crc (hiByte s.enc.id)
  let fromId := hiByte s.enc.id :: loByte s.enc.id :: bodyFrom (crcUpdate s.cfg.crcFn afterHi (loByte s.enc.id)) s
  match s.enc.st with
  | .idle => []
  | .sync1 => s.cfg.sync :: s.cfg.sync :: fromId
  | .sync2 => s.cfg.sync :: fromId
  | .idHi => fromId
  | .idLo => loByte s.enc.id :: bodyFrom (crcUpdate s.cfg.crcFn s.enc.crc (loByte s.enc.id)) s
  | .payload => bodyFrom s.enc.crc s
  | .crcHi => [hiByte s.enc.crc, loByte s.enc.crc]
  | .crcLo => [loByte s.enc.crc]

theorem unsent_congr {s t : State} (h : SameEncoder s t) : unsent t = unsent s := by
  simp only [unsent, h.enc, funext (txCell_congr h.cfg h.txBuf)]

theorem toSend_congr {s t : State} (h : SameEncoder s t) : toSend t = toSend s := by
  simp only [toSend, bodyFrom, unsent_congr h, h.enc, h.cfg]

/-- Nothing is left to send exactly when the encoder is idle. -/
theorem toSend_eq_nil_iff {s : State} : toSend s = [] ↔ s.enc.st = .idle := by
  cases hst : s.enc.st <;> simp [toSend, hst, bodyFrom]

theorem unsent_eq_nil {s : State} (h : s.enc.cur = s.enc.len) : unsent s = [] := by
  simp [unsent, h]

/-- After the id or a payload byte, the rest is the body from the cursor on, whichever state comes next (R126, R127). -/
theorem toSend_eq_bodyFrom {s : State} (h : s.enc.st = if s.enc.cur = s.enc.len then .crcHi else .payload) :
    toSend s = bodyFrom s.enc.crc s := by
  split at h
  · next hend => simp [toSend, h, bodyFrom, unsent_eq_nil hend]
  · simp [toSend, h]

/-- The byte `b` sent in `s` leaves `t` (R66, R121): it enters the stream and is no longer to be sent, and the operation
is done when it was the last. -/
structure Sends (b : Byte) (s t : State) : Prop where
  stream : t.txStream = s.txStream ++ [b]
  left : toSend s = b :: toSend t
  retry : t.enc.retry = s.enc.retry
  out : t.out = [putOut (if t.enc.st = .idle then .done else .progress) (some b)]

/-- A put sends the byte its state offers when its own update leaves the rest to send. -/
theorem whenPut_sends {st : ESt} {s : State} {k : Byte → State → State} {b : Byte} (hst : s.enc.st = st)
    (hb : offeredByte s = some b) (h : Sends b s (k b { s with txStream := s.txStream ++ [b] })) :
    ∃ b t, whenPut st s k = .next t ∧ Sends b s t :=
  ⟨b, _, whenPut_eq_next.2 ⟨hst, b, hb, rfl⟩, h⟩

section
variable {s : State}

theorem putSync1_sends (hst : s.enc.st = .sync1) : ∃ b t, execEncPutSync1 s = .next t ∧ Sends b s t :=
  whenPut_sends hst (b := s.cfg.sync) (by simp [offeredByte, hst])
    ⟨rfl, by simp only [toSend, hst]; rfl, rfl, rfl⟩

theorem putSync2_sends (hst : s.enc.st = .sync2) : ∃ b t, execEncPutSync2 s = .next t ∧ Sends b s t :=
  whenPut_sends hst (b := s.cfg.sync) (by simp [offeredByte, hst])
    ⟨rfl, by simp only [toSend, hst]; rfl, rfl, rfl⟩

theorem putIdHi_sends (hst : s.enc.st = .idHi) : ∃ b t, execEncPutIdHi s = .next t ∧ Sends b s t :=
  whenPut_sends hst (b := hiByte s.enc.id) (by simp [offeredByte, hst])
    ⟨rfl, by simp only [toSend, hst]; rfl, rfl, rfl⟩

theorem putCrcHi_sends (hst : s.enc.st = .crcHi) : ∃ b t, execEncPutCrcHi s = .next t ∧ Sends b s t :=
  whenPut_sends hst (b := hiByte s.enc.crc) (by simp [offeredByte, hst])
    ⟨rfl, by simp only [toSend, hst], rfl, rfl⟩

theorem putCrcLo_sends (hst : s.enc.st = .crcLo) : ∃ b t, execEncPutCrcLo s = .next t ∧ Sends b s t :=
  whenPut_sends hst (b := loByte s.enc.crc) (by simp [offeredByte, hst])
    ⟨rfl, by simp only [toSend, hst], rfl, rfl⟩

theorem putIdLo_sends (hst : s.enc.st = .idLo) (hcur : s.enc.cur = 0) :
    ∃ b t, execEncPutIdLo s = .next t ∧ Sends b s t := by
  have hs : toSend s = loByte s.enc.id :: bodyFrom (crcUpdate s.cfg.crcFn s.enc.crc (loByte s.enc.id)) s := by
    simp only [toSend, hst]
  have hend : (if s.enc.len = 0 then ESt.crcHi else .payload) = if s.enc.cur = s.enc.len then .crcHi else .payload := by
    simp only [hcur, eq_comm]
  exact whenPut_sends hst (b := loByte s.enc.id) (by simp [offeredByte, hst]) {
    stream := rfl
    left := by
      refine hs.trans (congrArg (List.cons _) ?_)
      symm
      exact toSend_eq_bodyFrom hend
    retry := rfl
    out := by by_cases h0 : s.enc.len = 0 <;> simp [h0] }

/-- A payload byte leaves the cells after it unsent (R127). -/
theorem unsent_eq_cons {b : Byte} (hb : txCell s s.enc.cur = some b) (hcur : s.enc.cur < s.enc.len) :
    unsent s = b :: (List.range' (s.enc.cur + 1) (s.enc.len - (s.enc.cur + 1))).filterMap (txCell s) := by
  rw [unsent, show s.enc.len - s.enc.cur = s.enc.len - (s.enc.cur + 1) + 1 by omega, List.range'_succ,
    List.filterMap_cons_some hb]

theorem putPay_sends (hst : s.enc.st = .payload) (hcur : s.enc.cur < s.enc.len) (hlen : s.enc.len ≤ s.cfg.maxLen) :
    ∃ b t, execEncPutPay s = .next t ∧ Sends b s t := by
  obtain ⟨b, hb⟩ : ∃ b, txCell s s.enc.cur = some b := ⟨_, if_pos (Nat.lt_of_lt_of_le hcur hlen)⟩
  have hs : toSend s = bodyFrom s.enc.crc s := by simp only [toSend, hst]
  rw [bodyFrom, unsent_eq_cons hb hcur] at hs
  exact whenPut_sends hst (b := b) (by simp [offeredByte, hst, hb]) {
    stream := rfl
    left := by
      refine hs.trans (congrArg (List.cons b) ?_)
      symm
      exact toSend_eq_bodyFrom rfl
    retry := rfl
    out := by by_cases h0 : s.enc.cur + 1 = s.enc.len <;> simp [h0] }

/-- An accepted byte is sent, in every state of the encoder that offers one (R123 to R129). -/
theorem exec_put_sends (h : TransmitOk s.cfg s.enc s.txBuf) {put : Instr} (hput : putOp s.enc.st = some put) :
    ∃ b t, exec put s = .next t ∧ Sends b s t := by
  cases hst : s.enc.st <;> rw [hst] at hput <;> cases hput
  case sync1 => exact putSync1_sends hst
  case sync2 => exact putSync2_sends hst
  case idHi => exact putIdHi_sends hst
  case idLo => exact putIdLo_sends hst (h.curZero hst)
  case payload => exact putPay_sends hst (h.curInside hst) h.lenLe
  case crcHi => exact putCrcHi_sends hst
  case crcLo => exact putCrcLo_sends hst

end

/-! ### An encode operation in flight (R130, R132) -/

/-- After a start in `Idle`, the whole frame is to be sent (R120, R132). -/
theorem toSend_of_started {s : State} {p : List Byte} (hst : s.enc.st = .sync1) (hcur : s.enc.cur = 0)
    (hcrc : s.enc.crc = s.cfg.crcInit) (hlen : s.enc.len = p.length) (hp : ∀ k < p.length, txCell s k = p[k]?) :
    toSend s = frameOf s.cfg s.enc.id p := by
  have hunsent : unsent s = p := by
    rw [unsent, hcur, hlen, Nat.sub_zero]
    exact filterMap_range'_eq fun k hk => by rw [Nat.zero_add, hp k hk]
  simp [toSend, hst, bodyFrom, hunsent, hcrc, frameOf, frameBytes, frameCrc, crcOf]

theorem length_frameOf (c : Config) (id : Word) (p : List Byte) : (frameOf c id p).length = p.length + 6 := by
  simp [frameOf, frameBytes]

/-- From `s` to `t` the Transport gave the answers `as`: each accept took one of the bytes to send, each decline a unit
of the budget. -/
structure Progress (as : List Bool) (s t : State) : Prop where
  cfg : t.cfg = s.cfg
  stream : t.txStream = s.txStream ++ (toSend s).take (as.count true)
  left : toSend t = (toSend s).drop (as.count true)
  retry : t.enc.retry = s.enc.retry + as.count false

theorem Progress.of_same {s t : State} (h : SameEncoder s t) : Progress [] s t :=
  ⟨h.cfg, by simp [h.txStream], by simp [toSend_congr h], by simp [h.enc]⟩

theorem Progress.trans {as bs : List Bool} {s t u : State} (h : Progress as s t) (h' : Progress bs t u) :
    Progress (as ++ bs) s u where
  cfg := h'.cfg.trans h.cfg
  stream := by rw [h'.stream, h.stream, h.left, List.append_assoc, List.count_append, List.take_add]
  left := by rw [h'.left, h.left, List.drop_drop, List.count_append]
  retry := by rw [h'.retry, h.retry, List.count_append, Nat.add_assoc]

theorem Progress.of_sends {b : Byte} {s t : State} (h : Sends b s t) (hcfg : t.cfg = s.cfg) : Progress [true] s t :=
  ⟨hcfg, by simp [h.stream, h.left], by simp [h.left], by simp [h.retry]⟩

/-- A decline inside the budget costs one unit of it and sends nothing (R130). -/
theorem exec_decline_progress {s : State} (h : TransmitOk s.cfg s.enc s.txBuf) (hst : s.enc.st ≠ .idle)
    (hretry : s.enc.retry < s.cfg.retryBudget) : ∃ t, execEncDecline s = .next t ∧ Progress [false] s t := by
  obtain ⟨b, hb⟩ := offeredByte_isSome hst fun hp => Nat.lt_of_lt_of_le (h.curInside hp) h.lenLe
  refine ⟨{ s with enc := { s.enc with retry := s.enc.retry + 1 }, out := [putOut .retry (some b)] }, ?_, ?_⟩
  · simp [execEncDecline, hst, hb, hretry]
  · exact ⟨rfl, (List.append_nil _).symm, rfl, rfl⟩

theorem isEncoderOp_encoderOpFor (st : ESt) (e : EncIn) : isEncoderOp (encoderOpFor st e) = true := by
  unfold encoderOpFor
  split
  · split <;> rfl
  · next hput =>
    split
    · exact isEncoderOp_of_putOp hput
    · rfl

/-- An encoder that is not idle has a byte to put (R93). -/
theorem exists_putOp : ∀ {st : ESt}, st ≠ .idle → ∃ put, putOp st = some put
  | .idle, h => absurd rfl h
  | .sync1, _ | .sync2, _ | .idHi, _ | .idLo, _ | .payload, _ | .crcHi, _ | .crcLo, _ => ⟨_, rfl⟩

/-- An encoder step of an operation in flight, a decline inside the budget; the last byte's result is `Done`. -/
theorem exec_encoderOpFor_progress {s : State} (h : TransmitOk s.cfg s.enc s.txBuf) (hst : s.enc.st ≠ .idle) (e : EncIn)
    (hbudget : s.enc.retry + [e.ready].count false ≤ s.cfg.retryBudget) :
    ∃ t, exec (encoderOpFor s.enc.st e) s = .next t ∧ Progress [e.ready] s t
      ∧ (e.ready = true → t.enc.st = .idle → ∃ b, t.out = [putOut .done (some b)]) := by
  obtain ⟨put, hput⟩ := exists_putOp hst
  simp only [encoderOpFor, hput]
  cases hready : e.ready with
  | true =>
    obtain ⟨b, t, ht, hsends⟩ := exec_put_sends h hput
    exact ⟨t, ht, .of_sends hsends ((OnEncoder.exec (isEncoderOp_of_putOp hput)).cfg ht),
      fun _ hidle => ⟨b, by rw [hsends.out, if_pos hidle]⟩⟩
  | false =>
    rw [hready] at hbudget
    obtain ⟨t, ht, hprogress⟩ := exec_decline_progress h hst hbudget
    exact ⟨t, ht, hprogress, nofun⟩

theorem answersIn_append (gs hs : List Signals) : answersIn (gs ++ hs) = answersIn gs ++ answersIn hs := by
  simp [answersIn]

/-- A step of an operation in flight: whatever the receive side does beside it, the encoder makes its progress. -/
theorem step_progress {s : State} {g : Signals} {rest : List Input} (hinv : Inv s)
    (hin : s.inputs = .signals g :: rest) (hrst : g.rst = false) (hst : s.enc.st ≠ .idle)
    (hbudget : s.enc.retry + (answersIn [g]).count false ≤ s.cfg.retryBudget) :
    ∃ t, step s = .next t ∧ t.inputs = rest ∧ Progress (answersIn [g]) s t
      ∧ (answersIn [g] = [true] → t.enc.st = .idle → (shown t).txResult = some .done) := by
  obtain ⟨m, hsame, hrest, hstep⟩ := step_eq_encoder hinv hin hrst
  obtain ⟨-, -, htransmit, -⟩ := (inv_iff s).1 hinv
  cases henc : g.enc with
  | none =>
    have hanswers : answersIn [g] = [] := by simp [answersIn, henc]
    rw [hanswers]
    rw [henc] at hstep
    exact ⟨_, hstep, hrest, .of_same ⟨hsame.cfg, hsame.enc, hsame.txBuf, hsame.txStream⟩, nofun⟩
  | some e =>
    have hanswers : answersIn [g] = [e.ready] := by simp [answersIn, henc]
    rw [hanswers] at hbudget ⊢
    rw [henc, encoderOps, inOrder_singleton, ← hsame.enc] at hstep
    rw [← hsame.enc, ← hsame.cfg] at hbudget
    rw [← hsame.enc, ← hsame.cfg, ← hsame.txBuf] at htransmit
    obtain ⟨v, hv, hprogress, hdone⟩ := exec_encoderOpFor_progress htransmit (hsame.enc ▸ hst) e hbudget
    obtain ⟨-, -, -, -, hinputs⟩ := (OnEncoder.exec (isEncoderOp_encoderOpFor m.enc.st e)).fields hv
    rw [hv, putBefore_next] at hstep
    have hwhole := (Progress.of_same hsame).trans hprogress
    refine ⟨_, hstep, hinputs.trans hrest, ⟨hwhole.cfg, hwhole.stream, hwhole.left, hwhole.retry⟩, fun hr hidle => ?_⟩
    obtain ⟨b, hout⟩ := hdone (List.singleton_inj.1 hr) hidle
    rw [shown, hout, shownOf_concat]
    rfl

/-! ### Runs (R37) -/

/-- A run is its first step, then the rest of it. -/
theorem run_succ (k : Nat) (s : State) : run (k + 1) s = andThen (step s) (run k) := by
  simp only [run, Host.Core.run]
  change _ = andThen (core.step s) (run k)
  cases core.step s <;> rfl

theorem run_succ_of_step {s t : State} (h : step s = .next t) (k : Nat) : run (k + 1) s = run k t := by
  rw [run_succ, h, andThen_next]

/-- A run in two parts. -/
theorem run_add {s t : State} {k : Nat} (h : run k s = .next t) (n : Nat) : run (k + n) s = run n t := by
  induction k generalizing s with
  | zero =>
    cases h
    rw [Nat.zero_add]
  | succ k ih =>
    obtain ⟨u, hu, hk⟩ := andThen_eq_next.1 ((run_succ k s).symm.trans h)
    rw [Nat.add_right_comm, run_succ_of_step hu, ih hk]

/-- Steps of an operation in flight that do not complete it: the declines inside the budget, the accepts fewer than the
bytes to send (R130, R132). -/
theorem run_progress {gs : List Signals} {s : State} {rest : List Input} (hinv : Inv s)
    (hin : s.inputs = gs.map .signals ++ rest) (hrst : ∀ g ∈ gs, g.rst = false)
    (haccepts : (answersIn gs).count true < (toSend s).length)
    (hbudget : s.enc.retry + (answersIn gs).count false ≤ s.cfg.retryBudget) :
    ∃ t, run gs.length s = .next t ∧ t.inputs = rest ∧ Inv t ∧ Progress (answersIn gs) s t := by
  induction gs generalizing s with
  | nil => exact ⟨s, rfl, hin, hinv, .of_same ⟨rfl, rfl, rfl, rfl⟩⟩
  | cons g gs ih =>
    obtain ⟨hg, hgs⟩ := List.forall_mem_cons.1 hrst
    have hsplit : answersIn (g :: gs) = answersIn [g] ++ answersIn gs := answersIn_append [g] gs
    rw [hsplit, List.count_append] at haccepts hbudget
    have hst : s.enc.st ≠ .idle := fun hidle => by
      rw [toSend_eq_nil_iff.2 hidle] at haccepts
      exact Nat.not_lt_zero _ haccepts
    obtain ⟨u, hu, hrest, hprogress, -⟩ := step_progress hinv hin hg hst (by omega)
    have hleft : (toSend u).length = (toSend s).length - (answersIn [g]).count true := by
      rw [hprogress.left, List.length_drop]
    have hretry := hprogress.retry
    obtain ⟨t, ht, hrest', hinv', hprogress'⟩ := ih (stepKeepsTheInvariant s u hinv hu) hrest hgs (by omega)
      (by rw [hprogress.cfg]; omega)
    exact ⟨t, (run_succ_of_step hu _).trans ht, hrest', hinv', hsplit ▸ hprogress.trans hprogress'⟩

/-- The start of an encode operation, whatever the receive side does beside it (R120). -/
theorem step_starts {s : State} {g : Signals} {rest : List Input} {id : Word} {p : List Byte} {r : Bool} (hinv : Inv s)
    (hst : s.enc.st = .idle) (hlen : p.length ≤ s.cfg.maxLen) (hp : ∀ k < p.length, txCell s k = p[k]?)
    (hin : s.inputs = .signals g :: rest) (hrst : g.rst = false)
    (henc : g.enc = some { start := true, id := id, len := p.length, ready := r }) :
    ∃ t, step s = .next t ∧ t.inputs = rest ∧ t.cfg = s.cfg ∧ t.txStream = s.txStream ∧ t.enc.retry = 0
      ∧ toSend t = frameOf s.cfg id p := by
  obtain ⟨m, hsame, hrest, hstep⟩ := step_eq_encoder hinv hin hrst
  have hop : inOrder (encoderOps s.enc.st g.enc) m = execEncStart id p.length m := by
    rw [henc, hst]
    exact inOrder_singleton (.encStart id p.length) m
  rw [hop, execEncStart, if_pos (hsame.enc ▸ hst), if_pos (hsame.cfg ▸ hlen)] at hstep
  refine ⟨_, hstep, hrest, hsame.cfg, hsame.txStream, rfl, ?_⟩
  rw [← hsame.cfg]
  refine toSend_of_started rfl rfl rfl rfl fun k hk => ?_
  exact (txCell_congr hsame.cfg hsame.txBuf k).trans (hp k hk)

/-- The last of the signals carries an answer: they are the ones before it, and it. -/
theorem eq_concat_of_endsWithAnswer {gs : List Signals} {a : Bool} (h : endsWithAnswer gs a) :
    ∃ hs g, gs = hs ++ [g] ∧ answersIn [g] = [a] := by
  obtain rfl | ⟨hs, g, rfl⟩ := List.eq_nil_or_concat' gs
  · cases h
  · refine ⟨hs, g, rfl, ?_⟩
    have hg : g.enc.map (fun e => e.ready) = some a := by simpa [endsWithAnswer] using h
    simp [answersIn, hg]

/-- The step that takes the last byte completes the operation (R129, R132). -/
theorem step_completes {s : State} {g : Signals} {rest : List Input} (hinv : Inv s)
    (hin : s.inputs = .signals g :: rest) (hrst : g.rst = false) (hanswer : answersIn [g] = [true])
    (hleft : (toSend s).length = 1) (hbudget : s.enc.retry ≤ s.cfg.retryBudget) :
    ∃ t, step s = .next t ∧ t.txStream = s.txStream ++ toSend s ∧ (shown t).txResult = some .done
      ∧ t.enc.st = .idle := by
  have hst : s.enc.st ≠ .idle := fun hidle => by simp [toSend_eq_nil_iff.2 hidle] at hleft
  obtain ⟨t, ht, -, hprogress, hdone⟩ := step_progress hinv hin hrst hst (by simpa [hanswer] using hbudget)
  rw [hanswer] at hprogress
  have hstream : t.txStream = s.txStream ++ (toSend s).take 1 := hprogress.stream
  have hsend : toSend t = (toSend s).drop 1 := hprogress.left
  have hidle : t.enc.st = .idle := toSend_eq_nil_iff.1 (by rw [hsend, List.drop_of_length_le hleft.le])
  exact ⟨t, ht, by rw [hstream, List.take_of_length_le hleft.le], hdone hanswer hidle, hidle⟩

/-- Settles O25: the start puts the frame in line, each accept takes a byte of it, and the last one completes it. -/
theorem encodeOperationSendsTheFrame : Obligations.EncodeOperationSendsTheFrame := by
  intro s id p r g gs rest hinv hst hlen hp hin hrst henc hrsts haccepts hends hbudget
  obtain ⟨hs, last, rfl, hlast⟩ := eq_concat_of_endsWithAnswer hends
  simp only [answersIn_append, hlast, List.count_append] at haccepts hbudget
  have haccepts : (answersIn hs).count true = p.length + 5 := Nat.succ.inj haccepts
  obtain ⟨hrsts, hrstl⟩ := List.forall_mem_append.1 hrsts
  obtain ⟨u, hu, huin, hucfg, hustream, huretry, husend⟩ := step_starts hinv hst hlen hp hin hrst henc
  have hframe : (toSend u).length = p.length + 6 := by rw [husend, length_frameOf]
  obtain ⟨v, hv, hvin, hvinv, hprogress⟩ := run_progress (rest := .signals last :: rest)
    (stepKeepsTheInvariant s u hinv hu) (by rw [huin]; simp) hrsts (by omega) (by rw [huretry, hucfg]; omega)
  have hvleft : (toSend v).length = 1 := by rw [hprogress.left, List.length_drop]; omega
  obtain ⟨t, ht, hstream, hdone, hidle⟩ := step_completes hvinv hvin (hrstl last (by simp)) hlast hvleft
    (by rw [hprogress.retry, hprogress.cfg, huretry, hucfg]; omega)
  refine ⟨t, ?_, ?_, hdone, hidle⟩
  · rw [run_succ_of_step hu, List.length_append]
    exact (run_add hv 1).trans ((run_succ_of_step ht 0).trans rfl)
  · rw [hstream, hprogress.stream, hprogress.left, List.append_assoc, List.take_append_drop, hustream, husend]

end Sys2Proof.Machine
end

section
/-! Statements of 40_crc.md: the CRC Engine's operations (O9 to O11), the function they compute (O12 to O16), and the
rejection of every single-bit error (O41). -/

namespace Sys2Proof.Machine

/-! ### The division of R112 -/

/-- The byte folded into the high half, then eight shifts (R112). -/
theorem crcDivide_eq_iterate (poly acc : Word) (b : Byte) :
    crcDivide poly acc b = (crcShift poly)^[8] (acc ^^^ (b ++ 0#8)) := rfl

/-- One shift is linear: the polynomial is added as often as a top bit is shifted out. -/
theorem crcShift_xor (poly x y : Word) : crcShift poly (x ^^^ y) = crcShift poly x ^^^ crcShift poly y := by
  simp only [crcShift, BitVec.getLsbD_xor, BitVec.shiftLeft_xor_distrib]
  cases x.getLsbD 15 with
  | false => cases y.getLsbD 15 <;> simp [BitVec.xor_assoc]
  | true =>
    cases y.getLsbD 15 with
    | false => simp; ac_rfl
    | true =>
      have hcancel (u v : Word) : u ^^^ v = (u ^^^ poly) ^^^ (v ^^^ poly) := by
        rw [BitVec.xor_assoc u, BitVec.xor_comm poly, BitVec.xor_assoc v, BitVec.xor_self, BitVec.xor_zero]
      simp [← hcancel]

/-- Settles O13: folding in the byte is linear, and so is each shift. -/
theorem crcUpdateIsLinear : Obligations.CrcUpdateIsLinear := by
  intro poly a c b d
  have hbyte : (b ^^^ d) ++ 0#8 = (b ++ 0#8) ^^^ (d ++ 0#8) := by rw [BitVec.xor_append, BitVec.xor_self]
  have hfold : (a ^^^ c) ^^^ ((b ^^^ d) ++ 0#8) = (a ^^^ (b ++ 0#8)) ^^^ (c ^^^ (d ++ 0#8)) := by
    rw [hbyte]; ac_rfl
  rw [crcDivide_eq_iterate, hfold]
  exact Function.Semiconj₂.iterate (crcShift_xor poly) 8 _ _

/-! ### The byte-at-a-time form (R114) -/

/-- The correction of R114 for the byte that leaves the accumulator. -/
def crcByteTerm (x0 : Byte) : Word :=
  let x : Word := (x0 ^^^ (x0 >>> 4)).zeroExtend 16
  (x <<< 12) ^^^ (x <<< 5) ^^^ x

/-- Only the high byte of the accumulator meets the new byte; the low byte goes in beside it. -/
theorem crcDivide_eq_low_xor_high (poly acc : Word) (b : Byte) :
    crcDivide poly acc b = crcDivide poly (0#8 ++ loByte acc) 0#8 ^^^ crcDivide poly 0#16 (hiByte acc ^^^ b) := by
  have hsplit : acc ^^^ (b ++ 0#8) = (0#8 ++ loByte acc) ^^^ ((hiByte acc ^^^ b) ++ 0#8) := by
    calc acc ^^^ (b ++ 0#8) = (hiByte acc ++ loByte acc) ^^^ (b ++ 0#8) := by
          rw [show hiByte acc ++ loByte acc = acc from joinBytes_hi_lo acc]
      _ = _ := by rw [BitVec.xor_append, BitVec.xor_append, BitVec.zero_xor]
  rw [← crcUpdateIsLinear, BitVec.xor_zero, BitVec.zero_xor, crcDivide_eq_iterate, hsplit]
  rfl

/-- Eight shifts move the low byte up: no polynomial is added on the way. -/
theorem crcDivide_low : ∀ lo : Byte, crcDivide 0x1021 (0#8 ++ lo) 0#8 = lo ++ 0#8 := by decide

/-- Eight shifts turn the high byte into the correction. -/
theorem crcDivide_high : ∀ x : Byte, crcDivide 0x1021 0#16 x = crcByteTerm x := by decide

theorem shiftLeft_eight (acc : Word) : acc <<< 8 = loByte acc ++ 0#8 :=
  BitVec.shiftLeft_eq_concat_of_lt (by decide)

/-- The low byte moves up, and the byte that leaves the accumulator is corrected for beside it. -/
theorem crcDivide_eq_byteForm (acc : Word) (b : Byte) :
    crcDivide 0x1021#16 acc b = (acc <<< 8) ^^^ crcByteTerm (hiByte acc ^^^ b) := by
  rw [shiftLeft_eight, ← crcDivide_low, ← crcDivide_high]
  exact crcDivide_eq_low_xor_high _ acc b

/-- Settles O12: the accumulator's low byte and high byte, each by its own table of 256 values. -/
theorem crcByteFormAgrees : Obligations.CrcByteFormAgrees := by
  intro acc b
  refine (crcDivide_eq_byteForm acc b).trans ?_
  simp only [crcByteTerm, BitVec.xor_assoc]

/-! ### The update is one to one (R116 b) -/

/-- A shift adds nothing to the lowest bit, so the polynomial's lowest bit tells whether the top bit was set. -/
theorem crcShift_eq_zero {t : Word} (h : crcShift 0x1021 t = 0#16) : t = 0#16 := by
  have hlow := congrArg (BitVec.getLsbD · 0) h
  cases htop : t.getLsbD 15 with
  | true => simp [crcShift, htop] at hlow
  | false =>
    have hshift : t <<< 1 = 0#16 := by rwa [crcShift, htop, if_neg Bool.false_ne_true] at h
    refine BitVec.eq_of_getLsbD_eq fun i hi => ?_
    by_cases h15 : i = 15
    · rw [h15, htop]; rfl
    · simpa [BitVec.getLsbD_eq_getElem hi, show i + 1 < 16 by omega] using congrArg (BitVec.getLsbD · (i + 1)) hshift

theorem crcShift_injective : Function.Injective (crcShift 0x1021) := fun x y h =>
  BitVec.xor_eq_zero_iff.1 <| crcShift_eq_zero <| by rw [crcShift_xor, h, BitVec.xor_self]

theorem crcDivide_injective_acc (b : Byte) : Function.Injective fun acc => crcDivide 0x1021 acc b := fun _ _ h =>
  (BitVec.xor_left_inj _).1 (crcShift_injective.iterate 8 h)

theorem crcDivide_injective_byte (acc : Word) : Function.Injective (crcDivide 0x1021 acc) := fun b d h => by
  have hbytes : b ++ 0#8 = d ++ 0#8 := (BitVec.xor_right_inj acc).1 (crcShift_injective.iterate 8 h)
  have hhigh := congrArg (BitVec.extractLsb' 8 8) hbytes
  rwa [BitVec.extractLsb'_append_eq_left, BitVec.extractLsb'_append_eq_left] at hhigh

/-- Settles O14: each shift is one to one, and so is folding in the accumulator or the byte. -/
theorem crcUpdateIsBijective : Obligations.CrcUpdateIsBijective :=
  ⟨fun b => Finite.injective_iff_bijective.1 (crcDivide_injective_acc b), crcDivide_injective_byte⟩

/-! ### One changed byte (R116 c) -/

/-- Under the division of decision D1 a message's CRC is one to one in the seed (R113, R116 b). -/
theorem foldl_crcDivide_injective (m : List Byte) : Function.Injective fun acc => m.foldl (crcDivide 0x1021) acc := by
  induction m with
  | nil => exact Function.injective_id
  | cons b m ih => exact ih.comp (crcDivide_injective_acc b)

theorem crcOf_division {c : Config} (h : c.crcFn = .division 0x1021) (m : List Byte) :
    crcOf c m = m.foldl (crcDivide 0x1021) c.crcInit := by
  rw [crcOf, h]; rfl

/-- Settles O15: the bytes before the changed one leave one accumulator, it takes the two bytes to two, and the bytes
after keep them apart. -/
theorem oneChangedByteChangesTheCrc : Obligations.OneChangedByteChangesTheCrc := by
  intro c m j b hfn hj hne heq
  rw [List.getElem?_eq_getElem hj] at hne
  have hm : m = m.take j ++ m[j] :: m.drop (j + 1) := by simp
  rw [crcOf_division hfn, crcOf_division hfn, List.set_eq_take_append_cons_drop, if_pos hj] at heq
  conv at heq => rhs; rw [hm]
  rw [List.foldl_append, List.foldl_append, List.foldl_cons, List.foldl_cons] at heq
  have hb := crcDivide_injective_byte _ (foldl_crcDivide_injective _ heq)
  exact hne (congrArg some hb.symm)

/-! ### The engine's operations (R111, R112) -/

/-- Settles O9: the operation is that update, and the accumulator reads back what was written. -/
theorem crcInitSeedsTheAccumulator : Obligations.CrcInitSeedsTheAccumulator := fun u s =>
  ⟨rfl, fun ⟨_, hinit, _⟩ => (accOf_withAcc u s.cfg.crcInit s).trans hinit⟩

/-- A sequence of shifts is the shift iterated, as far as it goes. -/
theorem eq_iterate_of_shifts {t : Nat → Word} {n : Nat} {poly : Word}
    (h : ∀ k < n, t (k + 1) = crcShift poly (t k)) : t n = (crcShift poly)^[n] (t 0) := by
  induction n with
  | zero => rfl
  | succ n ih =>
    rw [h n (Nat.lt_succ_self n), Function.iterate_succ_apply', ih fun k hk => h k (Nat.lt_succ_of_lt hk)]

/-- Settles O10: the rule's sequence is the eight shifts of the division. -/
theorem crcUpdDividesByThePolynomial : Obligations.CrcUpdDividesByThePolynomial := by
  intro u b s t hfn h0 hshift
  have ht : t 8 = crcUpdate s.cfg.crcFn (accOf u s) b := by
    rw [eq_iterate_of_shifts hshift, h0, hfn]; rfl
  rw [ht]
  rfl

/-- Settles O11: both operations write one accumulator and clear the outputs. -/
theorem crcOperationsChangeOneAccumulator : Obligations.CrcOperationsChangeOneAccumulator := by
  intro i u s t hi ht
  obtain ⟨v, rfl⟩ : ∃ v, t = { withAcc u v s with out := [] } := by
    obtain rfl | ⟨b, rfl⟩ := hi <;> cases ht <;> exact ⟨_, rfl⟩
  have hcfg := withAcc_cfg u v s
  have hbuf : (withAcc u v s).rx.buf = s.rx.buf := congrArg RxMessage.buf (withAcc_rx u v s)
  refine ⟨hcfg, withAcc_rx u v s, withAcc_txBuf u v s, withAcc_txStream u v s, withAcc_inputs u v s, ?_, ?_,
    fun a => ⟨rxCell_congr hcfg hbuf a, txCell_congr hcfg (withAcc_txBuf u v s) a⟩⟩
  · rintro rfl; exact ⟨rfl, rfl⟩
  · rintro rfl; exact ⟨rfl, rfl⟩

/-- Settles O16: the seed and the division are decision D1's, and each value is computed in the byte-at-a-time form. -/
theorem crcCheckValues : Obligations.CrcCheckValues := by
  rintro c ⟨-, hinit, hfn⟩
  simp [crcOf_division hfn, hinit, crcDivide_eq_byteForm, crcByteTerm, hiByte]

/-! ### What stands beside the bytes of a delivery (R187): the decoder's side -/

/-- The two states agree in everything a byte step reads: a take changes the status alone, a tick that does not fire the
counter alone. -/
structure SameReading (s t : State) : Prop where
  cfg : t.cfg = s.cfg
  ses : ∃ n, t.ses = { s.ses with wd := n }
  rx : ∃ v, t.rx = { s.rx with status := v }

theorem SameReading.refl (s : State) : SameReading s s := ⟨rfl, ⟨_, rfl⟩, ⟨_, rfl⟩⟩

theorem SameReading.trans {s t u : State} (h : SameReading s t) (h' : SameReading t u) : SameReading s u := by
  obtain ⟨n, hn⟩ := h.ses
  obtain ⟨v, hv⟩ := h.rx
  obtain ⟨n', hn'⟩ := h'.ses
  obtain ⟨v', hv'⟩ := h'.rx
  exact ⟨h'.cfg.trans h.cfg, ⟨n', by rw [hn', hn]⟩, ⟨v', by rw [hv', hv]⟩⟩

@[simp] theorem huntSync1_cfg (b : Byte) (s : State) : (huntSync1 b s).cfg = s.cfg := by
  unfold huntSync1; split <;> rfl

@[simp] theorem finishFrame_cfg (b : Byte) (s : State) : (finishFrame b s).cfg = s.cfg := by
  simp only [finishFrame]; split <;> rfl

/-- The second byte of the id goes through only when the length answered fits the buffer (R143, U6). -/
theorem lenOf_le_of_byteStep {b : Byte} {s t : State} (hst : s.ses.st = .readId) (h0 : s.ses.fcnt ≠ 0)
    (h : byteStep b s = .next t) : s.cfg.lenOf (shiftIn s.ses.facc b) ≤ s.cfg.maxLen := by
  by_contra hlen
  simp [byteStep, hst, execDecId, h0, completeId, hlen] at h

/-- A byte step that goes through in one goes through in the other, and leaves the two in agreement. -/
theorem SameReading.byteStep {b : Byte} {s s' t : State} (h : SameReading s s') (ht : byteStep b s = .next t) :
    ∃ t', byteStep b s' = .next t' ∧ SameReading t t' := by
  obtain ⟨hcfg, ⟨n, hses⟩, ⟨v, hrx⟩⟩ := h
  have hst' : s'.ses.st = s.ses.st := by rw [hses]
  have hfcnt' : s'.ses.fcnt = s.ses.fcnt := by rw [hses]
  have hhunt : SameReading (huntSync1 b s) (huntSync1 b s') :=
    ⟨by simp [hcfg], ⟨n, by simp [huntSync1_ses, hcfg, hses]⟩, ⟨v, by simp [hrx]⟩⟩
  cases hst : s.ses.st with
  | waitSync1 =>
    rw [byteStep_waitSync1 hst] at ht
    cases ht
    exact ⟨_, byteStep_waitSync1 (hst'.trans hst) b, hhunt⟩
  | waitSync2 =>
    rw [byteStep_waitSync2 hst] at ht
    cases ht
    refine ⟨_, byteStep_waitSync2 (hst'.trans hst) b, ?_⟩
    rw [hcfg]
    split
    · exact ⟨hcfg, ⟨0, by simp [startTransaction, hcfg, hses]⟩, ⟨.noFlags, by simp [startTransaction, hrx]⟩⟩
    · exact hhunt
  | readId =>
    by_cases h0 : s.ses.fcnt = 0
    · rw [byteStep_readId_first hst h0] at ht
      cases ht
      exact ⟨_, byteStep_readId_first (hst'.trans hst) (hfcnt'.trans h0) b, hcfg,
        ⟨n, by simp [firstIdByte, hcfg, hses]⟩, ⟨v, hrx⟩⟩
    · have hlen := lenOf_le_of_byteStep hst h0 ht
      rw [byteStep_readId_second hst h0 hlen] at ht
      cases ht
      exact ⟨_, byteStep_readId_second (hst'.trans hst) (hfcnt'.symm ▸ h0) (by rw [hcfg, hses]; exact hlen), hcfg,
        ⟨n, by simp [latchId, hcfg, hses]⟩, ⟨v, by simp [latchId, hcfg, hses, hrx]⟩⟩
  | readPayload =>
    rw [byteStep_eq_exec, hst] at ht
    obtain ⟨-, hcur, rfl⟩ := execDecPay_eq_next ht
    exact ⟨_, byteStep_readPayload (hst'.trans hst) (by rw [hcfg, hses]; exact hcur) b, hcfg,
      ⟨n, by simp [storePayload, hcfg, hses, hrx]⟩, ⟨v, by simp [storePayload, hses, hrx]⟩⟩
  | readCrc =>
    by_cases h0 : s.ses.fcnt = 0
    · rw [byteStep_readCrc_first hst h0] at ht
      cases ht
      exact ⟨_, byteStep_readCrc_first (hst'.trans hst) (hfcnt'.trans h0) b, hcfg,
        ⟨n, by simp [firstCrcByte, hses]⟩, ⟨v, hrx⟩⟩
    · rw [byteStep_readCrc_second hst h0] at ht
      cases ht
      exact ⟨_, byteStep_readCrc_second (hst'.trans hst) (hfcnt'.symm ▸ h0) b, by simp [hcfg],
        ⟨0, by rw [finishFrame_ses, finishFrame_ses, hcfg]; rfl⟩,
        ⟨_, by rw [finishFrame_rx b s, finishFrame_rx b s', hrx]⟩⟩

theorem feed_singleton (b : Byte) (s : State) : feed [b] s = byteStep b s := followedBy_quiet (byteStep b s)

/-! ### What stands beside the bytes of a delivery: the encoder's side -/

/-- An operation in flight meets the encoder's invariants; `Feeds` says nothing of TXBUF, and none of it is needed. -/
def InFlightOk (s : State) : Prop := s.enc.st ≠ .idle → TransmitOk s.cfg s.enc []

theorem inFlightOk_of_idle {s : State} (h : s.enc.st = .idle) : InFlightOk s := fun hne => absurd h hne

theorem inFlightOk_of_encoderOk {s : State} (h : EncoderOk s) : InFlightOk s := by
  obtain ⟨hlen, hretry, hpayload, hend, hstart, hidLo⟩ := h
  refine fun hidle => ⟨hlen, hretry, hpayload, hend, hstart, hidLo, fitsLen_of_le ?_, .nil, nofun⟩
  cases hst : s.enc.st with
  | idle => exact absurd hst hidle
  | sync1 => simp [(hstart (.inl hst)).1]
  | sync2 => simp [(hstart (.inr (.inl hst))).1]
  | idHi => simp [(hstart (.inr (.inr hst))).1]
  | idLo => simp [hidLo hst]
  | payload => exact (hpayload hst).le.trans hlen
  | crcHi => exact (hend (.inl hst)).le.trans hlen
  | crcLo => exact (hend (.inr hst)).le.trans hlen

theorem InFlightOk.congr {s t : State} (h : InFlightOk s) (hcfg : t.cfg = s.cfg) (henc : t.enc = s.enc) :
    InFlightOk t := by
  unfold InFlightOk
  rw [hcfg, henc]
  exact h

/-- A put of a state that offers a byte goes through; what it leaves is its own update's. -/
theorem whenPut_goes_through {st : ESt} {s : State} {k : Byte → State → State} (hst : s.enc.st = st)
    (hidle : st ≠ .idle) (h : InFlightOk s)
    (hk : ∀ b, TransmitOk s.cfg s.enc [] → InFlightOk (k b { s with txStream := s.txStream ++ [b] })) :
    ∃ t, whenPut st s k = .next t ∧ InFlightOk t := by
  have hok := h (hst ▸ hidle)
  obtain ⟨b, hb⟩ := offeredByte_isSome (hst ▸ hidle) fun hp => Nat.lt_of_lt_of_le (hok.curInside hp) hok.lenLe
  exact ⟨_, whenPut_eq_next.2 ⟨hst, b, hb, rfl⟩, hk b hok⟩

/-- An accepted byte goes through, in every state of the encoder that offers one (R123 to R129). -/
theorem exec_put_goes_through {s : State} (h : InFlightOk s) {put : Instr} (hput : putOp s.enc.st = some put) :
    ∃ t, exec put s = .next t ∧ InFlightOk t := by
  cases hst : s.enc.st <;> rw [hst] at hput <;> cases hput
  case sync1 =>
    simp only [exec, execEncPutSync1]
    exact whenPut_goes_through hst nofun h fun b hok _ => hok.head (.inl hst) (.inl rfl)
  case sync2 =>
    simp only [exec, execEncPutSync2]
    exact whenPut_goes_through hst nofun h fun b hok _ => hok.head (.inr hst) (.inr rfl)
  case idHi =>
    simp only [exec, execEncPutIdHi]
    exact whenPut_goes_through hst nofun h fun b hok _ => hok.idHi hst _
  case idLo =>
    simp only [exec, execEncPutIdLo]
    exact whenPut_goes_through hst nofun h fun b hok _ => hok.idLo hst _
  case payload =>
    simp only [exec, execEncPutPay]
    exact whenPut_goes_through hst nofun h fun b hok _ => hok.payload hst _
  case crcHi =>
    simp only [exec, execEncPutCrcHi]
    exact whenPut_goes_through hst nofun h fun b hok _ => hok.crcHi hst
  case crcLo =>
    simp only [exec, execEncPutCrcLo]
    exact whenPut_goes_through hst nofun h fun b hok => inFlightOk_of_idle rfl

/-- A declined byte goes through, inside the budget or past it (R130). -/
theorem exec_decline_goes_through {s : State} (h : InFlightOk s) (hidle : s.enc.st ≠ .idle) :
    ∃ t, exec .encDecline s = .next t ∧ InFlightOk t := by
  have hok := h hidle
  obtain ⟨b, hb⟩ := offeredByte_isSome hidle fun hp => Nat.lt_of_lt_of_le (hok.curInside hp) hok.lenLe
  simp only [exec, execEncDecline, if_neg hidle, hb]
  split
  · next hretry => exact ⟨_, rfl, fun _ => hok.retry hretry⟩
  · exact ⟨_, rfl, inFlightOk_of_idle rfl⟩

/-- A start within `MAX_LEN` goes through in `Idle` (R120, R244). -/
theorem exec_start_goes_through {s : State} (hst : s.enc.st = .idle) (id : Word) {len : Nat}
    (hlen : len ≤ s.cfg.maxLen) : ∃ t, exec (.encStart id len) s = .next t ∧ InFlightOk t := by
  simp only [exec, execEncStart, if_pos hst, if_pos hlen]
  exact ⟨_, rfl, fun _ => {
    lenLe := hlen
    retryLe := Nat.zero_le _
    curInside := nofun
    curAtEnd := nofun
    started := fun _ => ⟨rfl, rfl⟩
    curZero := nofun
    curFits := fitsLen_of_le (Nat.zero_le _)
    bufWf := .nil
    bufInside := nofun }⟩

/-- The encoder's part of a step goes through beside any delivery (R121 to R130). -/
theorem encoderOps_go_through {g : Signals} {s : State} (hok : inputOk s.cfg (.signals g) = true) (h : InFlightOk s) :
    ∃ t, inOrder (encoderOps s.enc.st g.enc) s = .next t ∧ InFlightOk t := by
  cases henc : g.enc with
  | none => exact ⟨s.quiet, rfl, h⟩
  | some e =>
    rw [encoderOps, inOrder_singleton]
    by_cases hidle : s.enc.st = .idle
    · rw [hidle]
      cases hstart : e.start with
      | false =>
        simp only [encoderOpFor, putOp, hstart, Bool.false_eq_true, if_false, exec, execEncNop, if_pos hidle]
        exact ⟨_, rfl, inFlightOk_of_idle hidle⟩
      | true =>
        have hlen : e.len ≤ s.cfg.maxLen := by simpa [inputOk, henc, hstart] using hok
        simp only [encoderOpFor, putOp, hstart, if_true]
        exact exec_start_goes_through hidle e.id hlen
    · obtain ⟨put, hput⟩ := exists_putOp hidle
      simp only [encoderOpFor, hput]
      split
      · exact exec_put_goes_through h hput
      · exact exec_decline_goes_through h hidle

/-! ### A step of a delivery: what is before the byte, the byte, and what is after it (R175, R187) -/

/-- No output is the one of a tick that fires (R173). -/
def NoneTruncated (outs : List Outputs) : Prop := ∀ o ∈ outs, o.rxResult ≠ some .truncated

/-- What a tick or an encoder operation leaves for the byte steps after it: the message and, unless a tick fired, all
that they read. -/
structure AfterByte (s t : State) : Prop where
  beside : BesideByte s t
  rx : t.rx = s.rx
  inputs : t.inputs = s.inputs
  reading : NoneTruncated t.out → SameReading s t

theorem AfterByte.passesAlong : PassesAlong AfterByte where
  quiet := fun s => ⟨BesideByte.passesAlong.quiet s, rfl, rfl, fun _ => ⟨rfl, ⟨_, rfl⟩, ⟨_, rfl⟩⟩⟩
  followed := fun hu hv => by
    refine ⟨BesideByte.passesAlong.followed hu.beside hv.beside, hv.rx.trans hu.rx, hv.inputs.trans hu.inputs,
      fun hout => ?_⟩
    obtain ⟨hout, hout'⟩ := List.forall_mem_append.1 hout
    obtain ⟨hcfg, hses, hrx⟩ := (hu.reading hout).trans (hv.reading hout')
    exact ⟨hcfg, hses, hrx⟩

theorem AfterByte.tick {s t : State} (h : execSysTick s = .next t) : AfterByte s t := by
  obtain ⟨-, -, -, -, hinputs⟩ := OnReceiveSide.sysTick.fields h
  refine ⟨.tick h, execSysTick_rx h, hinputs, fun hout => ?_⟩
  obtain rfl | ⟨-, rfl | rfl⟩ := execSysTick_eq_next h
  · exact ⟨rfl, ⟨_, rfl⟩, ⟨_, rfl⟩⟩
  · exact ⟨rfl, ⟨_, rfl⟩, ⟨_, rfl⟩⟩
  · exact absurd rfl (hout _ List.mem_cons_self)

theorem AfterByte.encoderOp {i : Instr} {s t : State} (hi : isEncoderOp i = true) (h : exec i s = .next t) :
    AfterByte s t := by
  obtain ⟨hcfg, hses, hrx, -, hinputs⟩ := (OnEncoder.exec hi).fields h
  exact ⟨.encoderOp hi h, hrx, hinputs, fun _ => ⟨hcfg, ⟨_, hses⟩, ⟨_, hrx⟩⟩⟩

theorem isEncoderOp_of_mem_encoderOps {st : ESt} {x : Option EncIn} {i : Instr} (h : i ∈ encoderOps st x) :
    isEncoderOp i = true := by
  cases x with
  | none => cases h
  | some e => rw [List.mem_singleton.1 h]; exact isEncoderOp_encoderOpFor st e

/-- A tick and the encoder's operation, whichever of them the step requests, go through after the byte. -/
theorem afterByte_goes_through {g : Signals} {m : State} (hok : inputOk m.cfg (.signals g) = true) (h : InFlightOk m) :
    ∃ t, inOrder ((if g.tick then [.sysTick] else []) ++ encoderOps m.enc.st g.enc) m = .next t
      ∧ AfterByte m t ∧ InFlightOk t := by
  obtain ⟨x, hx, hcfg, henc⟩ : ∃ x, inOrder (if g.tick then [.sysTick] else []) m = .next x
      ∧ x.cfg = m.cfg ∧ x.enc = m.enc := by
    cases g.tick with
    | false => exact ⟨m.quiet, rfl, rfl, rfl⟩
    | true =>
      obtain ⟨x, hx⟩ := execSysTick_goes_through m
      obtain ⟨hcfg, henc, -⟩ := OnReceiveSide.sysTick.fields hx
      exact ⟨x, (inOrder_singleton .sysTick m).trans hx, hcfg, henc⟩
  obtain ⟨t, ht, hflight⟩ := encoderOps_go_through (hcfg ▸ hok) (h.congr hcfg henc)
  rw [henc] at ht
  have hrun := (inOrder_append (encoderOps m.enc.st g.enc) hx).trans (congrArg (putBefore x.out) ht)
  refine ⟨_, hrun, AfterByte.passesAlong.inOrder (fun i hi u v huv => ?_) hrun, hflight⟩
  obtain hi | hi := List.mem_append.1 hi
  · split at hi
    · rw [List.mem_singleton.1 hi] at huv
      exact .tick huv
    · cases hi
  · exact .encoderOp (isEncoderOp_of_mem_encoderOps hi) huv

/-- A step of a delivery, around its byte: the take leaves a state `a` that reads the byte as the one before does, and
what comes after the byte goes through. -/
theorem step_around_byte {s : State} {g : Signals} {rest : List Input} (hin : s.inputs = .signals g :: rest)
    (hrst : g.rst = false) (hok : inputOk s.cfg (.signals g) = true) (hflight : InFlightOk s) :
    ∃ a, SameReading s a ∧ ∀ m, inOrder (byteOps a.ses.st g.rx) a = .next m →
      ∃ t, step s = .next { t with out := a.out ++ m.out ++ t.out } ∧ AfterByte m t ∧ InFlightOk t
        ∧ t.inputs = rest := by
  obtain ⟨a, ha, hreading, hses, henc, hinputs⟩ : ∃ a,
      inOrder (if g.take then [.sysTake] else []) { s with inputs := rest } = .next a ∧ SameReading s a
        ∧ a.ses = s.ses ∧ a.enc = s.enc ∧ a.inputs = rest := by
    cases g.take with
    | false => exact ⟨_, rfl, ⟨rfl, ⟨_, rfl⟩, ⟨_, rfl⟩⟩, rfl, rfl, rfl⟩
    | true => exact ⟨_, inOrder_singleton .sysTake _, ⟨rfl, ⟨_, rfl⟩, ⟨_, rfl⟩⟩, rfl, rfl, rfl⟩
  refine ⟨a, hreading, fun m hm => ?_⟩
  obtain ⟨⟨hcfg', henc', -, -⟩, hinputs'⟩ := sameTransmit_passesAlong.inOrder (fun i hi u v huv => by
    obtain ⟨hcfg, henc, htx, hstream, hinputs⟩ := (OnReceiveSide.exec (isReceiveOp_of_mem_byteOps hi)).fields huv
    exact ⟨⟨hcfg, henc, htx, hstream⟩, hinputs⟩) hm
  have hcfg := hcfg'.trans hreading.cfg
  obtain ⟨t, ht, hafter, hflight'⟩ := afterByte_goes_through (hcfg ▸ hok) (hflight.congr hcfg (henc'.trans henc))
  refine ⟨t, ?_, hafter, hflight', hafter.inputs.trans (hinputs'.trans hinputs)⟩
  have hops : operationsOf g s = (if g.take then [.sysTake] else [])
      ++ (byteOps a.ses.st g.rx ++ ((if g.tick then [.sysTick] else []) ++ encoderOps m.enc.st g.enc)) := by
    rw [operationsOf_eq, hses, henc', henc]
    simp only [receiveOps, List.append_assoc]
  rw [stepPerformsRequestsInOrder s g rest hin hrst, hops, inOrder_append _ ha, inOrder_append _ hm, ht]
  simp only [putBefore_next, List.append_assoc]

/-! ### A delivery is its bytes, fed back to back (R187) -/

/-- The byte of a step, or an empty poll, read where the bytes fed back to back have come to. -/
theorem SameReading.byteOps {s a u : State} {x : RxIn} (h : SameReading s a)
    (hu : feed (rxByte { rx := x }).toList s = .next u) :
    ∃ m, inOrder (byteOps a.ses.st x) a = .next m ∧ SameReading u m := by
  cases x with
  | notAsked => cases hu; exact ⟨_, rfl, h.cfg, h.ses, h.rx⟩
  | empty => cases hu; exact ⟨_, inOrder_singleton .decNobyte a, h.cfg, h.ses, h.rx⟩
  | byte b =>
    obtain ⟨m, hm, hreading⟩ := h.byteStep ((feed_singleton b s).symm.trans hu)
    exact ⟨m, (inOrder_singleton _ a).trans ((byteStep_eq_exec b a).symm.trans hm), hreading⟩

theorem trace_succ_of_step {s t : State} (h : step s = .next t) (k : Nat) : trace (k + 1) s = t.out ++ trace k t := by
  simp only [trace, h]

theorem bytesOf_cons (g : Signals) (gs : List Signals) : bytesOf (g :: gs) = (rxByte g).toList ++ bytesOf gs := by
  cases h : rxByte g <;> simp [bytesOf, h]

/-- The steps of a delivery leave the state that its bytes, fed back to back, leave, as far as a byte step reads it. -/
theorem run_reads {gs : List Signals} {s s' u : State} {rest : List Input} (hin : s'.inputs = gs.map .signals ++ rest)
    (hgs : ∀ g ∈ gs, g.rst = false ∧ inputOk s.cfg (.signals g) = true) (hflight : InFlightOk s')
    (hout : NoneTruncated (trace gs.length s')) (hreading : SameReading s s') (hu : feed (bytesOf gs) s = .next u) :
    ∃ t, run gs.length s' = .next t ∧ SameReading u t ∧ InFlightOk t ∧ t.inputs = rest := by
  induction gs generalizing s s' u with
  | nil =>
    cases hu
    exact ⟨s', rfl, ⟨hreading.cfg, hreading.ses, hreading.rx⟩, hflight, hin⟩
  | cons g gs ih =>
    obtain ⟨⟨hrst, hok⟩, hgs⟩ := List.forall_mem_cons.1 hgs
    rw [bytesOf_cons, feed_append] at hu
    obtain ⟨v, w, hv, hw, rfl⟩ := followedBy_eq_next.1 hu
    obtain ⟨a, ha, hstep⟩ := step_around_byte hin hrst (hreading.cfg.symm ▸ hok) hflight
    obtain ⟨m, hm, hvm⟩ := (hreading.trans ha).byteOps hv
    obtain ⟨x, hx, hafter, hflight', hin'⟩ := hstep m hm
    rw [List.length_cons, trace_succ_of_step hx] at hout
    obtain ⟨hxout, hout⟩ := List.forall_mem_append.1 hout
    have hvx := hvm.trans (hafter.reading (List.forall_mem_append.1 hxout).2)
    have hcfg := (OnReceiveSide.feed _).cfg hv
    obtain ⟨t, ht, hread, hflight'', hrest⟩ := ih (s := v)
      (s' := { x with out := a.out ++ m.out ++ x.out }) hin' (hcfg.symm ▸ hgs) hflight' hout
      ⟨hvx.cfg, hvx.ses, hvx.rx⟩ hw
    exact ⟨t, (run_succ_of_step hx _).trans ht, ⟨hread.cfg, hread.ses, hread.rx⟩, hflight'', hrest⟩

/-- The outputs of a run's first steps begin those of the run. -/
theorem trace_prefix (k n : Nat) (s : State) : trace k s <+: trace (k + n) s := by
  induction k generalizing s with
  | zero => exact List.nil_prefix
  | succ k ih =>
    rw [Nat.add_right_comm]
    cases h : step s with
    | next t => rw [trace_succ_of_step h, trace_succ_of_step h]; exact List.prefix_append_right_inj _ |>.2 (ih t)
    | fault f => simp [trace, h]
    | refused f => simp [trace, h]

/-- The last of the signals carries a byte: they are the ones before it, and it. -/
theorem eq_concat_of_endsWithByte {gs : List Signals} (h : endsWithByte gs) :
    ∃ hs g b, gs = hs ++ [g] ∧ g.rx = .byte b ∧ bytesOf gs = bytesOf hs ++ [b] := by
  obtain rfl | ⟨hs, g, rfl⟩ := List.eq_nil_or_concat' gs
  · cases h
  · obtain ⟨b, hb⟩ : ∃ b, rxByte g = some b := Option.isSome_iff_exists.1 (by simpa [endsWithByte] using h)
    refine ⟨hs, g, b, rfl, ?_, by simp [bytesOf, hb]⟩
    cases hg : g.rx <;> simp_all [rxByte]

/-- What comes after a frame's last byte in its step does not hide the frame's result (R175). -/
theorem AfterByte.shown_result {m t : State} (h : AfterByte m t) (hinit : m.ses = Session.init m.cfg)
    (os : List Outputs) {o : Outputs} {r : RxResult} (hm : m.out = [o]) (ho : o.rxResult = some r) (hr : r ≠ .quiet) :
    (shownOf (os ++ m.out ++ t.out)).rxResult = some r := by
  rw [hm, shownOf, List.foldl_append]
  exact foldl_merge_rxResult (h.beside.out hinit) (shownOf_concat_rxResult os ho hr)

/-- The step that carries a frame's last byte judges the frame (R145, R187). -/
theorem step_judges {s : State} {g : Signals} {rest : List Input} {b : Byte} (hin : s.inputs = .signals g :: rest)
    (hrst : g.rst = false) (hok : inputOk s.cfg (.signals g) = true) (hflight : InFlightOk s) (hbyte : g.rx = .byte b)
    (hst : s.ses.st = .readCrc) (hfcnt : s.ses.fcnt ≠ 0) :
    ∃ t, step s = .next t ∧ t.cfg = s.cfg ∧ t.ses = Session.init s.cfg
      ∧ (shown t).rxResult = some (if shiftIn s.ses.facc b = s.ses.crc then .accepted else .rejected)
      ∧ t.rx = { s.rx with status := if shiftIn s.ses.facc b = s.ses.crc then .newData else .dataLost } := by
  obtain ⟨a, ⟨hcfg, ⟨n, hses⟩, ⟨v, hrx⟩⟩, hstep⟩ := step_around_byte hin hrst hok hflight
  have hm : inOrder (byteOps a.ses.st g.rx) a = .next (finishFrame b a) := by
    rw [hbyte, byteOps, inOrder_singleton, ← byteStep_eq_exec]
    exact byteStep_readCrc_second (by rw [hses]; exact hst) (by rw [hses]; exact hfcnt) b
  obtain ⟨t, ht, hafter, -, -⟩ := hstep _ hm
  have hinit : (finishFrame b a).ses = Session.init (finishFrame b a).cfg := by simp
  obtain ⟨o, hout, ho⟩ := finishFrame_out b a
  have hstatus := finishFrame_status b a
  rw [hses] at ho hstatus
  have htcfg : t.cfg = s.cfg := by rw [hafter.beside.cfg, finishFrame_cfg, hcfg]
  refine ⟨_, ht, htcfg, ?_, hafter.shown_result hinit a.out hout ho (by split <;> nofun), ?_⟩
  · have hses' := hafter.beside.ses hinit
    rw [finishFrame_cfg, hcfg] at hses'
    exact hses'
  · exact hafter.rx.trans (by rw [finishFrame_rx, hstatus, hrx])

theorem frameBytes_eq_concat (c : Config) (id : Word) (p : List Byte) (crc : Word) : frameBytes c id p crc
    = ([c.sync, c.sync, hiByte id, loByte id] ++ p ++ [hiByte crc]) ++ [loByte crc] := by
  simp [frameBytes]

/-- A frame delivered in any way to a decoder that waits for one is judged on its last byte, its message left as
received (R145, R187). -/
theorem frame_delivered {s : State} {gs : List Signals} {id : Word} {p : List Byte} {crc : Word}
    (hst : s.ses.st = .waitSync1) (hlen : p.length = s.cfg.lenOf id) (hmax : p.length ≤ s.cfg.maxLen)
    (hfeeds : Feeds s gs (frameBytes s.cfg id p crc)) (hends : endsWithByte gs) :
    ∃ t, run gs.length s = .next t ∧ t.ses = Session.init s.cfg
      ∧ (shown t).rxResult = some (if crc = frameCrc s.cfg id p then .accepted else .rejected)
      ∧ t.rx.status = (if crc = frameCrc s.cfg id p then .newData else .dataLost)
      ∧ t.rx.id = id ∧ t.rx.len = p.length ∧ ∀ k < p.length, rxCell t k = p[k]? := by
  obtain ⟨⟨rest, hin⟩, hbytes, hgs, henc, hout⟩ := hfeeds
  obtain ⟨hs, g, b, rfl, hbyte, hconcat⟩ := eq_concat_of_endsWithByte hends
  obtain ⟨hhead, hlast⟩ := List.append_singleton_inj.1
    (hconcat.symm.trans (hbytes.trans (frameBytes_eq_concat s.cfg id p crc)))
  obtain ⟨hhs, hg⟩ := List.forall_mem_append.1 hgs
  obtain ⟨hrst, hok⟩ := hg g List.mem_cons_self
  rw [List.length_append] at hout
  obtain ⟨u, hu⟩ := holdsFrame hst hlen hmax (hiByte crc)
  obtain ⟨o, hfeed, -⟩ := hu.consumes
  obtain ⟨v, hv, hreading, hflight, hvin⟩ := run_reads (rest := .signals g :: rest) (by rw [← hin]; simp) hhs
    (inFlightOk_of_encoderOk henc) (fun o ho => hout o ((trace_prefix _ _ _).subset ho)) (.refl s) (hhead ▸ hfeed)
  obtain ⟨hcfg, ⟨n, hses⟩, ⟨w, hrx⟩⟩ := hreading
  have hvcfg : v.cfg = s.cfg := hcfg.trans hu.cfg
  obtain ⟨t, ht, htcfg, htses, hshown, htrx⟩ := step_judges hvin hrst (hvcfg.symm ▸ hok) hflight hbyte
    (by rw [hses]; exact hu.st) (by rw [hses]; exact hu.fcnt)
  have hjudge : shiftIn v.ses.facc b = v.ses.crc ↔ crc = frameCrc s.cfg id p := by
    rw [hses, hlast]
    exact (hu.judges (loByte crc)).trans (by rw [joinBytes_hi_lo])
  simp only [hjudge] at hshown htrx
  have hcell (k : Nat) : rxCell t k = rxCell u k := rxCell_congr (htcfg.trans hcfg) (by rw [htrx, hrx]) k
  refine ⟨t, ?_, hvcfg ▸ htses, hshown, by rw [htrx], by rw [htrx, hrx]; exact hu.id,
    by rw [htrx, hrx]; exact hu.len, fun k hk => (hcell k).trans (hu.inside k hk)⟩
  rw [List.length_append]
  exact (run_add hv 1).trans ((run_succ_of_step ht 0).trans rfl)

/-! ### One flipped bit (R116 c, R181) -/

theorem xor_bit_ne {k : Nat} (hk : k < 8) (b : Byte) : b ^^^ (1#8 <<< k) ≠ b := by
  intro h
  have hbit := congrArg (BitVec.getLsbD · k) h
  simp [hk] at hbit

theorem flipBit_cons_succ (b : Byte) (w : List Byte) (j k : Nat) : flipBit (b :: w) (j + 1) k = b :: flipBit w j k :=
  List.modify_succ_cons _ b w j

theorem flipBit_append_left {v : List Byte} {j : Nat} (hj : j < v.length) (w : List Byte) (k : Nat) :
    flipBit (v ++ w) j k = flipBit v j k ++ w := by
  have hj' : j < (v ++ w).length := by rw [List.length_append]; omega
  rw [flipBit, flipBit, List.modify_eq_set_get _ hj', List.modify_eq_set_get _ hj, List.set_append_left _ _ hj,
    List.get_eq_getElem, List.get_eq_getElem, List.getElem_append_left]

theorem flipBit_append_right (v w : List Byte) (e k : Nat) :
    flipBit (v ++ w) (v.length + e) k = v ++ flipBit w e k := by
  induction v with
  | nil => rw [List.length_nil, Nat.zero_add, List.nil_append, List.nil_append]
  | cons b v ih => rw [List.length_cons, Nat.add_right_comm, List.cons_append, flipBit_cons_succ, ih, List.cons_append]

/-- The bytes after the sync pair: the message the CRC covers, then the CRC field (R81). -/
theorem frameBytes_eq (c : Config) (id : Word) (p : List Byte) (crc : Word) :
    frameBytes c id p crc = c.sync :: c.sync :: ((hiByte id :: loByte id :: p) ++ [hiByte crc, loByte crc]) := rfl

/-- A message with one bit flipped has another CRC (R116 c). -/
theorem crcOf_flipBit_ne {c : Config} (hfn : c.crcFn = .division 0x1021) {m : List Byte} {j k : Nat} (hj : j < m.length)
    (hk : k < 8) : crcOf c (flipBit m j k) ≠ crcOf c m := by
  rw [flipBit, List.modify_eq_set_get _ hj]
  refine oneChangedByteChangesTheCrc c m j _ hfn hj fun h => xor_bit_ne hk m[j] ?_
  exact (Option.some.inj ((List.getElem?_eq_getElem hj).symm.trans h)).symm

/-- Two bytes or more are an id and a payload. -/
theorem exists_message {m : List Byte} {n : Nat} (h : m.length = n + 2) :
    ∃ id p, m = hiByte id :: loByte id :: p ∧ p.length = n := by
  match m, h with
  | a :: b :: p, h => exact ⟨joinBytes a b, p, by simp, by simpa using h⟩

/-- A bit flipped past the sync pair leaves a frame whose CRC field is not the CRC of its id and payload: it changes the
message's CRC and not the field, or the field alone. -/
theorem flipBit_frameOf {c : Config} (hfn : c.crcFn = .division 0x1021) (id : Word) (p : List Byte) {j k : Nat}
    (hj : 2 ≤ j) (hlen : j < p.length + 6) (hk : k < 8) :
    ∃ id' p' crc', flipBit (frameOf c id p) j k = frameBytes c id' p' crc' ∧ p'.length = p.length
      ∧ crc' ≠ frameCrc c id' p' := by
  obtain ⟨i, rfl⟩ := Nat.exists_eq_add_of_le' hj
  rw [frameOf, frameBytes_eq, flipBit_cons_succ, flipBit_cons_succ]
  by_cases hi : i < (hiByte id :: loByte id :: p).length
  · obtain ⟨id', p', hm, hp'⟩ := exists_message (m := flipBit (hiByte id :: loByte id :: p) i k)
      (List.length_modify _ _ _)
    have hne := crcOf_flipBit_ne hfn hi hk
    rw [hm] at hne
    exact ⟨id', p', frameCrc c id p, by rw [flipBit_append_left hi, hm, frameBytes_eq], hp', hne.symm⟩
  · obtain ⟨e, rfl⟩ := Nat.exists_eq_add_of_le (Nat.not_lt.1 hi)
    rw [flipBit_append_right]
    have he : e = 0 ∨ e = 1 := by simp only [List.length_cons] at hlen; omega
    obtain rfl | rfl := he
    · refine ⟨id, p, joinBytes (hiByte (frameCrc c id p) ^^^ (1#8 <<< k)) (loByte (frameCrc c id p)),
        by simp [frameBytes_eq, flipBit], rfl, fun h => xor_bit_ne hk (hiByte (frameCrc c id p)) ?_⟩
      simpa using congrArg hiByte h
    · refine ⟨id, p, joinBytes (hiByte (frameCrc c id p)) (loByte (frameCrc c id p) ^^^ (1#8 <<< k)),
        by simp [frameBytes_eq, flipBit], rfl, fun h => xor_bit_ne hk (loByte (frameCrc c id p)) ?_⟩
      simpa using congrArg loByte h

/-- Settles O41: the corrupted bytes are a frame with a wrong CRC field, and a frame is judged by its CRC field. -/
theorem singleBitErrorIsDetected : Obligations.SingleBitErrorIsDetected := by
  intro s gs id p j k w hi lo hfn hst hmax hlen hj hjlen hk hw hhi hlo hlen' hfeeds hends
  obtain ⟨id', p', crc', hframe, hp', hcrc⟩ := flipBit_frameOf hfn id p hj hjlen hk
  rw [hframe, frameBytes_eq] at hw
  subst hw
  obtain rfl : hiByte id' = hi := Option.some.inj hhi
  obtain rfl : loByte id' = lo := Option.some.inj hlo
  rw [joinBytes_hi_lo] at hlen' ⊢
  obtain ⟨t, ht, -, hshown, hstatus, hid, -, hcells⟩ :=
    frame_delivered hst (hp'.trans hlen'.symm) (hp' ▸ hmax) hfeeds hends
  rw [if_neg hcrc] at hshown hstatus
  refine ⟨t, ht, hshown, hstatus, hid, fun i hi => ?_⟩
  rw [← hp'] at hi
  rw [hcells i hi, Nat.add_comm 4 i]
  exact (List.getElem?_append_left hi).symm

end Sys2Proof.Machine
end

section
/-! Statements of 41_encoder.md: the byte offered (O17), the encoder's operations (O18 to O23), the two that change nothing
(O46), the abandoned encode operation (O26), its end (O27), and its frame met by a decoder (O40). -/

namespace Sys2Proof.Machine

/-! ### The byte offered in each state (R121) -/

section
variable {s : State}

theorem offeredByte_of_idle (h : s.enc.st = .idle) : offeredByte s = none := by simp only [offeredByte, h]

theorem offeredByte_of_sync1 (h : s.enc.st = .sync1) : offeredByte s = some s.cfg.sync := by simp only [offeredByte, h]

theorem offeredByte_of_sync2 (h : s.enc.st = .sync2) : offeredByte s = some s.cfg.sync := by simp only [offeredByte, h]

theorem offeredByte_of_idHi (h : s.enc.st = .idHi) : offeredByte s = some (hiByte s.enc.id) := by
  simp only [offeredByte, h]

theorem offeredByte_of_idLo (h : s.enc.st = .idLo) : offeredByte s = some (loByte s.enc.id) := by
  simp only [offeredByte, h]

theorem offeredByte_of_payload (h : s.enc.st = .payload) : offeredByte s = txCell s s.enc.cur := by
  simp only [offeredByte, h]

theorem offeredByte_of_crcHi (h : s.enc.st = .crcHi) : offeredByte s = some (hiByte s.enc.crc) := by
  simp only [offeredByte, h]

theorem offeredByte_of_crcLo (h : s.enc.st = .crcLo) : offeredByte s = some (loByte s.enc.crc) := by
  simp only [offeredByte, h]

end

/-- Settles O17: the byte of each state; in `Payload` a cell inside the buffer. -/
theorem encoderOffersTheByteOfItsState : Obligations.EncoderOffersTheByteOfItsState := fun _ =>
  ⟨rfl, offeredByte_of_idle, fun h => h.elim offeredByte_of_sync1 offeredByte_of_sync2, offeredByte_of_idHi,
    offeredByte_of_idLo, fun h hcur => (offeredByte_of_payload h).trans (if_pos hcur), offeredByte_of_crcHi,
    offeredByte_of_crcLo⟩

/-! ### `ENC.START` (R120) -/

/-- A busy encoder's operation depends on the Transport's answer alone: a start is lost, its operands with it. -/
theorem encoderOpFor_of_busy {st : ESt} (hst : st ≠ .idle) (e : EncIn) :
    encoderOpFor st e = encoderOpFor st { start := false, ready := e.ready } := by
  obtain ⟨put, hput⟩ := exists_putOp hst
  simp only [encoderOpFor, hput]

/-- Settles O18: in `Idle` the guards hold; in flight the two steps ask for the same operation. -/
theorem encStartLatchesItsOperands : Obligations.EncStartLatchesItsOperands := by
  refine ⟨fun id len s hst hlen => ?_, fun s e rest hst hin => ?_⟩
  · simp only [exec, execEncStart, if_pos hst, if_pos hlen]
    rfl
  · rw [stepPerformsRequestsInOrder s _ rest hin rfl, stepPerformsRequestsInOrder _ _ rest rfl rfl, operationsOf_eq,
      operationsOf_eq, encoderOps, encoderOps, encoderOpFor_of_busy hst]
    rfl

/-! ### The puts (R123 to R129) -/

/-- A put, in the state that selects it: the offered byte enters the stream, then the put's own update. -/
theorem whenPut_of_offered {st : ESt} {s t : State} {b : Byte} {k : Byte → State → State} (hst : s.enc.st = st)
    (hb : offeredByte s = some b) (ht : t = k b { s with txStream := s.txStream ++ [b] }) : whenPut st s k = .next t :=
  whenPut_eq_next.2 ⟨hst, b, hb, ht⟩

/-- Settles O19: both states offer the sync byte. -/
theorem encPutSyncSendsTheSyncPair : Obligations.EncPutSyncSendsTheSyncPair := fun s =>
  ⟨fun h => show execEncPutSync1 s = _ from whenPut_of_offered h (offeredByte_of_sync1 h) rfl,
    fun h => show execEncPutSync2 s = _ from whenPut_of_offered h (offeredByte_of_sync2 h) rfl⟩

/-- Settles O20: the two states offer the two bytes of the id. -/
theorem encPutIdSendsTheId : Obligations.EncPutIdSendsTheId := fun s =>
  ⟨fun h => show execEncPutIdHi s = _ from whenPut_of_offered h (offeredByte_of_idHi h) rfl,
    fun h => show execEncPutIdLo s = _ from whenPut_of_offered h (offeredByte_of_idLo h) rfl⟩

/-- Settles O21: inside the buffer there is a cell to offer. -/
theorem encPutPaySendsTheBufferByte : Obligations.EncPutPaySendsTheBufferByte := fun s h hcur =>
  have hcell : txCell s s.enc.cur = some _ := if_pos hcur
  ⟨_, hcell, show execEncPutPay s = _ from whenPut_of_offered h ((offeredByte_of_payload h).trans hcell) rfl⟩

/-- Settles O22: the two states offer the two bytes of the accumulator. -/
theorem encPutCrcSendsTheAccumulator : Obligations.EncPutCrcSendsTheAccumulator := fun s =>
  ⟨fun h => show execEncPutCrcHi s = _ from whenPut_of_offered h (offeredByte_of_crcHi h) rfl,
    fun h => show execEncPutCrcLo s = _ from whenPut_of_offered h (offeredByte_of_crcLo h) rfl⟩

/-! ### `ENC.DECLINE` (R130, R203) -/

/-- What the encoder offers does not depend on the retry counter, so a retry offers the same byte again. -/
theorem offeredByte_retry (s : State) (n : Nat) (o : List Outputs) :
    offeredByte { s with enc := { s.enc with retry := n }, out := o } = offeredByte s := rfl

/-- A decline inside the budget costs one unit of it. -/
theorem exec_decline_retries {s : State} {b : Byte} (hst : s.enc.st ≠ .idle) (hb : offeredByte s = some b)
    (hretry : s.enc.retry < s.cfg.retryBudget) :
    exec .encDecline s = .next { s with
      enc := { s.enc with retry := s.enc.retry + 1 }
      out := [{ txResult := some .retry, offered := some b }] } := by
  simp only [exec, execEncDecline, if_neg hst, hb, if_pos hretry]
  rfl

/-- A decline past the budget abandons the frame. -/
theorem exec_decline_abandons {s : State} {b : Byte} (hst : s.enc.st ≠ .idle) (hb : offeredByte s = some b)
    (hretry : s.cfg.retryBudget ≤ s.enc.retry) :
    exec .encDecline s = .next { s with
      enc := { s.enc with st := .idle }
      out := [{ txResult := some .transportBusy, offered := some b
                raised := [.transportBusy s.enc.st s.enc.cur] }] } := by
  simp only [exec, execEncDecline, if_neg hst, hb, if_neg (Nat.not_lt.2 hretry)]
  rfl

/-- Settles O23: a busy encoder inside the buffer offers a byte, and the budget decides. -/
theorem encDeclineRetriesOrAbandons : Obligations.EncDeclineRetriesOrAbandons := by
  intro s hst hcur
  obtain ⟨b, hb⟩ := offeredByte_isSome hst hcur
  rw [hb]
  exact ⟨fun hretry => ⟨_, exec_decline_retries hst hb hretry, (offeredByte_retry s _ _).trans hb, rfl⟩,
    exec_decline_abandons hst hb⟩

/-- Settles O46: `ENC.NOP` is selected in `Idle`, `DEC.NOBYTE` anywhere, and both write the outputs alone. -/
theorem idleOperationsChangeNothing : Obligations.IdleOperationsChangeNothing := by
  refine ⟨fun s hst => ?_, fun _ => rfl⟩
  simp only [exec, execEncNop, if_pos hst]
  rfl

/-! ### An abandoned encode operation (R130, R132, R203) -/

/-- A decline past the budget ends the operation in its step, whatever the receive side does beside it. -/
theorem step_abandons {s : State} {g : Signals} {rest : List Input} (hinv : Inv s) (hin : s.inputs = .signals g :: rest)
    (hrst : g.rst = false) (hst : s.enc.st ≠ .idle) (hanswer : answersIn [g] = [false])
    (hretry : s.cfg.retryBudget ≤ s.enc.retry) :
    ∃ t, step s = .next t ∧ t.txStream = s.txStream ∧ (shown t).txResult = some .transportBusy ∧ t.enc.st = .idle := by
  obtain ⟨m, hsame, -, hstep⟩ := step_eq_encoder hinv hin hrst
  obtain ⟨-, -, htransmit, -⟩ := (inv_iff s).1 hinv
  obtain ⟨b, hb⟩ := offeredByte_isSome hst fun hp => Nat.lt_of_lt_of_le (htransmit.curInside hp) htransmit.lenLe
  obtain ⟨put, hput⟩ := exists_putOp hst
  obtain ⟨e, henc, hready⟩ : ∃ e, g.enc = some e ∧ e.ready = false := by
    cases henc : g.enc with
    | none => simp [answersIn, henc] at hanswer
    | some e => exact ⟨e, rfl, by simpa [answersIn, henc] using hanswer⟩
  have hop : inOrder (encoderOps s.enc.st g.enc) m = exec .encDecline m := by
    simp only [henc, encoderOps, inOrder_singleton, encoderOpFor, hput, hready, Bool.false_eq_true, if_false]
  rw [hop, exec_decline_abandons (hsame.enc ▸ hst) ((offeredByte_congr hsame).trans hb)
    (by rwa [hsame.enc, hsame.cfg])] at hstep
  refine ⟨_, hstep, hsame.txStream, ?_, rfl⟩
  rw [shown, shownOf_concat]
  rfl

/-- Settles O26: the accepts before the last decline took the frame's first bytes, the declines before it all the
budget. -/
theorem abandonedOperationSendsAProperPrefix : Obligations.AbandonedOperationSendsAProperPrefix := by
  intro s id p r g gs rest hinv hst hlen hp hin hrst henc hrsts haccepts hends hbudget
  obtain ⟨hs, last, rfl, hlast⟩ := eq_concat_of_endsWithAnswer hends
  have htrue : (answersIn (hs ++ [last])).count true = (answersIn hs).count true := by
    simp [answersIn_append, hlast]
  simp only [answersIn_append, hlast, List.count_append] at hbudget
  have hbudget : (answersIn hs).count false = s.cfg.retryBudget := Nat.succ.inj hbudget
  rw [htrue] at haccepts ⊢
  obtain ⟨hrsts, hrstl⟩ := List.forall_mem_append.1 hrsts
  obtain ⟨u, hu, huin, hucfg, hustream, huretry, husend⟩ := step_starts hinv hst hlen hp hin hrst henc
  have hframe : (toSend u).length = p.length + 6 := by rw [husend, length_frameOf]
  obtain ⟨v, hv, hvin, hvinv, hprogress⟩ := run_progress (rest := .signals last :: rest)
    (stepKeepsTheInvariant s u hinv hu) (by rw [huin]; simp) hrsts (by omega) (by rw [huretry, hucfg]; omega)
  have hbusy : v.enc.st ≠ .idle := fun hidle => by
    have hleft := hprogress.left
    rw [toSend_eq_nil_iff.2 hidle, eq_comm, List.drop_eq_nil_iff] at hleft
    omega
  obtain ⟨t, ht, hstream, hresult, hidle⟩ := step_abandons hvinv hvin (hrstl last (by simp)) hbusy hlast
    (by rw [hprogress.retry, hprogress.cfg, huretry, hucfg]; omega)
  refine ⟨t, ?_, by rw [hstream, hprogress.stream, hustream, husend], hresult, hidle⟩
  rw [run_succ_of_step hu, List.length_append]
  exact (run_add hv 1).trans ((run_succ_of_step ht 0).trans rfl)

/-! ### The end of an encode operation (R133) -/

/-- Reading consecutive places that all hold something skips none of them. -/
theorem length_filterMap_range' {α : Type} {f : Nat → Option α} {n : Nat} (h : ∀ i < n, (f i).isSome) {a k : Nat}
    (hk : a + k ≤ n) : ((List.range' a k).filterMap f).length = k := by
  rw [List.length_filterMap_eq_countP, List.countP_eq_length.2, List.length_range']
  intro i hi
  have := List.mem_range'_1.1 hi
  exact h i (by omega)

theorem length_unsent {s : State} (hcur : s.enc.cur ≤ s.enc.len) (hlen : s.enc.len ≤ s.cfg.maxLen) :
    (unsent s).length = s.enc.len - s.enc.cur :=
  length_filterMap_range' (n := s.cfg.maxLen) (fun i hi => by rw [txCell_eq, if_pos hi]; rfl) (by omega)

/-- A started operation has the sync pair, the id, the payload and the CRC field to send (R81). -/
theorem length_toSend_of_sync1 {s : State} (h : TransmitOk s.cfg s.enc s.txBuf) (hst : s.enc.st = .sync1) :
    (toSend s).length = s.enc.len + 6 := by
  obtain ⟨hcur, -⟩ := h.started (.inl hst)
  have hunsent := length_unsent (hcur ▸ Nat.zero_le _) h.lenLe
  simp only [toSend, hst, bodyFrom, List.length_cons, List.length_append, List.length_nil, hunsent]
  omega

/-- The most encoder steps an operation in flight can still take: one for each byte to send and one for each unit of the
budget left (R133). -/
def stepsLeft (s : State) : Nat := (toSend s).length + (s.cfg.retryBudget - s.enc.retry)

/-- The signals of an encoder step in flight, with the Transport's answer. -/
def answerOnly (a : Bool) : Input := .signals { enc := some { start := false, ready := a } }

/-- An encoder step ends the operation or brings its end nearer: an accept takes a byte, a decline a unit of the budget,
and one past the budget ends it. -/
theorem step_stepsLeft {s : State} {a : Bool} {rest : List Input} (hinv : Inv s) (hin : s.inputs = answerOnly a :: rest)
    (hst : s.enc.st ≠ .idle) :
    ∃ t, step s = .next t ∧ (t.enc.st = .idle ∨ t.inputs = rest ∧ stepsLeft t < stepsLeft s) := by
  by_cases hbudget : s.enc.retry + [a].count false ≤ s.cfg.retryBudget
  · obtain ⟨t, ht, hrest, hprogress, -⟩ := step_progress hinv hin rfl hst hbudget
    have hprogress : Progress [a] s t := hprogress
    refine ⟨t, ht, .inr ⟨hrest, ?_⟩⟩
    have hpos : 0 < (toSend s).length := List.length_pos_iff.2 fun h => hst (toSend_eq_nil_iff.1 h)
    have hone : [a].count true + [a].count false = 1 := by cases a <;> rfl
    rw [stepsLeft, stepsLeft, hprogress.left, hprogress.retry, hprogress.cfg, List.length_drop]
    omega
  · cases a with
    | true =>
      obtain ⟨-, -, htransmit, -⟩ := (inv_iff s).1 hinv
      exact absurd htransmit.retryLe hbudget
    | false =>
      have hpast : s.cfg.retryBudget ≤ s.enc.retry := Nat.le_of_lt_succ (Nat.not_le.1 hbudget)
      obtain ⟨t, ht, -, -, hidle⟩ := step_abandons hinv hin rfl hst rfl hpast
      exact ⟨t, ht, .inl hidle⟩

/-- As many answers as an operation can still take end it. -/
theorem run_reaches_idle {answers : List Bool} {s : State} {rest : List Input} (hinv : Inv s)
    (hin : s.inputs = answers.map answerOnly ++ rest) (hleft : stepsLeft s ≤ answers.length) :
    ∃ k ≤ answers.length, ∃ t, run k s = .next t ∧ t.enc.st = .idle := by
  induction answers generalizing s with
  | nil =>
    have hnone : (toSend s).length = 0 := Nat.eq_zero_of_add_eq_zero_right (Nat.le_zero.1 hleft)
    exact ⟨0, le_rfl, s, rfl, toSend_eq_nil_iff.1 (List.length_eq_zero_iff.1 hnone)⟩
  | cons a answers ih =>
    by_cases hst : s.enc.st = .idle
    · exact ⟨0, Nat.zero_le _, s, rfl, hst⟩
    · obtain ⟨u, hu, hidle | ⟨hrest, hless⟩⟩ := step_stepsLeft hinv hin hst
      · exact ⟨1, Nat.le_add_left _ _, u, run_succ_of_step hu 0, hidle⟩
      · obtain ⟨k, hk, t, ht, hidle⟩ := ih (stepKeepsTheInvariant s u hinv hu) hrest
          (Nat.le_of_lt_succ (hless.trans_le hleft))
        exact ⟨k + 1, Nat.succ_le_succ hk, t, (run_succ_of_step hu k).trans ht, hidle⟩

/-- Settles O27: a started operation has `len + 6` bytes to send and its whole budget. -/
theorem encodeOperationEnds : Obligations.EncodeOperationEnds := by
  intro s answers rest hinv hst hretry hlength hin
  obtain ⟨-, -, htransmit, -⟩ := (inv_iff s).1 hinv
  refine run_reaches_idle hinv hin (le_of_eq ?_)
  rw [stepsLeft, length_toSend_of_sync1 htransmit hst, hretry, hlength, Nat.sub_zero]

/-! ### Encoder to decoder (R180, R243) -/

/-- The frame depends on the sync value, the seed and the CRC function alone (R243). -/
theorem frameOf_congr {c d : Config} (hsync : d.sync = c.sync) (hinit : d.crcInit = c.crcInit)
    (hcrc : ∀ acc b, crcUpdate d.crcFn acc b = crcUpdate c.crcFn acc b) (id : Word) (p : List Byte) :
    frameOf d id p = frameOf c id p := by
  simp only [frameOf, frameBytes, frameCrc, crcOf, hsync, hinit, funext fun acc => funext (hcrc acc)]

/-- Settles O40: the operation sent the frame, which is the receiver's own, and a decoder that waits for a frame accepts
it. -/
theorem encodedMessageIsDecoded : Obligations.EncodedMessageIsDecoded := by
  intro s r id p a gs hs rest hinv hst hlen hp hin hrsts haccepts hends hbudget hrst hsync hinit hcrc hrlen hrmax
  obtain ⟨t, ht, hstream, hdone, -⟩ := encodeOperationSendsTheFrame s id p a _ gs rest hinv hst hlen hp hin rfl rfl
    hrsts haccepts hends hbudget
  refine ⟨t, ht, hdone, fun hfeeds hlast => ?_⟩
  rw [hstream, List.drop_left, ← frameOf_congr hsync hinit hcrc id p] at hfeeds
  obtain ⟨u, hu, -, hresult, hstatus, hid, hulen, hcells⟩ := frame_delivered hrst hrlen.symm hrmax hfeeds hlast
  exact ⟨u, hu, hresult.trans (if_pos rfl ▸ rfl), hstatus.trans (if_pos rfl), hid, hulen, hcells⟩

end Sys2Proof.Machine
end

section
/-! Statements of 42_decoder.md: the decoder's operations (O28 to O32), the poll (O37), the bytes a frame takes (O34),
and the bound on the time mid-frame (O43). -/

namespace Sys2Proof.Machine

/-! ### The decoder's operations (R141 to R146) -/

section
variable {s : State}

/-- The operation a byte selects in a state is the byte step there (R140). -/
theorem exec_decOp {st : DSt} (hst : s.ses.st = st) (b : Byte) : exec (decOp st b) s = byteStep b s := by
  rw [byteStep_eq_exec, hst]

theorem exec_decSync1 (hst : s.ses.st = .waitSync1) (b : Byte) : exec (.decSync1 b) s = .next (huntSync1 b s) :=
  (exec_decOp hst b).trans (byteStep_waitSync1 hst b)

theorem exec_decSync2 (hst : s.ses.st = .waitSync2) (b : Byte) :
    exec (.decSync2 b) s = .next (if b = s.cfg.sync then startTransaction s else huntSync1 b s) :=
  (exec_decOp hst b).trans (byteStep_waitSync2 hst b)

theorem exec_decId_first (hst : s.ses.st = .readId) (h0 : s.ses.fcnt = 0) (b : Byte) :
    exec (.decId b) s = .next (firstIdByte b s) :=
  (exec_decOp hst b).trans (byteStep_readId_first hst h0 b)

theorem exec_decId_second (hst : s.ses.st = .readId) (h0 : s.ses.fcnt ≠ 0) {b : Byte}
    (hlen : s.cfg.lenOf (shiftIn s.ses.facc b) ≤ s.cfg.maxLen) : exec (.decId b) s = .next (latchId b s) :=
  (exec_decOp hst b).trans (byteStep_readId_second hst h0 hlen)

theorem exec_decPay (hst : s.ses.st = .readPayload) (hcur : s.ses.cur < s.cfg.maxLen) (b : Byte) :
    exec (.decPay b) s = .next (storePayload b s) :=
  (exec_decOp hst b).trans (byteStep_readPayload hst hcur b)

theorem exec_decCrc_first (hst : s.ses.st = .readCrc) (h0 : s.ses.fcnt = 0) (b : Byte) :
    exec (.decCrc b) s = .next (firstCrcByte b s) :=
  (exec_decOp hst b).trans (byteStep_readCrc_first hst h0 b)

theorem exec_decCrc_second (hst : s.ses.st = .readCrc) (h0 : s.ses.fcnt ≠ 0) (b : Byte) :
    exec (.decCrc b) s = .next (finishFrame b s) :=
  (exec_decOp hst b).trans (byteStep_readCrc_second hst h0 b)

end

/-- A byte that is no sync byte is lost, and the decoder waits for the first one (R141, R201). -/
theorem huntSync1_of_ne {b : Byte} {s : State} (hb : b ≠ s.cfg.sync) : huntSync1 b s = takeCondition .desync s :=
  if_neg hb

/-- A field equal to the running CRC accepts the frame (R145). -/
theorem finishFrame_of_eq {b : Byte} {s : State} (h : shiftIn s.ses.facc b = s.ses.crc) :
    finishFrame b s = { withStatus .newData (sessionReturn s) with out := [byteOut .accepted] } := if_pos h

/-- Any other field rejects it (R145, R202). -/
theorem finishFrame_of_ne {b : Byte} {s : State} (h : shiftIn s.ses.facc b ≠ s.ses.crc) :
    finishFrame b s = takeCondition (.checksumMismatch (shiftIn s.ses.facc b) s.ses.crc) s := if_neg h

/-- Settles O28: the byte is the sync value or is lost. -/
theorem decSyncOneLooksForTheSyncByte : Obligations.DecSyncOneLooksForTheSyncByte := by
  intro b s hst
  rw [exec_decSync1 hst]
  by_cases hb : b = s.cfg.sync
  · subst hb
    rw [huntSync1_sync, if_pos rfl, if_pos rfl]
    rfl
  · rw [huntSync1_of_ne hb, if_neg hb, if_neg hb]
    rfl

/-- Settles O29: the sync pair starts a transaction, and any other byte is lost in either hunting state. -/
theorem decSyncTwoStartsTheTransaction : Obligations.DecSyncTwoStartsTheTransaction := by
  intro b s hst
  refine ⟨fun hb => ?_, fun hb => ?_⟩
  · rw [exec_decSync2 hst, if_pos hb]
    rfl
  · have hlost : exec (.decSync2 b) s = .next (takeCondition .desync s) := by
      rw [exec_decSync2 hst, if_neg hb, huntSync1_of_ne hb]
    have hlost' := (exec_decSync1 (s := { s with ses := { s.ses with st := .waitSync1 } }) rfl b).trans
      (congrArg Host.Outcome.next (huntSync1_of_ne hb))
    exact ⟨hlost.trans hlost'.symm, hlost⟩

/-- Settles O30: the field's count says which byte of the id it is. -/
theorem decIdAssemblesTheId : Obligations.DecIdAssemblesTheId := fun b _ hst =>
  ⟨fun h0 => exec_decId_first hst h0 b, fun h0 hlen => exec_decId_second hst h0 hlen⟩

/-- Settles O31: inside the buffer there is a cell to store to. -/
theorem decPayStoresTheByte : Obligations.DecPayStoresTheByte := fun b _ hst hcur => exec_decPay hst hcur b

/-- Settles O32: the field's count says which byte of the CRC field it is, and the completed field is compared. -/
theorem decCrcJudgesTheFrame : Obligations.DecCrcJudgesTheFrame := by
  refine fun b s hst => ⟨fun h0 => exec_decCrc_first hst h0 b, fun h0 hcrc => ?_, fun h0 hcrc => ?_⟩
  · rw [exec_decCrc_second hst h0, finishFrame_of_eq hcrc]
    rfl
  · rw [exec_decCrc_second hst h0, finishFrame_of_ne hcrc]
    rfl

/-! ### The result of a byte step (R90, R140) -/

/-- A byte step has one output: `Consumed`, or the result of a frame it ends, and then the session has returned. -/
def HasByteResult (t : State) : Prop :=
  ∃ o, t.out = [o] ∧ (o.rxResult = some .consumed
    ∨ (o.rxResult = some .accepted ∨ o.rxResult = some .rejected) ∧ t.ses = Session.init t.cfg)

/-- The output says `Consumed`. -/
theorem HasByteResult.of_consumed {t : State} {o : Outputs} (hout : t.out = [o]) (ho : o.rxResult = some .consumed) :
    HasByteResult t := ⟨o, hout, .inl ho⟩

theorem huntSync1_hasByteResult (b : Byte) (s : State) : HasByteResult (huntSync1 b s) := by
  unfold huntSync1
  split
  · exact .of_consumed rfl rfl
  · exact .of_consumed rfl rfl

theorem finishFrame_hasByteResult (b : Byte) (s : State) : HasByteResult (finishFrame b s) := by
  obtain ⟨o, hout, ho⟩ := finishFrame_out b s
  refine ⟨o, hout, .inr ⟨?_, by simp⟩⟩
  split at ho
  · exact .inl ho
  · exact .inr ho

theorem exec_decOp_hasByteResult {st : DSt} {b : Byte} {s t : State} (h : exec (decOp st b) s = .next t) :
    HasByteResult t := by
  cases st with
  | waitSync1 =>
    rw [execDecSync1_eq_next h]
    exact huntSync1_hasByteResult b s
  | waitSync2 =>
    obtain rfl | rfl := execDecSync2_eq_next h
    · exact .of_consumed rfl rfl
    · exact huntSync1_hasByteResult b s
  | readId =>
    obtain ⟨-, ⟨-, rfl⟩ | ⟨-, rfl⟩⟩ := execDecId_eq_next h
    · exact .of_consumed rfl rfl
    · exact .of_consumed rfl rfl
  | readPayload =>
    obtain ⟨-, -, rfl⟩ := execDecPay_eq_next h
    exact .of_consumed rfl rfl
  | readCrc =>
    obtain ⟨-, rfl | rfl⟩ := execDecCrc_eq_next h
    · exact .of_consumed rfl rfl
    · exact finishFrame_hasByteResult b s

theorem byteStep_hasByteResult {b : Byte} {s t : State} (h : byteStep b s = .next t) : HasByteResult t :=
  exec_decOp_hasByteResult ((byteStep_eq_exec b s).symm.trans h)

/-- The ports show the result of a byte step alone (R90). -/
theorem HasByteResult.shown_cases {t : State} (h : HasByteResult t) :
    (shown t).rxResult = some .consumed
      ∨ (shown t).rxResult = some .accepted ∨ (shown t).rxResult = some .rejected := by
  obtain ⟨o, hout, ho⟩ := h
  rw [shown, hout, shownOf_single]
  exact ho.imp_right And.left

/-- After other outputs, the ports show a byte step's result as they do alone (R175). -/
theorem HasByteResult.shownOf_append {t : State} (h : HasByteResult t) (os : List Outputs) :
    (shownOf (os ++ t.out)).rxResult = (shown t).rxResult := by
  obtain ⟨o, hout, ho⟩ := h
  obtain ⟨r, hr, hquiet⟩ : ∃ r, o.rxResult = some r ∧ r ≠ .quiet := by
    obtain ho | ⟨ho | ho, -⟩ := ho <;> exact ⟨_, ho, nofun⟩
  rw [shown, hout, shownOf_single, hr]
  exact shownOf_concat_rxResult os hr hquiet

/-! ### `DEC.POLL` (R152) -/

/-- The bytes `w`, fed back to back, leave `t`, and each of them gave `Consumed`. -/
def FeedsConsumed (w : List Byte) (s t : State) : Prop :=
  feed w s = .next t ∧ ∀ o ∈ t.out, o.rxResult = some .consumed

theorem FeedsConsumed.nil (s : State) : FeedsConsumed [] s s.quiet := ⟨rfl, List.forall_mem_nil _⟩

theorem FeedsConsumed.cons {b : Byte} {w : List Byte} {s u t : State} (hb : byteStep b s = .next u)
    (hu : (shown u).rxResult = some .consumed) (h : FeedsConsumed w u t) :
    FeedsConsumed (b :: w) s { t with out := u.out ++ t.out } := by
  obtain ⟨hfeed, hout⟩ := h
  obtain ⟨o, huout, -⟩ := byteStep_hasByteResult hb
  rw [shown, huout, shownOf_single] at hu
  refine ⟨followedBy_eq_next.2 ⟨u, t, hb, hfeed, rfl⟩, List.forall_mem_append.2 ⟨?_, hout⟩⟩
  rw [huout]
  exact List.forall_mem_singleton.2 hu

/-- Bytes fed back to back have one output each (R100). -/
theorem length_out_of_feed {w : List Byte} {s t : State} (h : feed w s = .next t) : t.out.length = w.length := by
  induction w generalizing s t with
  | nil => cases h; rfl
  | cons b w ih =>
    obtain ⟨u, v, hu, hv, rfl⟩ := followedBy_eq_next.1 h
    obtain ⟨o, hout, -⟩ := byteStep_hasByteResult hu
    rw [hout, List.singleton_append, List.length_cons, List.length_cons, ih hv]

theorem FeedsConsumed.take {w : List Byte} {s t : State} (h : FeedsConsumed w s t) (k : Nat) :
    ∃ u, FeedsConsumed (w.take k) s u := by
  obtain ⟨hfeed, hout⟩ := h
  rw [← List.take_append_drop k w, feed_append] at hfeed
  obtain ⟨u, v, hu, -, rfl⟩ := followedBy_eq_next.1 hfeed
  exact ⟨u, hu, (List.forall_mem_append.1 hout).1⟩

/-- After bytes that were consumed, the ports show `Consumed`. -/
theorem FeedsConsumed.shown {w : List Byte} {s t : State} (h : FeedsConsumed w s t) (hw : w ≠ []) :
    (shown t).rxResult = some .consumed := by
  obtain ⟨hfeed, hout⟩ := h
  have hlen := length_out_of_feed hfeed
  obtain hnil | ⟨os, o, hos⟩ := List.eq_nil_or_concat' t.out
  · rw [hnil] at hlen
    exact absurd (List.length_eq_zero_iff.1 hlen.symm) hw
  · rw [hos] at hout
    rw [Machine.shown, hos]
    exact shownOf_concat_rxResult os (hout o (by simp)) nofun

/-- One byte more: its own result is shown. -/
theorem FeedsConsumed.byte {w : List Byte} {b : Byte} {s u t : State} (h : FeedsConsumed w s u)
    (hb : byteStep b u = .next t) :
    ∃ x, feed (w ++ [b]) s = .next x ∧ t.quiet = x.quiet
      ∧ (Machine.shown x).rxResult = (Machine.shown t).rxResult := by
  obtain ⟨hfeed, -⟩ := h
  refine ⟨{ t with out := u.out ++ t.out }, ?_, rfl, (byteStep_hasByteResult hb).shownOf_append u.out⟩
  rw [feed_append]
  exact followedBy_eq_next.2 ⟨u, t, hfeed, (feed_singleton b u).trans hb, rfl⟩

/-- How a poll on the bytes `w` ends (R152): they run out, or a byte gives a terminal result. -/
inductive PollEnds (took : Bool) (w : List Byte) (s : State) (r : PollReturn) : Prop where
  | ranOut {t : State} (consumed : FeedsConsumed w s t) (state : r.state.quiet = t.quiet) (left : r.left = [])
      (result : r.result = if took = true ∨ w ≠ [] then .consumed else .noProgress)
  | ended {v : List Byte} {b : Byte} {u : State} (bytes : w = v ++ b :: r.left) (consumed : FeedsConsumed v s u)
      (last : byteStep b u = .next r.state) (shows : (shown r.state).rxResult = some r.result)
      (terminal : r.result = .accepted ∨ r.result = .rejected)

/-- A byte that was consumed comes before whatever ends the rest of the poll. -/
theorem PollEnds.cons {took : Bool} {b : Byte} {w : List Byte} {s u : State} {r : PollReturn}
    (hb : byteStep b s = .next u) (hu : (shown u).rxResult = some .consumed) (h : PollEnds true w u r) :
    PollEnds took (b :: w) s r := by
  cases h with
  | ranOut consumed state left result =>
    exact .ranOut (.cons hb hu consumed) state left (result.trans (by simp))
  | ended bytes consumed last shows terminal =>
    exact .ended (congrArg (List.cons b) bytes) (.cons hb hu consumed) ((byteStep_out _ _ _).trans last) shows terminal

theorem pollEnds {took : Bool} {w : List Byte} {s : State} {r : PollReturn} (h : poll took w s = .next r) :
    PollEnds took w s r := by
  induction w generalizing took s with
  | nil =>
    cases h
    exact .ranOut (.nil s) rfl rfl (by simp)
  | cons b w ih =>
    simp only [poll] at h
    cases hb : byteStep b s with
    | next t =>
      simp only [hb] at h
      obtain ht | ht | ht := (byteStep_hasByteResult hb).shown_cases <;> simp only [ht] at h
      · exact .cons hb ht (ih h)
      · cases h
        exact .ended (v := []) rfl (.nil s) ((byteStep_out b s []).trans hb) ht (.inl rfl)
      · cases h
        exact .ended (v := []) rfl (.nil s) ((byteStep_out b s []).trans hb) ht (.inr rfl)
    | fault f => simp [hb] at h
    | refused f => simp [hb] at h

/-- Among bytes that were consumed, each shows `Consumed`. -/
theorem FeedsConsumed.shown_take {w : List Byte} {s t : State} (h : FeedsConsumed w s t) {k : Nat} (h0 : 0 < k)
    (hk : k ≤ w.length) : ∃ u, feed (w.take k) s = .next u ∧ (Machine.shown u).rxResult = some .consumed := by
  obtain ⟨u, hu⟩ := h.take k
  refine ⟨u, hu.1, hu.shown fun hnil => ?_⟩
  have hlen := congrArg List.length hnil
  rw [List.length_take_of_le hk, List.length_nil] at hlen
  omega

/-- Settles O37: the bytes before the last were consumed, and the last one's result, if there is one, is the poll's. -/
theorem pollIsItsSteps : Obligations.PollIsItsSteps := by
  intro w s r h
  cases pollEnds h with
  | @ranOut t consumed state left result =>
    refine ⟨w, t, by simp [left], consumed.1, state, ?_⟩
    by_cases hw : w = []
    · subst hw
      obtain ⟨⟨⟩, -⟩ := consumed
      simp [result, shown]
    · have hresult : r.result = .consumed := by simpa [hw] using result
      simp only [hresult, consumed.shown hw, left, hw]
      simpa using fun k h0 hk => consumed.shown_take h0 (Nat.le_of_lt hk)
  | @ended v b u bytes consumed last shows terminal =>
    obtain ⟨x, hx, hquiet, hshown⟩ := consumed.byte last
    refine ⟨v ++ [b], x, by simp [bytes], hx, hquiet, ?_⟩
    have hbefore (k : Nat) (h0 : 0 < k) (hk : k < (v ++ [b]).length) :
        ∃ u, feed ((v ++ [b]).take k) s = .next u ∧ (shown u).rxResult = some .consumed := by
      have hkv : k ≤ v.length := Nat.le_of_lt_succ (by simpa using hk)
      rw [List.take_append_of_le_length hkv]
      exact consumed.shown_take h0 hkv
    rw [hshown, shows]
    have hw : w ≠ [] := by simp [bytes]
    obtain hr | hr := terminal <;> simpa [hr, hw] using hbefore

/-! ### The bytes a frame can still take (R151, R184 b) -/

/-- The bytes a two-byte field still takes (R22). -/
def fieldLeft (x : Session) : Nat := if x.fcnt = 0 then 2 else 1

/-- The bytes the frame under way still takes; while its length is not known, the most it can take. -/
def bytesToEnd (s : State) : Nat :=
  match s.ses.st with
  | .waitSync1 => 0
  | .waitSync2 => 0
  | .readId => fieldLeft s.ses + s.cfg.maxLen + 2
  | .readPayload => (s.rx.len - s.ses.cur) + 2
  | .readCrc => fieldLeft s.ses

section
variable {s : State}

theorem bytesToEnd_of_hunting (h : hunting s.ses.st = true) : bytesToEnd s = 0 := by
  cases hst : s.ses.st <;> simp_all [bytesToEnd]

theorem bytesToEnd_of_readId (h : s.ses.st = .readId) : bytesToEnd s = fieldLeft s.ses + s.cfg.maxLen + 2 := by
  simp only [bytesToEnd, h]

theorem bytesToEnd_of_readPayload (h : s.ses.st = .readPayload) : bytesToEnd s = (s.rx.len - s.ses.cur) + 2 := by
  simp only [bytesToEnd, h]

theorem bytesToEnd_of_readCrc (h : s.ses.st = .readCrc) : bytesToEnd s = fieldLeft s.ses := by
  simp only [bytesToEnd, h]

theorem fieldLeft_pos (x : Session) : 0 < fieldLeft x := by unfold fieldLeft; split <;> decide

theorem fieldLeft_le (x : Session) : fieldLeft x ≤ 2 := by unfold fieldLeft; split <;> decide

theorem fieldLeft_of_fcnt_eq {x : Session} (h : x.fcnt = 0) : fieldLeft x = 2 := if_pos h

theorem fieldLeft_of_fcnt_ne {x : Session} (h : x.fcnt ≠ 0) : fieldLeft x = 1 := if_neg h

/-- Mid-frame there is always a byte to come (R151). -/
theorem bytesToEnd_pos (h : hunting s.ses.st = false) : 0 < bytesToEnd s := by
  have := fieldLeft_pos s.ses
  cases hst : s.ses.st with
  | waitSync1 => simp [hst] at h
  | waitSync2 => simp [hst] at h
  | readId => rw [bytesToEnd_of_readId hst]; omega
  | readPayload => rw [bytesToEnd_of_readPayload hst]; omega
  | readCrc => rwa [bytesToEnd_of_readCrc hst]

theorem hunting_of_bytesToEnd_eq_zero (h : bytesToEnd s = 0) : hunting s.ses.st = true := by
  by_contra hmid
  exact (bytesToEnd_pos (Bool.not_eq_true _ ▸ hmid)).ne' h

/-- No frame takes more than the two bytes of the id, `MAX_LEN` and the two of the CRC field (R151). -/
theorem bytesToEnd_le (h : s.rx.len ≤ s.cfg.maxLen) : bytesToEnd s ≤ 4 + s.cfg.maxLen := by
  have := fieldLeft_le s.ses
  cases hst : s.ses.st with
  | waitSync1 => simp [bytesToEnd, hst]
  | waitSync2 => simp [bytesToEnd, hst]
  | readId => rw [bytesToEnd_of_readId hst]; omega
  | readPayload => rw [bytesToEnd_of_readPayload hst]; omega
  | readCrc => rw [bytesToEnd_of_readCrc hst]; omega

theorem bytesToEnd_congr {t : State} (hcfg : t.cfg = s.cfg) (hses : t.ses = s.ses) (hlen : t.rx.len = s.rx.len) :
    bytesToEnd t = bytesToEnd s := by
  simp only [bytesToEnd, hcfg, hses, hlen]

end

/-- The id is complete, and the frame takes payload bytes or those of the CRC field (R143 to R145). -/
structure InBody (s : State) : Prop where
  st : s.ses.st = .readPayload ∨ s.ses.st = .readCrc
  payload : s.ses.st = .readPayload → s.ses.fcnt = 0 ∧ s.ses.cur < s.rx.len
  lenLe : s.rx.len ≤ s.cfg.maxLen

theorem InBody.not_hunting {s : State} (h : InBody s) : hunting s.ses.st = false := by
  obtain hst | hst := h.st <;> rw [hst] <;> rfl

/-- When no more than one byte is to come, it is the second of the CRC field. -/
theorem InBody.atLastByte {s : State} (h : InBody s) (hleft : bytesToEnd s ≤ 1) :
    s.ses.st = .readCrc ∧ s.ses.fcnt ≠ 0 := by
  obtain hst | hst := h.st
  · rw [bytesToEnd_of_readPayload hst] at hleft
    omega
  · refine ⟨hst, fun h0 => ?_⟩
    rw [bytesToEnd_of_readCrc hst, fieldLeft_of_fcnt_eq h0] at hleft
    omega

/-- After the id the body begins, with the payload, or at once with the CRC field (R143). -/
theorem latchId_inBody {b : Byte} {s : State} (hlen : s.cfg.lenOf (shiftIn s.ses.facc b) ≤ s.cfg.maxLen) :
    InBody (latchId b s) ∧ bytesToEnd (latchId b s) = s.cfg.lenOf (shiftIn s.ses.facc b) + 2 := by
  by_cases h0 : s.cfg.lenOf (shiftIn s.ses.facc b) = 0
  · have hst : (latchId b s).ses.st = .readCrc := if_pos h0
    refine ⟨⟨.inr hst, fun hp => by simp [hst] at hp, hlen⟩, ?_⟩
    rw [bytesToEnd_of_readCrc hst, h0]
    rfl
  · have hst : (latchId b s).ses.st = .readPayload := if_neg h0
    exact ⟨⟨.inl hst, fun _ => ⟨rfl, Nat.pos_of_ne_zero h0⟩, hlen⟩, bytesToEnd_of_readPayload hst⟩

/-- A payload byte is one byte of the body (R144). -/
theorem storePayload_inBody (b : Byte) {s : State} (h : InBody s) (hst : s.ses.st = .readPayload) :
    InBody (storePayload b s) ∧ bytesToEnd (storePayload b s) + 1 = bytesToEnd s := by
  obtain ⟨h0, hcur⟩ := h.payload hst
  rw [bytesToEnd_of_readPayload hst]
  by_cases hend : s.ses.cur + 1 = s.rx.len
  · have hst' : (storePayload b s).ses.st = .readCrc := if_pos hend
    refine ⟨⟨.inr hst', fun hp => by simp [hst'] at hp, h.lenLe⟩, ?_⟩
    rw [bytesToEnd_of_readCrc hst', fieldLeft_of_fcnt_eq (x := (storePayload b s).ses) h0]
    omega
  · have hst' : (storePayload b s).ses.st = .readPayload := if_neg hend
    refine ⟨⟨.inl hst', fun _ => ⟨h0, Nat.lt_of_le_of_ne hcur hend⟩, h.lenLe⟩, ?_⟩
    rw [bytesToEnd_of_readPayload hst']
    simp only [storePayload]
    omega

/-- The first byte of the CRC field is one byte of the body (R145). -/
theorem firstCrcByte_inBody (b : Byte) {s : State} (h : InBody s) (hst : s.ses.st = .readCrc) (h0 : s.ses.fcnt = 0) :
    InBody (firstCrcByte b s) ∧ bytesToEnd (firstCrcByte b s) + 1 = bytesToEnd s := by
  have hst' : (firstCrcByte b s).ses.st = .readCrc := hst
  refine ⟨⟨.inr hst', fun hp => by simp [hst'] at hp, h.lenLe⟩, ?_⟩
  rw [bytesToEnd_of_readCrc hst', bytesToEnd_of_readCrc hst, fieldLeft_of_fcnt_eq h0]
  rfl

/-- Any byte but the last goes through and leaves one byte fewer to come (R151). -/
theorem byteStep_inBody (b : Byte) {s : State} (h : InBody s) (hleft : 1 < bytesToEnd s) :
    ∃ t, byteStep b s = .next t ∧ InBody t ∧ bytesToEnd t + 1 = bytesToEnd s := by
  obtain hst | hst := h.st
  · have hcur : s.ses.cur < s.cfg.maxLen := Nat.lt_of_lt_of_le (h.payload hst).2 h.lenLe
    exact ⟨_, byteStep_readPayload hst hcur b, storePayload_inBody b h hst⟩
  · have h0 : s.ses.fcnt = 0 := by
      by_contra h0
      rw [bytesToEnd_of_readCrc hst, fieldLeft_of_fcnt_ne h0] at hleft
      omega
    exact ⟨_, byteStep_readCrc_first hst h0 b, firstCrcByte_inBody b h hst h0⟩

/-- So do several, as long as one is still to come. -/
theorem feed_inBody {v : List Byte} {s : State} (h : InBody s) (hv : v.length < bytesToEnd s) :
    ∃ t, feed v s = .next t ∧ InBody t ∧ bytesToEnd t + v.length = bytesToEnd s := by
  induction v generalizing s with
  | nil => exact ⟨_, rfl, ⟨h.st, h.payload, h.lenLe⟩, rfl⟩
  | cons b v ih =>
    rw [List.length_cons] at hv ⊢
    obtain ⟨u, hu, hbody, hleft⟩ := byteStep_inBody b h (by omega)
    obtain ⟨t, ht, hbody', hleft'⟩ := ih hbody (by omega)
    exact ⟨_, followedBy_eq_next.2 ⟨u, t, hu, ht, rfl⟩, ⟨hbody'.st, hbody'.payload, hbody'.lenLe⟩,
      show bytesToEnd t + (v.length + 1) = _ by omega⟩

/-- The first bytes of a frame met at the entry to `ReadId`, short of its last one, leave the decoder mid-frame; all but
the last leave it before that one (R151). -/
theorem feed_take_frame {s : State} {hi lo : Byte} {w : List Byte} (hst : s.ses.st = .readId) (h0 : s.ses.fcnt = 0)
    (hlen : s.cfg.lenOf (joinBytes hi lo) ≤ s.cfg.maxLen) (hw : w.length = s.cfg.lenOf (joinBytes hi lo) + 2)
    {j : Nat} (hj : j < (hi :: lo :: w).length) :
    ∃ u, feed ((hi :: lo :: w).take j) s = .next u ∧ hunting u.ses.st = false
      ∧ (j + 1 = (hi :: lo :: w).length → u.ses.st = .readCrc ∧ u.ses.fcnt ≠ 0) := by
  simp only [List.length_cons] at hj ⊢
  have hfirst := byteStep_readId_first hst h0 hi
  match j with
  | 0 => exact ⟨_, rfl, by simp [hst], by omega⟩
  | 1 => exact ⟨_, (feed_singleton hi s).trans hfirst, by simp [firstIdByte, hst], by omega⟩
  | j + 2 =>
    have hfield : shiftIn (firstIdByte hi s).ses.facc lo = joinBytes hi lo := shiftIn_shiftIn s.ses.facc hi lo
    have hlen' : (firstIdByte hi s).cfg.lenOf (shiftIn (firstIdByte hi s).ses.facc lo)
        ≤ (firstIdByte hi s).cfg.maxLen := by
      rw [hfield]
      exact hlen
    have hsecond := byteStep_readId_second (s := firstIdByte hi s) hst Fin.zero_ne_one.symm hlen'
    obtain ⟨hbody, hleft⟩ := latchId_inBody hlen'
    rw [hfield, show (firstIdByte hi s).cfg = s.cfg from rfl, ← hw] at hleft
    have hshort : (w.take j).length = j := List.length_take_of_le (by omega)
    obtain ⟨t, ht, hbody', hleft'⟩ := feed_inBody (v := w.take j) hbody (by omega)
    exact ⟨_, followedBy_eq_next.2 ⟨_, _, hfirst, followedBy_eq_next.2 ⟨_, t, hsecond, ht, rfl⟩, rfl⟩,
      hbody'.not_hunting, fun hlast => hbody'.atLastByte (by omega)⟩

/-! ### The parts of a step of signals around its byte (R175) -/

/-- Each result that ends a frame came with the return of the session, and nothing has happened to it since (R146). -/
def TerminalReturns (t : State) : Prop :=
  ∀ o ∈ t.out, ∀ r, o.rxResult = some r → rxTerminal r = true → t.ses = Session.init t.cfg

theorem LeaveRxResult.not_terminal {outs : List Outputs} (h : LeaveRxResult outs) {o : Outputs} (ho : o ∈ outs)
    {r : RxResult} (hr : o.rxResult = some r) : rxTerminal r = false := by
  obtain hnone | hquiet := h o ho
  · exact absurd (hnone.symm.trans hr) nofun
  · obtain rfl := Option.some.inj (hquiet.symm.trans hr)
    rfl

theorem terminalReturns_of_leaves {t : State} (h : LeaveRxResult t.out) : TerminalReturns t :=
  fun _ ho _ hr hterminal => absurd ((h.not_terminal ho hr).symm.trans hterminal) nofun

theorem terminalReturns_of_no_output {t : State} (h : t.out = []) : TerminalReturns t := by
  rw [TerminalReturns, h]
  exact List.forall_mem_nil _

theorem HasByteResult.terminalReturns {t : State} (h : HasByteResult t) : TerminalReturns t := by
  obtain ⟨o, hout, ho⟩ := h
  rw [TerminalReturns, hout, List.forall_mem_singleton]
  intro r hr hterminal
  obtain hconsumed | ⟨-, hses⟩ := ho
  · obtain rfl := Option.some.inj (hconsumed.symm.trans hr)
    cases hterminal
  · exact hses

/-- What a tick or an encoder operation leaves after the byte: a frame that has ended stays ended, one under way has no
more bytes to come than before. -/
structure AfterFrame (s t : State) : Prop where
  beside : BesideByte s t
  returns : TerminalReturns t
  left : bytesToEnd t ≤ bytesToEnd s

theorem AfterFrame.passesAlong : PassesAlong AfterFrame where
  quiet := fun s => ⟨BesideByte.passesAlong.quiet s, terminalReturns_of_no_output rfl, le_rfl⟩
  followed := fun {s u v} hu hv => by
    refine ⟨BesideByte.passesAlong.followed hu.beside hv.beside, fun o ho r hr hterminal => ?_,
      hv.left.trans hu.left⟩
    obtain ho | ho := List.mem_append.1 ho
    · have hinit := hv.beside.ses (hu.returns o ho r hr hterminal)
      rwa [← hv.beside.cfg] at hinit
    · exact hv.returns o ho r hr hterminal

theorem AfterFrame.tick {s t : State} (h : execSysTick s = .next t) : AfterFrame s t := by
  have hbeside := BesideByte.tick h
  have hquiet : LeaveRxResult [quietOut .quiet] := fun o ho => .inr (by rw [List.mem_singleton.1 ho]; rfl)
  obtain rfl | ⟨-, rfl | rfl⟩ := execSysTick_eq_next h
  · exact ⟨hbeside, terminalReturns_of_leaves hquiet, le_rfl⟩
  · exact ⟨hbeside, terminalReturns_of_leaves hquiet, le_rfl⟩
  · exact ⟨hbeside, fun _ _ _ _ _ => rfl, Nat.zero_le _⟩

theorem AfterFrame.encoderOp {i : Instr} {s t : State} (hi : isEncoderOp i = true) (h : exec i s = .next t) :
    AfterFrame s t := by
  obtain ⟨hcfg, hses, hrx, -, -⟩ := (OnEncoder.exec hi).fields h
  have hout := (EncoderEffect.exec hi h).noRxResult
  exact ⟨.encoderOp hi h, terminalReturns_of_leaves fun o ho => .inl (hout o ho),
    (bytesToEnd_congr hcfg hses (by rw [hrx])).le⟩

/-- Operations in two parts that went through. -/
theorem inOrder_append_eq_next {is js : List Instr} {s t : State} (h : inOrder (is ++ js) s = .next t) :
    ∃ u v, inOrder is s = .next u ∧ inOrder js u = .next v ∧ t = { v with out := u.out ++ v.out } := by
  induction is generalizing s t with
  | nil => exact ⟨s.quiet, t, rfl, (inOrder_out_unread js s []).trans h, rfl⟩
  | cons i is ih =>
    obtain ⟨x, y, hx, hy, rfl⟩ := followedBy_eq_next.1 h
    obtain ⟨u, v, hu, hv, rfl⟩ := ih hy
    exact ⟨_, v, followedBy_eq_next.2 ⟨x, u, hx, hu, rfl⟩, (inOrder_out_unread js u _).trans hv,
      by simp only [List.append_assoc]⟩

/-- The two states agree in what the bytes to come are counted from. -/
structure SameFrame (s t : State) : Prop where
  cfg : t.cfg = s.cfg
  ses : t.ses = s.ses
  len : t.rx.len = s.rx.len

/-- A step of signals: a take, if one is asked, leaves `a`; the byte or the empty poll, `m`; the rest, `v`. -/
theorem step_parts {s t : State} {g : Signals} {rest : List Input} (hin : s.inputs = .signals g :: rest)
    (hrst : g.rst = false) (ht : step s = .next t) :
    ∃ a m v, SameFrame s a ∧ LeaveRxResult a.out ∧ inOrder (byteOps s.ses.st g.rx) a = .next m ∧ AfterFrame m v
      ∧ t = { v with out := a.out ++ (m.out ++ v.out) } := by
  have hops : operationsOf g s = (if g.take then [.sysTake] else [])
      ++ (byteOps s.ses.st g.rx ++ ((if g.tick then [.sysTick] else []) ++ encoderOps s.enc.st g.enc)) := by
    rw [operationsOf_eq]
    simp only [receiveOps, List.append_assoc]
  rw [stepPerformsRequestsInOrder s g rest hin hrst, hops] at ht
  obtain ⟨a, x, ha, hx, rfl⟩ := inOrder_append_eq_next ht
  obtain ⟨m, v, hm, hv, rfl⟩ := inOrder_append_eq_next hx
  have htake : SameFrame s a ∧ LeaveRxResult a.out := by
    cases hg : g.take with
    | false => rw [hg] at ha; cases ha; exact ⟨⟨rfl, rfl, rfl⟩, List.forall_mem_nil _⟩
    | true => rw [hg] at ha; cases ha; exact ⟨⟨rfl, rfl, rfl⟩, by simp [LeaveRxResult, quietOut]⟩
  refine ⟨a, m, v, htake.1, htake.2, hm, AfterFrame.passesAlong.inOrder (fun i hi p q hpq => ?_) hv, rfl⟩
  obtain hi | hi := List.mem_append.1 hi
  · split at hi
    · rw [List.mem_singleton.1 hi] at hpq
      exact .tick hpq
    · cases hi
  · exact .encoderOp (isEncoderOp_of_mem_encoderOps hi) hpq

/-! ### Where a frame ends (R151) -/

/-- What the ports show is the result of one of the operations. -/
theorem exists_of_shownOf {os : List Outputs} {r : RxResult} (h : (shownOf os).rxResult = some r) :
    ∃ o ∈ os, o.rxResult = some r := by
  induction os using List.reverseRecOn with
  | nil => cases h
  | append_singleton os o ih =>
    rw [shownOf_concat] at h
    have hcases : o.rxResult = some r ∨ (shownOf os).rxResult = some r := by
      simp only [Outputs.merge, laterRx] at h
      split at h
      · next ha _ => exact .inr (ha.trans h)
      · exact .inr h
      · exact .inl h
    obtain ho | hos := hcases
    · exact ⟨o, by simp, ho⟩
    · obtain ⟨p, hp, hres⟩ := ih hos
      exact ⟨p, List.mem_append_left _ hp, hres⟩

theorem byteOps_terminalReturns {st : DSt} {x : RxIn} {s t : State} (h : inOrder (byteOps st x) s = .next t) :
    TerminalReturns t := by
  cases x with
  | notAsked => cases h; exact terminalReturns_of_no_output rfl
  | empty =>
    cases h
    intro o ho r hr hterminal
    rw [List.mem_singleton.1 ho] at hr
    cases hr
    cases hterminal
  | byte b =>
    rw [byteOps, inOrder_singleton] at h
    exact (exec_decOp_hasByteResult h).terminalReturns

/-- A step of signals that shows a terminal result leaves the decoder hunting (R145, R146, R173). -/
theorem hunting_of_terminal {s t : State} {g : Signals} {rest : List Input} (hin : s.inputs = .signals g :: rest)
    (hrst : g.rst = false) (ht : step s = .next t) {r : RxResult} (hr : (shown t).rxResult = some r)
    (hterminal : rxTerminal r = true) : hunting t.ses.st = true := by
  obtain ⟨a, m, v, -, hquiet, hm, hafter, rfl⟩ := step_parts hin hrst ht
  obtain ⟨o, ho, hres⟩ := exists_of_shownOf hr
  have hinit : v.ses = Session.init v.cfg := by
    obtain ho | ho | ho : o ∈ a.out ∨ o ∈ m.out ∨ o ∈ v.out := by simpa using ho
    · exact absurd ((hquiet.not_terminal ho hres).symm.trans hterminal) nofun
    · have hreturn := byteOps_terminalReturns hm o ho r hres hterminal
      exact hafter.beside.cfg ▸ hafter.beside.ses hreturn
    · exact hafter.returns o ho r hres hterminal
  change hunting v.ses.st = true
  rw [hinit]
  rfl

/-- The first steps of a delivery, seen from the bytes they carry (R187). -/
theorem Feeds.run_take {s u : State} {gs : List Signals} {w : List Byte} (h : Feeds s gs w) {k : Nat}
    (hk : k ≤ gs.length) (hu : feed (bytesOf (gs.take k)) s = .next u) :
    ∃ t rest, run k s = .next t ∧ SameReading u t ∧ InFlightOk t
      ∧ t.inputs = (gs.drop k).map .signals ++ rest := by
  obtain ⟨⟨rest, hin⟩, -, hgs, henc, hout⟩ := h
  have hlen : (gs.take k).length = k := List.length_take_of_le hk
  have hpre : trace (gs.take k).length s <+: trace gs.length s := by
    rw [hlen, ← Nat.add_sub_of_le hk]
    exact trace_prefix _ _ _
  obtain ⟨t, ht, hreading, hflight, hrest⟩ := run_reads (gs := gs.take k) (rest := (gs.drop k).map .signals ++ rest)
    (by rw [← hin, ← List.append_assoc, ← List.map_append, List.take_append_drop])
    (fun g hg => hgs g (List.mem_of_mem_take hg)) (inFlightOk_of_encoderOk henc)
    (fun o ho => hout o (hpre.subset ho)) (.refl s) hu
  exact ⟨t, rest, hlen ▸ ht, hreading, hflight, hrest⟩

/-- The bytes that the first steps of a delivery carry, when it ends with a byte: its first ones, short of the last; all
but the last before the last step. -/
theorem bytesOf_take {gs : List Signals} (hends : endsWithByte gs) {k : Nat} (hk : k < gs.length) :
    ∃ j < (bytesOf gs).length, bytesOf (gs.take k) = (bytesOf gs).take j
      ∧ (k + 1 = gs.length → j + 1 = (bytesOf gs).length) := by
  obtain ⟨hs, g, b, rfl, -, hconcat⟩ := eq_concat_of_endsWithByte hends
  rw [List.length_append, List.length_singleton] at hk ⊢
  have hpre : bytesOf (hs.take k) <+: bytesOf hs := (List.take_prefix k hs).filterMap _
  rw [List.take_append_of_le_length (Nat.le_of_lt_succ hk), hconcat, List.length_append, List.length_singleton]
  refine ⟨(bytesOf (hs.take k)).length, Nat.lt_succ_of_le hpre.length_le, ?_, fun hlast => ?_⟩
  · rw [List.take_append_of_le_length hpre.length_le]
    exact List.prefix_iff_eq_take.1 hpre
  · rw [Nat.succ.inj hlast, List.take_length]

/-- A run of one step more. -/
theorem run_succ_eq_next {s u t : State} {k : Nat} (hu : run k s = .next u) (ht : run (k + 1) s = .next t) :
    step u = .next t := by
  rw [run_add hu, run_succ] at ht
  obtain ⟨v, hv, ⟨⟩⟩ := andThen_eq_next.1 ht
  exact hv

/-- Before the last step of a frame's delivery not all its bytes have come: the decoder is mid-frame, and before the last
byte it waits for the second of the CRC field (R151, R187). -/
theorem run_inside_frame {s : State} {gs : List Signals} {hi lo : Byte} {w : List Byte} (hst : s.ses.st = .readId)
    (h0 : s.ses.fcnt = 0) (hlen : s.cfg.lenOf (joinBytes hi lo) ≤ s.cfg.maxLen)
    (hw : w.length = s.cfg.lenOf (joinBytes hi lo) + 2) (hfeeds : Feeds s gs (hi :: lo :: w)) (hends : endsWithByte gs)
    {k : Nat} (hk : k < gs.length) :
    ∃ t rest, run k s = .next t ∧ t.cfg = s.cfg ∧ InFlightOk t ∧ t.inputs = .signals gs[k] :: rest
      ∧ hunting t.ses.st = false ∧ (k + 1 = gs.length → t.ses.st = .readCrc ∧ t.ses.fcnt ≠ 0) := by
  have ⟨_, hbytes, _⟩ := hfeeds
  obtain ⟨j, hj, htake, hlast⟩ := bytesOf_take hends hk
  rw [hbytes] at hj htake hlast
  obtain ⟨u, hu, hmid, hend⟩ := feed_take_frame hst h0 hlen hw hj
  obtain ⟨t, rest, ht, ⟨hcfg, ⟨n, hses⟩, -⟩, hflight, hin⟩ := hfeeds.run_take hk.le (htake ▸ hu)
  rw [List.drop_eq_getElem_cons hk, List.map_cons, List.cons_append] at hin
  refine ⟨t, _, ht, hcfg.trans ((OnReceiveSide.feed _).cfg hu), hflight, hin, ?_⟩
  rw [hses]
  exact ⟨hmid, fun hk => hend (hlast hk)⟩

/-- Settles O34: the last byte is the second of the CRC field, and a step with a terminal result ends the frame. -/
theorem frameEndsAfterItsBytes : Obligations.FrameEndsAfterItsBytes := by
  intro s gs hi lo w hst h0 hlen hw hfeeds hends
  have ⟨_, _, hgs, _⟩ := hfeeds
  have hinside {k : Nat} (hk : k < gs.length) := run_inside_frame hst h0 hlen hw hfeeds hends hk
  refine ⟨?_, fun k hk => ?_⟩
  · obtain ⟨hs, g, b, rfl, hbyte, -⟩ := eq_concat_of_endsWithByte hends
    obtain ⟨t, rest, ht, hcfg, hflight, hin, -, hlast⟩ := hinside (k := hs.length) (by simp)
    rw [List.getElem_concat_length rfl] at hin
    obtain ⟨hrst, hok⟩ := hgs g (by simp)
    obtain ⟨hcrc, hfcnt⟩ := hlast (by simp)
    obtain ⟨x, hx, -, hses, hshown, -⟩ := step_judges hin hrst (hcfg.symm ▸ hok) hflight hbyte hcrc hfcnt
    refine ⟨x, ?_, hcfg ▸ hses, ?_⟩
    · rw [List.length_append]
      exact (run_add ht 1).trans ((run_succ_of_step hx 0).trans rfl)
    · split at hshown
      · exact .inl hshown
      · exact .inr hshown
  · obtain ⟨t, -, ht, -, -, -, hmid, -⟩ := hinside hk
    refine ⟨t, ht, hmid, fun hpos r hr => ?_⟩
    obtain ⟨j, rfl⟩ := Nat.exists_eq_add_of_le' hpos
    obtain ⟨u, rest, hu, -, -, hin, -⟩ := hinside (k := j) (by omega)
    obtain ⟨hrst, -⟩ := hgs _ (List.getElem_mem _)
    by_contra hterminal
    have hhunting := hunting_of_terminal hin hrst (run_succ_eq_next hu ht) hr (by simpa using hterminal)
    exact absurd (hmid.symm.trans hhunting) nofun

/-! ### Back to hunting (R184 b, R187) -/

/-- Reset overrides the other requests of its step (R171, R175). -/
theorem step_of_rst {s : State} {g : Signals} {rest : List Input} (hin : s.inputs = .signals g :: rest)
    (hrst : g.rst = true) : step s = exec .sysReset { s with inputs := rest } := by
  have hwords : selectWords g { s with inputs := rest } = [sysWord true g.take g.tick] := if_pos hrst
  have hdecode : decode s.cfg (sysWord true g.take g.tick) = .ok .sysReset := by
    cases g.take <;> cases g.tick <;> rfl
  rw [step_of_inputs_cons hin, perform, hwords, runWords_singleton]
  exact runWord_of_decode hdecode

/-- A step of signals goes through from every state that meets the invariant (R186). -/
theorem step_goes_through {s : State} {g : Signals} {rest : List Input} (hinv : Inv s)
    (hin : s.inputs = .signals g :: rest) : ∃ t, step s = .next t := by
  cases hrst : g.rst with
  | true => exact ⟨_, step_of_rst hin hrst⟩
  | false =>
    obtain ⟨m, ⟨hcfg, henc, -, -⟩, -, hstep⟩ := step_eq_encoder hinv hin hrst
    obtain ⟨-, -, hencoder, -, -, hinputs⟩ := hinv
    have hok : inputOk s.cfg (.signals g) = true := hinputs _ (by simp [hin])
    obtain ⟨v, hv, -⟩ := encoderOps_go_through (hcfg.symm ▸ hok)
      ((inFlightOk_of_encoderOk hencoder).congr hcfg henc)
    rw [henc] at hv
    rw [hv, putBefore_next] at hstep
    exact ⟨_, hstep⟩

/-- No operation takes or adds a pending input. -/
theorem sameInputs_stepRule : StepRule fun s t => t.inputs = s.inputs where
  quiet := fun _ => rfl
  followed := fun hu hv => hv.trans hu
  encoder := fun hi h => by
    obtain ⟨-, -, -, -, hinputs⟩ := (OnEncoder.exec hi).fields h
    exact hinputs
  decoder := fun hi h => by
    obtain ⟨-, -, -, -, hinputs⟩ := (OnReceiveSide.exec (isReceiveOp_of_isDecoderOp hi)).fields h
    exact hinputs
  reset := fun h => by cases h; rfl
  take := fun h => by cases h; rfl
  tick := fun h => by
    obtain ⟨-, -, -, -, hinputs⟩ := OnReceiveSide.sysTick.fields h
    exact hinputs

/-- With the id complete, the invariant says what the body needs (R23, R154). -/
theorem ReceiveOk.inBody {s : State} (h : ReceiveOk s.cfg s.ses s.rx) (hmid : hunting s.ses.st = false)
    (hst : s.ses.st ≠ .readId) : InBody s where
  st := by cases hst' : s.ses.st <;> simp_all
  payload := fun hp => ⟨by
    by_contra h0
    obtain hid | hcrc := h.fcntOne (Fin.eq_one_of_ne_zero _ h0)
    · exact hst hid
    · exact absurd (hp.symm.trans hcrc) nofun, h.curInside hp⟩
  lenLe := h.lenLe

/-- A byte of the id leaves fewer bytes to come: the length it may latch is at most `MAX_LEN` (R143). -/
theorem bytesToEnd_byteStep_lt_of_readId {b : Byte} {s t : State} (hst : s.ses.st = .readId)
    (h : byteStep b s = .next t) : bytesToEnd t < bytesToEnd s := by
  rw [bytesToEnd_of_readId hst]
  by_cases h0 : s.ses.fcnt = 0
  · rw [byteStep_readId_first hst h0] at h
    cases h
    have hcount : fieldLeft (firstIdByte b s).ses = 1 := rfl
    have hcfg : (firstIdByte b s).cfg = s.cfg := rfl
    rw [bytesToEnd_of_readId (s := firstIdByte b s) hst, hcount, hcfg, fieldLeft_of_fcnt_eq h0]
    omega
  · have hlen := lenOf_le_of_byteStep hst h0 h
    rw [byteStep_readId_second hst h0 hlen] at h
    cases h
    obtain ⟨-, hleft⟩ := latchId_inBody hlen
    rw [hleft, fieldLeft_of_fcnt_ne h0]
    omega

/-- So does a byte of the body: the last one ends the frame (R144, R145). -/
theorem InBody.byteStep_lt {b : Byte} {s t : State} (hbody : InBody s) (h : byteStep b s = .next t) :
    bytesToEnd t < bytesToEnd s := by
  by_cases hleft : 1 < bytesToEnd s
  · obtain ⟨u, hu, -, hcount⟩ := byteStep_inBody b hbody hleft
    obtain rfl := Host.Outcome.next.inj (hu.symm.trans h)
    exact Nat.lt_of_succ_le hcount.le
  · obtain ⟨hcrc, h0⟩ := hbody.atLastByte (Nat.not_lt.1 hleft)
    rw [byteStep_readCrc_second hcrc h0] at h
    cases h
    rw [bytesToEnd_of_hunting (s := finishFrame b s) (by simp)]
    exact bytesToEnd_pos hbody.not_hunting

theorem SameFrame.bytesToEnd_eq {s t : State} (h : SameFrame s t) : bytesToEnd t = bytesToEnd s :=
  bytesToEnd_congr h.cfg h.ses h.len

theorem SameFrame.inBody {s t : State} (h : SameFrame s t) (hbody : InBody s) : InBody t where
  st := by rw [h.ses]; exact hbody.st
  payload := by rw [h.ses, h.len]; exact hbody.payload
  lenLe := by rw [h.len, h.cfg]; exact hbody.lenLe

/-- The byte of a step mid-frame leaves fewer bytes to come; an empty poll, or none, leaves as many (R140, R147). -/
theorem bytesToEnd_byteOps_le {s a m : State} (hreceive : ReceiveOk s.cfg s.ses s.rx) (hmid : hunting s.ses.st = false)
    (hsame : SameFrame s a) {g : Signals} (hm : inOrder (byteOps s.ses.st g.rx) a = .next m) :
    bytesToEnd m + (rxByte g).toList.length ≤ bytesToEnd s := by
  rw [← hsame.bytesToEnd_eq]
  cases hrx : g.rx with
  | notAsked =>
    rw [hrx] at hm
    cases hm
    simp only [rxByte, hrx]
    exact le_rfl
  | empty =>
    rw [hrx] at hm
    cases hm
    simp only [rxByte, hrx]
    exact le_rfl
  | byte b =>
    rw [hrx, byteOps, inOrder_singleton, ← hsame.ses, ← byteStep_eq_exec] at hm
    simp only [rxByte, hrx]
    by_cases hst : s.ses.st = .readId
    · exact bytesToEnd_byteStep_lt_of_readId (hsame.ses ▸ hst) hm
    · exact (hsame.inBody (hreceive.inBody hmid hst)).byteStep_lt hm

/-- A step of signals mid-frame, whatever it asks for: its byte is one of those to come, and nothing adds to them. -/
theorem step_bytesToEnd {s : State} {g : Signals} {rest : List Input} (hinv : Inv s)
    (hin : s.inputs = .signals g :: rest) (hmid : hunting s.ses.st = false) :
    ∃ t, step s = .next t ∧ t.inputs = rest ∧ bytesToEnd t + (rxByte g).toList.length ≤ bytesToEnd s := by
  obtain ⟨t, ht⟩ := step_goes_through hinv hin
  refine ⟨t, ht, sameInputs_stepRule.signals ((step_of_inputs_cons hin).symm.trans ht), ?_⟩
  cases hrst : g.rst with
  | true =>
    rw [step_of_rst hin hrst] at ht
    cases ht
    have hone : (rxByte g).toList.length ≤ 1 := by cases rxByte g <;> simp
    exact (Nat.zero_add _).trans_le (hone.trans (bytesToEnd_pos hmid))
  | false =>
    obtain ⟨-, hreceive, -, -⟩ := (inv_iff s).1 hinv
    obtain ⟨a, m, v, hsame, -, hm, hafter, rfl⟩ := step_parts hin hrst ht
    exact (Nat.add_le_add_right hafter.left _).trans (bytesToEnd_byteOps_le hreceive hmid hsame hm)

/-- As many bytes as the frame can still take end it, whatever stands beside them. -/
theorem run_reaches_hunting {gs : List Signals} {s : State} {rest : List Input} (hinv : Inv s)
    (hin : s.inputs = gs.map .signals ++ rest) (hleft : bytesToEnd s ≤ (bytesOf gs).length) :
    ∃ k ≤ gs.length, ∃ t, run k s = .next t ∧ hunting t.ses.st = true := by
  induction gs generalizing s with
  | nil => exact ⟨0, le_rfl, s, rfl, hunting_of_bytesToEnd_eq_zero (Nat.le_zero.1 hleft)⟩
  | cons g gs ih =>
    cases hst : hunting s.ses.st with
    | true => exact ⟨0, Nat.zero_le _, s, rfl, hst⟩
    | false =>
      obtain ⟨u, hu, hrest, hless⟩ := step_bytesToEnd hinv hin hst
      rw [bytesOf_cons, List.length_append] at hleft
      obtain ⟨k, hk, t, ht, hhunting⟩ := ih (stepKeepsTheInvariant s u hinv hu) hrest (by omega)
      exact ⟨k + 1, Nat.succ_le_succ hk, t, (run_succ_of_step hu k).trans ht, hhunting⟩

/-- Settles O43: no frame takes more than `4 + MAX_LEN` bytes. -/
theorem huntingAgainWithinOneFrame : Obligations.HuntingAgainWithinOneFrame := by
  intro s gs hinv hin hbytes
  obtain ⟨rest, hin⟩ := hin
  obtain ⟨-, hreceive, -, -⟩ := (inv_iff s).1 hinv
  exact run_reaches_hunting hinv hin.symm (hbytes ▸ bytesToEnd_le hreceive.lenLe)

end Sys2Proof.Machine
end

section
/-! Statements of 43_system.md: the system operations (O47 to O49), a byte and a tick of one step (O7), and the
watchdog's bound on a starved frame (O51). -/

namespace Sys2Proof.Machine

/-! ### `SYS.RESET` and `SYS.TAKE` (R171, R172) -/

/-- Settles O47: reset writes those registers, and no other request of its step is performed. -/
theorem resetSetsEveryRegister : Obligations.ResetSetsEveryRegister := ⟨fun _ => rfl, fun _ _ _ => step_of_rst⟩

/-- Settles O48: the operation is that one update. -/
theorem takeReleasesTheMessage : Obligations.TakeReleasesTheMessage := fun _ => rfl

/-! ### `SYS.TICK` (R173, R204) -/

section
variable {s : State} {limit : PNat}

theorem execSysTick_of_no_limit (h : s.cfg.watchdogLimit = none) :
    execSysTick s = .next { s with out := [quietOut .quiet] } := by
  simp only [execSysTick, h]

theorem execSysTick_of_hunting (h : hunting s.ses.st = true) :
    execSysTick s = .next { s with out := [quietOut .quiet] } := by
  cases hlimit : s.cfg.watchdogLimit with
  | none => exact execSysTick_of_no_limit hlimit
  | some limit => simp only [execSysTick, hlimit, h, if_true]

/-- Mid-frame with a limit, the counter decides whether the tick fires. -/
theorem execSysTick_midframe (hlimit : s.cfg.watchdogLimit = some limit) (hmid : hunting s.ses.st = false) :
    execSysTick s = .next (if (limit : Nat) ≤ s.ses.wd + 1 then takeCondition (.truncated s.ses.st s.ses.cur) s
      else { s with ses := { s.ses with wd := s.ses.wd + 1 }, out := [quietOut .quiet] }) := by
  simp only [execSysTick, hlimit, hmid, Bool.false_eq_true, if_false]
  exact (apply_ite Host.Outcome.next _ _ _).symm

theorem execSysTick_fires (hlimit : s.cfg.watchdogLimit = some limit) (hmid : hunting s.ses.st = false)
    (hwd : (limit : Nat) ≤ s.ses.wd + 1) :
    execSysTick s = .next (takeCondition (.truncated s.ses.st s.ses.cur) s) := by
  rw [execSysTick_midframe hlimit hmid, if_pos hwd]

theorem execSysTick_counts (hlimit : s.cfg.watchdogLimit = some limit) (hmid : hunting s.ses.st = false)
    (hwd : ¬ (limit : Nat) ≤ s.ses.wd + 1) :
    execSysTick s = .next { s with ses := { s.ses with wd := s.ses.wd + 1 }, out := [quietOut .quiet] } := by
  rw [execSysTick_midframe hlimit hmid, if_neg hwd]

end

/-- Settles O49: the limit, the decoder's state and the counter decide, in this order. -/
theorem tickCountsOrTruncates : Obligations.TickCountsOrTruncates := by
  intro s
  constructor
  · rintro (hnone | hst | hst)
    · exact execSysTick_of_no_limit hnone
    · exact execSysTick_of_hunting (by rw [hst]; rfl)
    · exact execSysTick_of_hunting (by rw [hst]; rfl)
  · intro limit hlimit hst
    have hmid : hunting s.ses.st = false := by obtain hst | hst | hst := hst <;> rw [hst] <;> rfl
    exact execSysTick_midframe hlimit hmid

/-! ### A byte and a tick of one step (R175, R208) -/

/-- The result of an operation before a `Quiet` one stays on the ports (R175). -/
theorem shownOf_concat_quiet {os : List Outputs} {r : RxResult} (h : (shownOf os).rxResult = some r) :
    (shownOf (os ++ [quietOut .quiet])).rxResult = some r := by
  rw [shownOf_concat]
  simp only [Outputs.merge, h, quietOut, laterRx]

section
variable {s t₁ : State} {b : Byte} {rest : List Input}
  (hin : s.inputs = .signals { rx := .byte b, tick := true } :: rest)
  (hbyte : byteStep b { s with inputs := rest } = .next t₁)
include hin hbyte

/-- The tick is performed on what the byte left. -/
theorem step_byte_tick : step s = putBefore t₁.out (execSysTick t₁) := by
  rw [stepPerformsRequestsInOrder s _ rest hin rfl]
  have hops : operationsOf { rx := .byte b, tick := true } s = [decOp s.ses.st b] ++ [.sysTick] := rfl
  have hfirst : inOrder [decOp s.ses.st b] { s with inputs := rest } = .next t₁ :=
    ((inOrder_singleton _ _).trans (byteStep_eq_exec b _).symm).trans hbyte
  have hsecond : inOrder [.sysTick] t₁ = execSysTick t₁ := inOrder_singleton .sysTick t₁
  rw [hops, inOrder_append _ hfirst, hsecond]

/-- A tick that fires after a byte returns the session; all else is as the byte left it. -/
theorem step_byte_firing_tick {limit : PNat} (hlimit : s.cfg.watchdogLimit = some limit)
    (hmid : hunting t₁.ses.st = false) (hwd : (limit : Nat) ≤ t₁.ses.wd + 1) :
    ∃ t, step s = .next t ∧ (shown t).rxResult = some .truncated
      ∧ t.quiet = { t₁ with ses := Session.init s.cfg }.quiet := by
  have hcfg : t₁.cfg = s.cfg := (OnReceiveSide.byteStep b).cfg (s := { s with inputs := rest }) hbyte
  rw [step_byte_tick hin hbyte, execSysTick_fires (hcfg ▸ hlimit) hmid hwd, putBefore_next]
  exact ⟨_, rfl, shownOf_concat_rxResult t₁.out rfl nofun, by rw [← hcfg]; rfl⟩

/-- A tick after a byte that left the decoder hunting does nothing, and hides nothing. -/
theorem step_byte_idle_tick (hhunting : hunting t₁.ses.st = true) :
    ∃ t, step s = .next t ∧ (shown t).rxResult = (shown t₁).rxResult ∧ t.quiet = t₁.quiet := by
  rw [step_byte_tick hin hbyte, execSysTick_of_hunting hhunting, putBefore_next]
  obtain ⟨r, hr⟩ : ∃ r, (shown t₁).rxResult = some r := by
    obtain h | h | h := (byteStep_hasByteResult hbyte).shown_cases <;> exact ⟨_, h⟩
  exact ⟨_, rfl, (shownOf_concat_quiet hr).trans hr.symm, rfl⟩

end

/-- After a payload byte the decoder is still mid-frame (R144). -/
theorem hunting_storePayload (b : Byte) (s : State) : hunting (storePayload b s).ses.st = false := by
  simp only [storePayload]
  split <;> rfl

theorem fields_of_quiet_eq {s t : State} (h : t.quiet = s.quiet) : t.cfg = s.cfg ∧ t.ses = s.ses ∧ t.rx = s.rx :=
  ⟨congrArg (·.cfg) h, congrArg (·.ses) h, congrArg (·.rx) h⟩

section
variable {s : State} {b : Byte} {rest : List Input}
  (hin : s.inputs = .signals { rx := .byte b, tick := true } :: rest)
include hin

/-- A payload byte beside a firing tick is stored all the same (R144, R173). -/
theorem step_payload_firing_tick {limit : PNat} (hst : s.ses.st = .readPayload) (hcur : s.ses.cur < s.cfg.maxLen)
    (hlimit : s.cfg.watchdogLimit = some limit) (hwd : (limit : Nat) ≤ s.ses.wd + 1) :
    ∃ t, step s = .next t ∧ (shown t).rxResult = some .truncated ∧ t.ses = Session.init s.cfg
      ∧ rxCell t s.ses.cur = some b ∧ t.rx.status = s.rx.status := by
  have hbyte := byteStep_readPayload (s := { s with inputs := rest }) hst hcur b
  obtain ⟨t, ht, hshown, hquiet⟩ := step_byte_firing_tick hin hbyte hlimit (hunting_storePayload b _) hwd
  obtain ⟨hcfg, hses, hrx⟩ := fields_of_quiet_eq hquiet
  have hcell := rxCell_storePayload_same (s := { s with inputs := rest }) b hcur
  exact ⟨t, ht, hshown, hses, (rxCell_congr hcfg (congrArg RxMessage.buf hrx) _).trans hcell, by rw [hrx]; rfl⟩

/-- The last byte of a frame beside a tick ends the frame, and its result is the step's (R145). -/
theorem step_lastByte_tick (hst : s.ses.st = .readCrc) (h1 : s.ses.fcnt = 1) :
    ∃ t, step s = .next t ∧ t.ses = Session.init s.cfg
      ∧ (shown t).rxResult = some (if shiftIn s.ses.facc b = s.ses.crc then .accepted else .rejected)
      ∧ t.rx.status = if shiftIn s.ses.facc b = s.ses.crc then .newData else .dataLost := by
  have hbyte := byteStep_readCrc_second (s := { s with inputs := rest }) hst (by simp [h1]) b
  obtain ⟨t, ht, hshown, hquiet⟩ := step_byte_idle_tick hin hbyte (by simp)
  obtain ⟨-, hses, hrx⟩ := fields_of_quiet_eq hquiet
  obtain ⟨o, hout, ho⟩ := finishFrame_out b { s with inputs := rest }
  have hresult := hshown.trans (by rw [shown, hout, shownOf_single, ho])
  exact ⟨t, ht, hses.trans (by simp), hresult, (congrArg RxMessage.status hrx).trans (finishFrame_status b _)⟩

end

/-- Settles O7: the tick is performed on what the byte left, a payload byte leaves the decoder mid-frame and the second
CRC byte leaves it hunting. -/
theorem byteBeforeTickInOneStep : Obligations.ByteBeforeTickInOneStep :=
  ⟨fun _ _ b _ _ hin hlimit hop =>
      have hbyte := (byteStep_eq_exec b _).trans hop
      ⟨step_byte_firing_tick hin hbyte hlimit, step_byte_idle_tick hin hbyte⟩,
    fun _ _ _ _ hin hst hcur => step_payload_firing_tick hin hst hcur, fun _ _ _ => step_lastByte_tick⟩

/-! ### A starved frame (R173, R261) -/

/-- A step that asks for a tick alone is the tick. -/
theorem step_of_tick {s : State} {rest : List Input} (hin : s.inputs = .signals { tick := true } :: rest) :
    step s = execSysTick { s with inputs := rest } :=
  (stepPerformsRequestsInOrder s _ rest hin rfl).trans (inOrder_singleton .sysTick _)

section
variable {s : State} {limit : PNat} (hlimit : s.cfg.watchdogLimit = some limit) (hmid : hunting s.ses.st = false)
include hlimit hmid

theorem step_of_firing_tick {rest : List Input} (hin : s.inputs = .signals { tick := true } :: rest)
    (hwd : (limit : Nat) ≤ s.ses.wd + 1) :
    ∃ t, step s = .next t ∧ t.ses = Session.init s.cfg ∧ (shown t).rxResult = some .truncated ∧ t.rx = s.rx :=
  ⟨_, (step_of_tick hin).trans (execSysTick_fires hlimit hmid hwd), rfl, by simp [shown], rfl⟩

theorem step_of_counting_tick {rest : List Input} (hin : s.inputs = .signals { tick := true } :: rest)
    (hwd : ¬ (limit : Nat) ≤ s.ses.wd + 1) :
    ∃ t, step s = .next t ∧ t.cfg = s.cfg ∧ t.ses = { s.ses with wd := s.ses.wd + 1 } ∧ t.rx = s.rx
      ∧ t.inputs = rest :=
  ⟨_, (step_of_tick hin).trans (execSysTick_counts hlimit hmid hwd), rfl, rfl, rfl, rfl⟩

end

/-- Mid-frame, as many ticks as the counter still lacks end the frame. -/
theorem run_ticks_truncates {n : Nat} {s : State} {limit : PNat} {rest : List Input}
    (hlimit : s.cfg.watchdogLimit = some limit) (hmid : hunting s.ses.st = false) (hwd : s.ses.wd < (limit : Nat))
    (hn : (limit : Nat) ≤ s.ses.wd + n) (hin : s.inputs = List.replicate n (.signals { tick := true }) ++ rest) :
    ∃ k ≤ n, ∃ t, run k s = .next t ∧ t.ses = Session.init s.cfg ∧ (shown t).rxResult = some .truncated
      ∧ t.rx = s.rx := by
  induction n generalizing s with
  | zero => exact absurd hn (Nat.not_le.2 hwd)
  | succ n ih =>
    by_cases hlast : (limit : Nat) ≤ s.ses.wd + 1
    · obtain ⟨t, ht, hend⟩ := step_of_firing_tick hlimit hmid hin hlast
      exact ⟨1, Nat.le_add_left _ _, t, run_succ_of_step ht 0, hend⟩
    · obtain ⟨u, hu, hcfg, hses, hrx, hrest⟩ := step_of_counting_tick hlimit hmid hin hlast
      rw [← hcfg, ← hrx]
      obtain ⟨k, hk, t, ht, hend⟩ := ih (hcfg ▸ hlimit) (by rw [hses]; exact hmid)
        (by rw [hses]; exact Nat.not_le.1 hlast) (by rw [hses]; simp only; omega) hrest
      exact ⟨k + 1, Nat.succ_le_succ hk, t, (run_succ_of_step hu k).trans ht, hend⟩

/-- Settles O51: the counter stands below the limit, so `WATCHDOG_LIMIT` ticks are enough. -/
theorem watchdogEndsAStalledFrame : Obligations.WatchdogEndsAStalledFrame := by
  intro s limit rest hinv hlimit hmid hin
  obtain ⟨-, hreceive, -, -⟩ := (inv_iff s).1 hinv
  exact run_ticks_truncates hlimit hmid (hreceive.wdBelow limit hlimit) (Nat.le_add_left _ _) hin

end Sys2Proof.Machine
end

section
/-! Statements of 44_properties.md: every step goes through (O55), fragmented delivery (O38), the round trip (O39), the
decoder after garbage (O42, O44), and the source's scenario (O45). -/

namespace Sys2Proof.Machine

/-! ### Every step goes through (R186) -/

/-- Wire bytes are their byte steps, back to back (R100). -/
theorem perform_wire (bytes : List Byte) (s : State) : perform (.wire bytes) s = feed bytes s := by
  cases hdec : decode s.cfg (.wire bytes) with
  | error e => simp only [perform, hdec]
  | ok i =>
    obtain ⟨id, p, crc, rfl, -, rfl⟩ := decodeWire_eq_ok_iff.1 hdec
    exact perform_wire_of_decode hdec

/-- Settles O55: signals and wire bytes go through by the invariant, the Caller's inputs by their premises. -/
theorem nothingIsFatal : Obligations.NothingIsFatal := by
  intro s hinv
  obtain ⟨hwf, hreceive, -, hinputs⟩ := (inv_iff s).1 hinv
  cases hin : s.inputs with
  | nil => exact ⟨_, step_of_inputs_nil hin⟩
  | cons q rest =>
    have hok : inputOk s.cfg q = true := hinputs q (by simp [hin])
    cases q with
    | signals g => exact step_goes_through hinv hin
    | crcCall u w => cases hok
    | wire bytes =>
      rw [step_of_inputs_cons hin, perform_wire]
      exact feed_goes_through bytes (s := { s with inputs := rest }) hwf hreceive
    | writeTx i bytes =>
      rw [step_of_inputs_cons hin]
      exact callerWriteTx_ok (of_decide_eq_true hok)
    | writeRx i bytes =>
      rw [step_of_inputs_cons hin]
      exact callerWriteRx_ok (of_decide_eq_true hok)
    | remap lens d => exact ⟨_, step_of_inputs_cons hin⟩

/-! ### No operation reads the pending inputs or the outputs (R37) -/

/-- What `f` does is settled by the rest of the state, and it hands the pending inputs on. -/
def ReadsNoInput (f : State → Result) : Prop :=
  ∀ (s : State) (ins : List Input) (o : List Outputs),
    f { s with inputs := ins, out := o } = andThen (f s) fun t => .next { t with inputs := ins }

theorem ReadsNoInput.next {f : State → Result} (hf : ReadsNoInput f) {s t : State} (h : f s = .next t)
    (ins : List Input) (o : List Outputs) : f { s with inputs := ins, out := o } = .next { t with inputs := ins } := by
  rw [hf s ins o, h, andThen_next]

theorem OnReceiveSide.readsNoInput {f : State → Result} (hf : OnReceiveSide f) : ReadsNoInput f := by
  intro s ins o
  rw [hf s { s with inputs := ins, out := o } ⟨rfl, rfl, rfl⟩]
  cases h : f s with
  | next t => exact congrArg (fun u : State => Host.Outcome.next { u with inputs := ins }) (hf.frame h).symm
  | fault e => rfl
  | refused e => rfl

theorem OnEncoder.readsNoInput {f : State → Result} (hf : OnEncoder f) : ReadsNoInput f := by
  intro s ins o
  rw [hf s { s with inputs := ins, out := o } ⟨rfl, rfl, rfl, rfl⟩]
  cases h : f s with
  | next t => exact congrArg (fun u : State => Host.Outcome.next { u with inputs := ins }) (hf.frame h).symm
  | fault e => rfl
  | refused e => rfl

theorem ReadsNoInput.exec (i : Instr) : ReadsNoInput (exec i) := by
  by_cases he : isEncoderOp i = true
  · exact (OnEncoder.exec he).readsNoInput
  · by_cases hr : isReceiveOp i = true
    · exact (OnReceiveSide.exec hr).readsNoInput
    · intro s ins o
      cases i with
      | crcInit u => cases u <;> rfl
      | crcUpd u b => cases u <;> rfl
      | sysReset => rfl
      | _ => simp [isEncoderOp, isReceiveOp] at he hr

theorem ReadsNoInput.runWord (w : SelWord) : ReadsNoInput (runWord w) := by
  intro s ins o
  simp only [Machine.runWord]
  cases decode s.cfg w with
  | ok i => exact ReadsNoInput.exec i s ins o
  | error e => rfl

theorem ReadsNoInput.runWords (ws : List SelWord) : ReadsNoInput (runWords ws) := by
  induction ws with
  | nil => exact fun _ _ _ => rfl
  | cons w ws ih =>
    intro s ins o
    simp only [Machine.runWords, ReadsNoInput.runWord w s ins o]
    cases Machine.runWord w s with
    | next u =>
      simp only [followedBy, andThen_next]
      rw [ih u ins u.out]
      cases Machine.runWords ws u <;> rfl
    | fault e => rfl
    | refused e => rfl

theorem ReadsNoInput.signals (g : Signals) : ReadsNoInput (perform (.signals g)) := fun s =>
  ReadsNoInput.runWords (selectWords g s) s

/-! ### Empty polls (R182, R183) -/

/-- The signals that are not an empty poll alone. -/
def withoutEmptyPolls (gs : List Signals) : List Signals := gs.filter fun g => g ≠ { rx := .empty }

theorem perform_signals_eq_inOrder {g : Signals} (hrst : g.rst = false) (s : State) :
    perform (.signals g) s = inOrder (operationsOf g s) s :=
  runWords_eq_inOrder (selects_operationsOf hrst s) s

/-- An empty poll says `NoProgress`, and that is all (R147). -/
theorem perform_empty_poll (s : State) :
    perform (.signals { rx := .empty }) s = .next { s with out := [quietOut .noProgress] } :=
  (perform_signals_eq_inOrder rfl s).trans (inOrder_singleton .decNobyte s)

/-- A run without its empty polls ends where the run does, with the same results but `NoProgress`. -/
theorem run_withoutEmptyPolls {gs : List Signals} {s t : State} {rest : List Input}
    (hin : s.inputs = gs.map .signals ++ rest) (ht : run gs.length s = .next t) (o : List Outputs) :
    ∃ u, run (withoutEmptyPolls gs).length
        { s with inputs := (withoutEmptyPolls gs).map .signals ++ rest, out := o } = .next u ∧ u.quiet = t.quiet
      ∧ resultsOf (trace (withoutEmptyPolls gs).length
          { s with inputs := (withoutEmptyPolls gs).map .signals ++ rest, out := o })
        = resultsOf (trace gs.length s) := by
  induction gs generalizing s o with
  | nil =>
    cases ht
    exact ⟨_, rfl, congrArg (fun ins => { t.quiet with inputs := ins }) hin.symm, rfl⟩
  | cons g gs ih =>
    obtain ⟨v, hv, hrun⟩ := andThen_eq_next.1 ((run_succ gs.length s).symm.trans ht)
    have hperform : perform (.signals g) { s with inputs := gs.map .signals ++ rest } = .next v :=
      (step_of_inputs_cons hin).symm.trans hv
    rw [List.length_cons, trace_succ_of_step hv, resultsOf_append]
    by_cases hg : g = { rx := .empty }
    · subst hg
      rw [perform_empty_poll] at hperform
      cases hperform
      have hskip : withoutEmptyPolls ({ rx := .empty } :: gs) = withoutEmptyPolls gs := by simp [withoutEmptyPolls]
      rw [hskip]
      exact ih rfl hrun o
    · have hkeep : withoutEmptyPolls (g :: gs) = g :: withoutEmptyPolls gs := by simp [withoutEmptyPolls, hg]
      have hv' : step { s with inputs := (g :: withoutEmptyPolls gs).map .signals ++ rest, out := o }
          = .next { v with inputs := (withoutEmptyPolls gs).map .signals ++ rest } :=
        (step_of_inputs_cons rfl).trans ((ReadsNoInput.signals g).next hperform _ o)
      obtain ⟨u, hu, hquiet, hresults⟩ := ih (sameInputs_stepRule.signals hperform) hrun v.out
      rw [hkeep, List.length_cons]
      exact ⟨u, (run_succ_of_step hv' _).trans hu, hquiet, by rw [trace_succ_of_step hv', resultsOf_append, hresults]⟩

/-! ### The grouping of the bytes (R182) -/

/-- An input that only delivers bytes does what they do back to back, an empty poll's `NoProgress` apart. -/
theorem perform_onlyDelivers {q : Input} (hq : onlyDelivers q = true) {s v : State}
    (hv : feed (inputBytes q) s = .next v) :
    ∃ o, perform q s = .next { v with out := o } ∧ resultsOf o = resultsOf v.out := by
  cases q with
  | signals g =>
    have hg : g = { rx := .empty } ∨ ∃ b, g = { rx := .byte b } := by
      simp only [onlyDelivers, Bool.or_eq_true, decide_eq_true_eq, Option.any_eq_true] at hq
      exact hq.imp_right fun ⟨b, _, hb⟩ => ⟨b, hb⟩
    obtain rfl | ⟨b, rfl⟩ := hg
    · cases hv
      exact ⟨_, perform_empty_poll s, rfl⟩
    · have hbyte : byteStep b s = .next v := (feed_singleton b s).symm.trans hv
      refine ⟨v.out, ?_, rfl⟩
      rw [perform_signals_eq_inOrder rfl]
      exact (inOrder_singleton _ s).trans ((byteStep_eq_exec b s).symm.trans hbyte)
  | wire bytes => exact ⟨v.out, (perform_wire bytes s).trans hv, rfl⟩
  | crcCall u w => cases hq
  | writeTx i bytes => cases hq
  | writeRx i bytes => cases hq
  | remap lens d => cases hq

/-- Bytes delivered one a step or several, with empty polls between, end as all of them back to back do. -/
theorem run_onlyDelivers {qs rest : List Input} {s u : State} (hin : s.inputs = qs ++ rest)
    (hqs : ∀ q ∈ qs, onlyDelivers q = true) (hu : feed (qs.flatMap inputBytes) { s with inputs := rest } = .next u) :
    ∃ t, run qs.length s = .next t ∧ t.quiet = u.quiet ∧ resultsOf (trace qs.length s) = resultsOf u.out := by
  induction qs generalizing s u with
  | nil =>
    cases hu
    exact ⟨s, rfl, congrArg (fun ins => { s.quiet with inputs := ins }) hin, rfl⟩
  | cons q qs ih =>
    obtain ⟨hq, hqs⟩ := List.forall_mem_cons.1 hqs
    rw [List.flatMap_cons, feed_append] at hu
    obtain ⟨v, w, hv, hw, rfl⟩ := followedBy_eq_next.1 hu
    obtain ⟨-, -, -, -, hvin⟩ := (OnReceiveSide.feed (inputBytes q)).fields hv
    obtain ⟨o, ho, hresults⟩ :=
      perform_onlyDelivers hq ((OnReceiveSide.feed (inputBytes q)).readsNoInput.next hv (qs ++ rest) s.out)
    have hstep : step s = .next { v with inputs := qs ++ rest, out := o } := (step_of_inputs_cons hin).trans ho
    have hrest : feed (qs.flatMap inputBytes) { v with inputs := rest, out := o } = .next w := by
      obtain rfl : v.inputs = rest := hvin
      exact (feed_out _ v o).trans hw
    obtain ⟨t, ht, hquiet, htrace⟩ := ih (s := { v with inputs := qs ++ rest, out := o }) rfl hqs hrest
    refine ⟨t, (run_succ_of_step hstep _).trans ht, hquiet, ?_⟩
    rw [List.length_cons, trace_succ_of_step hstep, resultsOf_append, resultsOf_append, htrace, hresults]

/-- Settles O38: an empty poll changes nothing but the outputs, and no step reads them. -/
theorem emptyPollsDoNotMatter : Obligations.EmptyPollsDoNotMatter :=
  ⟨fun _ s _ _ hin ht => run_withoutEmptyPolls hin ht s.out, fun _ _ _ _ => run_onlyDelivers⟩

/-! ### Runs of a delivery (R187) -/

/-- The outputs of a run in two parts. -/
theorem trace_add {s t : State} {k : Nat} (h : run k s = .next t) (n : Nat) :
    trace (k + n) s = trace k s ++ trace n t := by
  induction k generalizing s with
  | zero =>
    cases h
    rw [Nat.zero_add]
    rfl
  | succ k ih =>
    obtain ⟨u, hu, hk⟩ := andThen_eq_next.1 ((run_succ k s).symm.trans h)
    rw [Nat.add_right_comm, trace_succ_of_step hu, trace_succ_of_step hu, ih hk, List.append_assoc]

/-- What a step of a run outputs is among the outputs of the run. -/
theorem mem_trace_of_step {s p t : State} {j n : Nat} (hp : run j s = .next p) (hj : j < n) (ht : step p = .next t)
    {o : Outputs} (ho : o ∈ t.out) : o ∈ trace n s := by
  obtain ⟨i, rfl⟩ := Nat.exists_eq_add_of_lt hj
  rw [Nat.add_assoc, trace_add hp, trace_succ_of_step ht]
  exact List.mem_append_right _ (List.mem_append_left _ ho)

/-- A delivery leaves what its bytes leave, fed back to back. -/
theorem Feeds.run_reads {s u : State} {gs : List Signals} {w : List Byte} (h : Feeds s gs w)
    (hu : feed w s = .next u) : ∃ t, run gs.length s = .next t ∧ SameReading u t := by
  have ⟨_, hbytes, _⟩ := h
  obtain ⟨t, -, ht, hreading, -⟩ := h.run_take le_rfl (by rw [List.take_length, hbytes]; exact hu)
  exact ⟨t, ht, hreading⟩

/-- The first bytes of bytes that go through go through. -/
theorem feed_append_left {v w : List Byte} {s u : State} (h : feed (v ++ w) s = .next u) :
    ∃ x, feed v s = .next x := by
  rw [feed_append] at h
  obtain ⟨x, -, hx, -⟩ := followedBy_eq_next.1 h
  exact ⟨x, hx⟩

/-- A step of signals in its three parts: a take, the byte, what comes after it. -/
theorem step_eq_next_parts {s t : State} {g : Signals} {rest : List Input} (hin : s.inputs = .signals g :: rest)
    (hrst : g.rst = false) (ht : step s = .next t) :
    ∃ a m v, inOrder (if g.take then [.sysTake] else []) { s with inputs := rest } = .next a
      ∧ inOrder (byteOps s.ses.st g.rx) a = .next m
      ∧ inOrder ((if g.tick then [.sysTick] else []) ++ encoderOps s.enc.st g.enc) m = .next v
      ∧ t = { v with out := a.out ++ (m.out ++ v.out) } := by
  have hops : operationsOf g s = (if g.take then [.sysTake] else [])
      ++ (byteOps s.ses.st g.rx ++ ((if g.tick then [.sysTick] else []) ++ encoderOps s.enc.st g.enc)) := by
    rw [operationsOf_eq]
    simp only [receiveOps, List.append_assoc]
  rw [stepPerformsRequestsInOrder s g rest hin hrst, hops] at ht
  obtain ⟨a, x, ha, hx, rfl⟩ := inOrder_append_eq_next ht
  obtain ⟨m, v, hm, hv, rfl⟩ := inOrder_append_eq_next hx
  exact ⟨a, m, v, ha, hm, hv, rfl⟩

/-- The take of a step leaves the session, and the message too when none is asked. -/
theorem inOrder_take_eq_next {take : Bool} {s a : State}
    (h : inOrder (if take then [.sysTake] else []) s = .next a) :
    a.cfg = s.cfg ∧ a.ses = s.ses ∧ a.rx = { s.rx with status := a.rx.status } ∧ (take = false → a.rx = s.rx)
      ∧ LeaveRxResult a.out := by
  cases take with
  | false => cases h; exact ⟨rfl, rfl, rfl, fun _ => rfl, List.forall_mem_nil _⟩
  | true => cases h; exact ⟨rfl, rfl, rfl, nofun, by simp [LeaveRxResult, quietOut]⟩

/-- What a tick and every encoder operation do holds of the part of a step after its byte. -/
theorem PassesAlong.afterByte {R : State → State → Prop} (hR : PassesAlong R)
    (htick : ∀ {s t}, execSysTick s = .next t → R s t)
    (hencoder : ∀ {i s t}, isEncoderOp i = true → exec i s = .next t → R s t) {tick : Bool} {st : ESt}
    {e : Option EncIn} {m v : State}
    (h : Machine.inOrder ((if tick then [.sysTick] else []) ++ encoderOps st e) m = .next v) : R m v := by
  refine hR.inOrder (fun i hi s t hst => ?_) h
  obtain hi | hi := List.mem_append.1 hi
  · split at hi
    · rw [List.mem_singleton.1 hi] at hst
      exact htick hst
    · cases hi
  · exact hencoder (isEncoderOp_of_mem_encoderOps hi) hst

/-! ### Where a frame is judged (R145, R180) -/

/-- The byte to come is the second of the CRC field. -/
def AtLastByte (s : State) : Prop := s.ses.st = .readCrc ∧ s.ses.fcnt ≠ 0

/-- No output is the judgement of a frame. -/
def NoneJudged (outs : List Outputs) : Prop :=
  ∀ o ∈ outs, o.rxResult ≠ some .accepted ∧ o.rxResult ≠ some .rejected

theorem NoneJudged.of_leaves {outs : List Outputs} (h : LeaveRxResult outs) : NoneJudged outs := fun o ho => by
  obtain hnone | hquiet := h o ho
  · simp [hnone]
  · simp [hquiet]

theorem NoneJudged.of_out {o : Outputs} {r : RxResult} (ho : o.rxResult = some r)
    (hr : r ≠ .accepted ∧ r ≠ .rejected) : NoneJudged [o] := by
  simp [NoneJudged, ho, hr]

theorem NoneJudged.of_consumed {o : Outputs} (ho : o.rxResult = some .consumed) : NoneJudged [o] :=
  .of_out ho ⟨nofun, nofun⟩

theorem NoneJudged.passesAlong : PassesAlong fun _ t => NoneJudged t.out where
  quiet := fun _ => List.forall_mem_nil _
  followed := fun hu hv => List.forall_mem_append.2 ⟨hu, hv⟩

theorem huntSync1_noneJudged (b : Byte) (s : State) : NoneJudged (huntSync1 b s).out := by
  unfold huntSync1
  split
  · exact .of_consumed rfl
  · exact .of_consumed rfl

/-- Only the last byte of a frame judges it (R141 to R145). -/
theorem byteStep_noneJudged {b : Byte} {s t : State} (h : byteStep b s = .next t) (hlast : ¬ AtLastByte s) :
    NoneJudged t.out := by
  cases hst : s.ses.st with
  | waitSync1 =>
    rw [byteStep_waitSync1 hst] at h
    cases h
    exact huntSync1_noneJudged b s
  | waitSync2 =>
    rw [byteStep_waitSync2 hst] at h
    cases h
    split
    · exact .of_consumed rfl
    · exact huntSync1_noneJudged b s
  | readId =>
    rw [byteStep_eq_exec, hst] at h
    obtain ⟨-, ⟨-, rfl⟩ | ⟨-, rfl⟩⟩ := execDecId_eq_next h
    · exact .of_consumed rfl
    · exact .of_consumed rfl
  | readPayload =>
    rw [byteStep_eq_exec, hst] at h
    obtain ⟨-, -, rfl⟩ := execDecPay_eq_next h
    exact .of_consumed rfl
  | readCrc =>
    have h0 : s.ses.fcnt = 0 := by
      by_contra h0
      exact hlast ⟨hst, h0⟩
    rw [byteStep_readCrc_first hst h0] at h
    cases h
    exact .of_consumed rfl

/-- A step of signals judges no frame when its byte is not a frame's last. -/
theorem step_noneJudged {s t : State} {g : Signals} {rest : List Input} (hin : s.inputs = .signals g :: rest)
    (hrst : g.rst = false) (ht : step s = .next t) (hlast : ∀ b, g.rx = .byte b → ¬ AtLastByte s) :
    NoneJudged t.out := by
  obtain ⟨a, m, v, ha, hm, hv, rfl⟩ := step_eq_next_parts hin hrst ht
  obtain ⟨-, hses, -, -, hquiet⟩ := inOrder_take_eq_next ha
  have hbyte : NoneJudged m.out := by
    cases hrx : g.rx with
    | notAsked => rw [hrx] at hm; cases hm; exact List.forall_mem_nil _
    | empty => rw [hrx] at hm; cases hm; exact .of_out (r := .noProgress) rfl ⟨nofun, nofun⟩
    | byte b =>
      have hlast' : ¬ AtLastByte a := by
        rw [AtLastByte, hses]
        exact hlast b hrx
      rw [hrx, byteOps, inOrder_singleton, exec_decOp (congrArg Session.st hses)] at hm
      exact byteStep_noneJudged hm hlast'
  have hafter : NoneJudged v.out := by
    refine NoneJudged.passesAlong.afterByte (fun h => ?_) (fun hi h => ?_) hv
    · obtain rfl | ⟨-, rfl | rfl⟩ := execSysTick_eq_next h
      · exact .of_out (r := .quiet) rfl ⟨nofun, nofun⟩
      · exact .of_out (r := .quiet) rfl ⟨nofun, nofun⟩
      · exact .of_out (r := .truncated) rfl ⟨nofun, nofun⟩
    · exact .of_leaves fun o ho => .inl ((EncoderEffect.exec hi h).noRxResult o ho)
  exact List.forall_mem_append.2 ⟨NoneJudged.of_leaves hquiet, List.forall_mem_append.2 ⟨hbyte, hafter⟩⟩

/-- A byte that gives `Consumed` is not a frame's last. -/
theorem Consumes.not_atLastByte {v w : List Byte} {b : Byte} {s x u : State} (h : Consumes (v ++ b :: w) s u)
    (hx : feed v s = .next x) : ¬ AtLastByte x := by
  rintro ⟨hst, h0⟩
  obtain ⟨o, hfeed, hresults⟩ := h
  rw [feed_append] at hfeed
  obtain ⟨x', y, hx', hy, hout⟩ := followedBy_eq_next.1 hfeed
  obtain rfl := Host.Outcome.next.inj (hx.symm.trans hx')
  obtain ⟨z, y', hz, -, rfl⟩ := followedBy_eq_next.1 hy
  rw [byteStep_readCrc_second hst h0] at hz
  cases hz
  obtain ⟨p, hp, hres⟩ := finishFrame_out b x
  have ho : o = x.out ++ ((finishFrame b x).out ++ y'.out) := congrArg State.out hout
  have hmem : (if shiftIn x.ses.facc b = x.ses.crc then .accepted else .rejected) ∈ resultsOf o := by
    rw [ho, hp, resultsOf_append, resultsOf_append, resultsOf_singleton hres (by split <;> nofun)]
    simp
  rw [hresults] at hmem
  have hconsumed := List.eq_of_mem_replicate hmem
  split at hconsumed <;> cases hconsumed

/-- One step more of a delivery brings its own byte, if it carries one. -/
theorem bytesOf_take_succ {gs : List Signals} {j : Nat} (hj : j < gs.length) :
    bytesOf (gs.take (j + 1)) = bytesOf (gs.take j) ++ (rxByte gs[j]).toList := by
  rw [List.take_succ_eq_append_getElem hj, bytesOf, List.filterMap_append]
  exact congrArg (bytesOf (gs.take j) ++ ·) ((bytesOf_cons gs[j] []).trans (List.append_nil _))

/-- While bytes are delivered that each give `Consumed`, and one byte after them, no step before the last shows a
terminal result (R180, R187). -/
theorem Feeds.shows_no_terminal {s u : State} {gs : List Signals} {w : List Byte} {b : Byte}
    (hfeeds : Feeds s gs (w ++ [b])) (hends : endsWithByte gs) (hw : Consumes w s u) {k : Nat} (hpos : 0 < k)
    (hk : k < gs.length) : ∃ t, run k s = .next t ∧ ∀ r, (shown t).rxResult = some r → rxTerminal r = false := by
  obtain ⟨j, rfl⟩ := Nat.exists_eq_add_of_le' hpos
  have hj : j < gs.length := Nat.lt_of_succ_lt hk
  have ⟨_, hbytes, hgs, _, hnotruncated⟩ := hfeeds
  have hnext : bytesOf (gs.take (j + 1)) = bytesOf (gs.take j) ++ (rxByte gs[j]).toList := bytesOf_take_succ hj
  obtain ⟨rest, hrest⟩ : bytesOf (gs.take (j + 1)) <+: w := by
    obtain ⟨i, hi, htake, -⟩ := bytesOf_take hends hk
    rw [hbytes, List.length_append, List.length_singleton] at hi
    rw [htake, hbytes, List.take_append_of_le_length (Nat.le_of_lt_succ hi)]
    exact List.take_prefix i w
  have ⟨_, hfeed, _⟩ := hw
  rw [← hrest] at hfeed
  obtain ⟨y, hy⟩ := feed_append_left hfeed
  obtain ⟨x, hx⟩ := feed_append_left (hnext ▸ hy)
  obtain ⟨p, ins, hp, ⟨-, ⟨n, hses⟩, -⟩, -, hin⟩ := hfeeds.run_take hj.le hx
  obtain ⟨t, -, ht, -⟩ := hfeeds.run_take hk.le hy
  rw [List.drop_eq_getElem_cons hj, List.map_cons, List.cons_append] at hin
  have hstep := run_succ_eq_next hp ht
  obtain ⟨hrst, -⟩ := hgs _ (List.getElem_mem hj)
  have hjudged : NoneJudged t.out := step_noneJudged hin hrst hstep fun c hc hlast => by
    rw [← hrest, hnext, show rxByte gs[j] = some c by simp only [rxByte, hc], List.append_assoc] at hw
    exact hw.not_atLastByte hx ⟨by simpa [hses] using hlast.1, by simpa [hses] using hlast.2⟩
  refine ⟨t, ht, fun r hr => ?_⟩
  obtain ⟨o, ho, hres⟩ := exists_of_shownOf hr
  obtain ⟨haccepted, hrejected⟩ := hjudged o ho
  have htruncated := hnotruncated o (mem_trace_of_step hp hj hstep ho)
  rw [hres] at haccepted hrejected htruncated
  cases r with
  | accepted => exact absurd rfl haccepted
  | rejected => exact absurd rfl hrejected
  | truncated => exact absurd rfl htruncated
  | noProgress | consumed | quiet => rfl

/-- Settles O39: the frame's own CRC field accepts it, and every byte before the last gives `Consumed`. -/
theorem roundTrip : Obligations.RoundTrip := by
  intro s id p gs hst hmax hlen hfeeds hends
  refine ⟨?_, fun k hpos hk => ?_⟩
  · obtain ⟨t, ht, hses, hshown, hstatus, hid, htlen, hcells⟩ := frame_delivered hst hlen.symm hmax hfeeds hends
    exact ⟨t, ht, hshown.trans (if_pos rfl ▸ rfl), hstatus.trans (if_pos rfl), hid, htlen, hcells, hses⟩
  · obtain ⟨u, hu⟩ := holdsFrame hst hlen.symm hmax (hiByte (frameCrc s.cfg id p))
    rw [frameOf, frameBytes_eq_concat] at hfeeds
    exact hfeeds.shows_no_terminal hends hu.consumes hpos hk

/-! ### Garbage (R184 a) -/

/-- The hunting state after a byte, by whether it was a sync byte. -/
def huntState (sync : Bool) : DSt := if sync then .waitSync2 else .waitSync1

/-- `s` with the decoder hunting, but for the outputs. -/
def State.huntingAfter (s : State) (sync : Bool) (o : List Outputs) : State :=
  { s with ses := { s.ses with st := huntState sync }, out := o }

/-- Whether the byte before the next one was a sync byte, after a step that may bring one. -/
def syncAfter (c : Config) (sync : Bool) : Option Byte → Bool
  | none => sync
  | some b => decide (b = c.sync)

theorem hunting_huntState (sync : Bool) : hunting (huntState sync) = true := by cases sync <;> rfl

/-- A state that hunts is the one its own last byte left. -/
theorem huntingAfter_self {s : State} {sync : Bool} (hst : s.ses.st = huntState sync) (o : List Outputs) :
    s.huntingAfter sync o = { s with out := o } := by
  rw [State.huntingAfter, ← hst]

/-- A byte examined for a sync changes `d_st` and the outputs alone (R141). -/
theorem huntSync1_eq (b : Byte) (s : State) :
    huntSync1 b s = s.huntingAfter (decide (b = s.cfg.sync)) (huntSync1 b s).out := by
  unfold huntSync1
  split
  · next hb => simp [hb, huntState, State.huntingAfter]
  · next hb => simp [hb, huntState, State.huntingAfter, takeCondition]

/-- While hunting, a byte that completes no sync pair is examined as the first of one (R141, R142). -/
theorem byteStep_hunts {s : State} {sync : Bool} (hst : s.ses.st = huntState sync) {b : Byte}
    (hb : sync = true → b ≠ s.cfg.sync) : byteStep b s = .next (huntSync1 b s) := by
  cases sync with
  | false => exact byteStep_waitSync1 hst b
  | true => rw [byteStep_waitSync2 hst, if_neg (hb rfl)]

theorem noSyncPair_cons {c : Config} {sync : Bool} {b : Byte} {g : List Byte} :
    noSyncPair c sync (b :: g) = true ↔ (sync = true → b ≠ c.sync) ∧ noSyncPair c (decide (b = c.sync)) g = true := by
  cases sync <;> simp [noSyncPair]

/-- Garbage changes the outputs alone, once it is over (R184 a). -/
theorem feed_garbage {g : List Byte} {s : State} {sync : Bool} (hst : s.ses.st = huntState sync)
    (hg : noSyncPair s.cfg sync g = true) : ∃ o, feed g s = .next (s.huntingAfter false o) := by
  induction g generalizing s sync with
  | nil =>
    obtain rfl : sync = false := by simpa [noSyncPair] using hg
    exact ⟨[], congrArg Host.Outcome.next (huntingAfter_self hst []).symm⟩
  | cons b g ih =>
    obtain ⟨hpair, hg⟩ := noSyncPair_cons.1 hg
    obtain ⟨o, ho⟩ := ih (s := s.huntingAfter (decide (b = s.cfg.sync)) (huntSync1 b s).out) rfl hg
    exact ⟨_, followedBy_eq_next.2 ⟨_, _, (byteStep_hunts hst hpair).trans (congrArg _ (huntSync1_eq b s)), ho, rfl⟩⟩

/-- Garbage leaves a decoder that waits for a frame as it was (R184 a). -/
theorem feed_garbage_waitSync1 {g : List Byte} {s : State} (hst : s.ses.st = .waitSync1)
    (hg : noSyncPair s.cfg false g = true) : ∃ o, feed g s = .next { s with out := o } := by
  obtain ⟨o, ho⟩ := feed_garbage (sync := false) hst hg
  exact ⟨o, ho.trans (congrArg _ (huntingAfter_self hst o))⟩

/-- The receive signals of a step among garbage move the decoder between its hunting states. -/
theorem byteOps_hunt {a : State} {g : Signals} {sync : Bool} (hst : a.ses.st = huntState sync)
    (hpair : ∀ b ∈ rxByte g, sync = true → b ≠ a.cfg.sync) :
    ∃ o, inOrder (byteOps a.ses.st g.rx) a = .next (a.huntingAfter (syncAfter a.cfg sync (rxByte g)) o) := by
  unfold rxByte at *
  cases hrx : g.rx with
  | notAsked => exact ⟨[], congrArg Host.Outcome.next (huntingAfter_self hst []).symm⟩
  | empty =>
    exact ⟨_, (inOrder_singleton .decNobyte a).trans (congrArg Host.Outcome.next (huntingAfter_self hst _).symm)⟩
  | byte b =>
    have hbyte := byteStep_hunts hst (hpair b (by simp [hrx]))
    exact ⟨_, (inOrder_singleton _ a).trans
      ((byteStep_eq_exec b a).symm.trans (hbyte.trans (congrArg _ (huntSync1_eq b a))))⟩

/-- What comes after a byte leaves a hunting decoder alone: no tick counts (R173). -/
theorem afterByte_hunting {m v : State} {tick : Bool} {st : ESt} {e : Option EncIn}
    (h : inOrder ((if tick then [.sysTick] else []) ++ encoderOps st e) m = .next v)
    (hm : hunting m.ses.st = true) : v.ses = m.ses ∧ v.rx = m.rx := by
  have hpasses : PassesAlong fun s t => hunting s.ses.st = true → t.ses = s.ses ∧ t.rx = s.rx := {
    quiet := fun _ _ => ⟨rfl, rfl⟩
    followed := fun hu hv hs => by
      obtain ⟨hses, hrx⟩ := hu hs
      obtain ⟨hses', hrx'⟩ := hv (by rwa [hses])
      exact ⟨hses'.trans hses, hrx'.trans hrx⟩ }
  refine hpasses.afterByte (fun ht hs => ?_) (fun hi ht _ => ?_) h hm
  · rw [execSysTick_of_hunting hs] at ht
    cases ht
    exact ⟨rfl, rfl⟩
  · obtain ⟨-, hses, hrx, -⟩ := (OnEncoder.exec hi).fields ht
    exact ⟨hses, hrx⟩

/-- Of the receive side, `d_st` alone has changed, and the status where a message was taken. -/
structure OnlyHunts (taken : Prop) (s t : State) : Prop where
  ses : t.ses = { s.ses with st := t.ses.st }
  rx : t.rx = { s.rx with status := t.rx.status }
  kept : ¬ taken → t.rx = s.rx

theorem OnlyHunts.trans {p q : Prop} {s t u : State} (h : OnlyHunts p s t) (h' : OnlyHunts q t u) :
    OnlyHunts (p ∨ q) s u where
  ses := by rw [h'.ses, h.ses]
  rx := by rw [h'.rx, h.rx]
  kept := fun hn => (h'.kept fun hq => hn (.inr hq)).trans (h.kept fun hp => hn (.inl hp))

/-- A step among garbage. -/
theorem step_hunts {s : State} {g : Signals} {rest : List Input} {sync : Bool} (hin : s.inputs = .signals g :: rest)
    (hrst : g.rst = false) (hok : inputOk s.cfg (.signals g) = true) (hflight : InFlightOk s)
    (hst : s.ses.st = huntState sync) (hpair : ∀ b ∈ rxByte g, sync = true → b ≠ s.cfg.sync) :
    ∃ t, step s = .next t ∧ t.cfg = s.cfg ∧ t.inputs = rest ∧ InFlightOk t
      ∧ t.ses.st = huntState (syncAfter s.cfg sync (rxByte g)) ∧ OnlyHunts (g.take = true) s t := by
  obtain ⟨a, ⟨hcfg, ⟨n, hses⟩, -⟩, hstep⟩ := step_around_byte hin hrst hok hflight
  obtain ⟨o, ho⟩ := byteOps_hunt (a := a) (g := g) (sync := sync) (by rw [hses]; exact hst) (by rwa [hcfg])
  obtain ⟨t, ht, hafter, hflight', hrest⟩ := hstep _ ho
  obtain ⟨a', m, v, ha, hm, hv, hparts⟩ := step_eq_next_parts hin hrst ht
  obtain ⟨hcfg', hses', hrx', hkept', -⟩ := inOrder_take_eq_next ha
  obtain ⟨o', ho'⟩ := byteOps_hunt (a := a') (g := g) (sync := sync) (by rw [hses']; exact hst) (by rwa [hcfg'])
  rw [hses'] at ho'
  obtain rfl := Host.Outcome.next.inj (ho'.symm.trans hm)
  obtain ⟨hvses, hvrx⟩ := afterByte_hunting hv (hunting_huntState _)
  have htses : t.ses = { s.ses with st := huntState (syncAfter s.cfg sync (rxByte g)) } := by
    rw [show t.ses = v.ses from (congrArg State.ses hparts :), hvses, ← hcfg', ← hses']
    rfl
  have htrx : t.rx = a'.rx := (congrArg State.rx hparts :).trans hvrx
  refine ⟨_, ht, ?_, hrest, hflight', by rw [htses], by rw [htses], by rw [htrx]; exact hrx', fun htake => ?_⟩
  · exact hafter.beside.cfg.trans hcfg
  · exact htrx.trans (hkept' (by simpa using htake))

/-- A step's byte, if it brings one, is the first of the garbage delivered from there on. -/
theorem noSyncPair_bytesOf_cons {c : Config} {sync : Bool} {g : Signals} {gs : List Signals} :
    noSyncPair c sync (bytesOf (g :: gs)) = true ↔ (∀ b ∈ rxByte g, sync = true → b ≠ c.sync)
      ∧ noSyncPair c (syncAfter c sync (rxByte g)) (bytesOf gs) = true := by
  rw [bytesOf_cons]
  cases rxByte g with
  | none => simp [syncAfter]
  | some b => simp [syncAfter, noSyncPair_cons]

/-- Steps that deliver garbage: at each of them the decoder hunts, and after all of them it waits for the first sync
byte (R184 a, R187). -/
theorem run_garbage {gs : List Signals} {s : State} {rest : List Input} {sync : Bool}
    (hin : s.inputs = gs.map .signals ++ rest)
    (hgs : ∀ g ∈ gs, g.rst = false ∧ inputOk s.cfg (.signals g) = true) (hflight : InFlightOk s)
    (hst : s.ses.st = huntState sync) (hg : noSyncPair s.cfg sync (bytesOf gs) = true) {k : Nat} (hk : k ≤ gs.length) :
    ∃ t, run k s = .next t ∧ hunting t.ses.st = true ∧ OnlyHunts (∃ g ∈ gs, g.take = true) s t
      ∧ (k = gs.length → t.ses.st = .waitSync1) := by
  induction gs generalizing s sync k with
  | nil =>
    obtain rfl : k = 0 := Nat.le_zero.1 hk
    obtain rfl : sync = false := by simpa [bytesOf, noSyncPair] using hg
    exact ⟨s, rfl, by rw [hst]; rfl, ⟨rfl, rfl, fun _ => rfl⟩, fun _ => hst⟩
  | cons g gs ih =>
    cases k with
    | zero => exact ⟨s, rfl, by rw [hst]; exact hunting_huntState sync, ⟨rfl, rfl, fun _ => rfl⟩, nofun⟩
    | succ k =>
      obtain ⟨⟨hrst, hok⟩, hgs⟩ := List.forall_mem_cons.1 hgs
      obtain ⟨hpair, hg⟩ := noSyncPair_bytesOf_cons.1 hg
      obtain ⟨u, hu, hcfg, hrest, hflight', hust, hhunts⟩ := step_hunts hin hrst hok hflight hst hpair
      rw [← hcfg] at hgs hg
      obtain ⟨t, ht, hhunting, hhunts', hend⟩ := ih hrest hgs hflight' (hcfg ▸ hust) hg (Nat.le_of_succ_le_succ hk)
      refine ⟨t, (run_succ_of_step hu k).trans ht, hhunting, ?_, fun h => hend (Nat.succ.inj h)⟩
      have hwhole := hhunts.trans hhunts'
      exact ⟨hwhole.ses, hwhole.rx, fun hn => hwhole.kept (by simpa using hn)⟩

/-- The frame `frame(id, p)` was accepted by the step into `t` (R180). -/
structure AcceptedFrame (id : Word) (p : List Byte) (s t : State) : Prop where
  shown : (shown t).rxResult = some .accepted
  status : t.rx.status = .newData
  id : t.rx.id = id
  len : t.rx.len = p.length
  inside : ∀ k < p.length, rxCell t k = p[k]?
  ses : t.ses = Session.init s.cfg

/-- The step that brings the last byte of a correct frame accepts it (R145, R180). -/
theorem HoldsFrame.step_accepts {s u w : State} {id : Word} {p : List Byte} {g : Signals} {rest : List Input}
    (hu : HoldsFrame id p (hiByte (frameCrc s.cfg id p)) s u) (hreading : SameReading u w)
    (hin : w.inputs = .signals g :: rest) (hrst : g.rst = false) (hok : inputOk s.cfg (.signals g) = true)
    (hflight : InFlightOk w) (hbyte : g.rx = .byte (loByte (frameCrc s.cfg id p))) :
    ∃ t, step w = .next t ∧ AcceptedFrame id p s t := by
  obtain ⟨hcfg, ⟨n, hses⟩, ⟨x, hrx⟩⟩ := hreading
  have hwcfg : w.cfg = s.cfg := hcfg.trans hu.cfg
  obtain ⟨t, ht, htcfg, htses, hshown, htrx⟩ := step_judges hin hrst (hwcfg.symm ▸ hok) hflight hbyte
    (by rw [hses]; exact hu.st) (by rw [hses]; exact hu.fcnt)
  have hjudge : shiftIn w.ses.facc (loByte (frameCrc s.cfg id p)) = w.ses.crc := by
    rw [hses]
    exact (hu.judges _).2 (joinBytes_hi_lo _)
  rw [if_pos hjudge] at hshown htrx
  exact ⟨t, ht, {
    shown := hshown
    status := by rw [htrx]
    id := by rw [htrx, hrx]; exact hu.id
    len := by rw [htrx, hrx]; exact hu.len
    inside := fun k hk => (rxCell_congr (htcfg.trans hcfg) (by rw [htrx, hrx]) k).trans (hu.inside k hk)
    ses := hwcfg ▸ htses }⟩

/-- A frame delivered after bytes that leave a waiting decoder as it was is accepted (R180, R184 a). -/
theorem frame_accepted_after {s : State} {gs : List Signals} {v : List Byte} {id : Word} {p : List Byte}
    {o : List Outputs} (hst : s.ses.st = .waitSync1) (hv : feed v s = .next { s with out := o })
    (hlen : p.length = s.cfg.lenOf id) (hmax : p.length ≤ s.cfg.maxLen)
    (hfeeds : Feeds s gs (v ++ frameOf s.cfg id p)) (hends : endsWithByte gs) :
    ∃ t, run gs.length s = .next t ∧ AcceptedFrame id p s t := by
  have ⟨_, hbytes, hgs, _⟩ := hfeeds
  obtain ⟨hs, g, b, rfl, hbyte, hconcat⟩ := eq_concat_of_endsWithByte hends
  rw [hbytes, frameOf, frameBytes_eq_concat, ← List.append_assoc] at hconcat
  obtain ⟨hhead, rfl⟩ := List.append_singleton_inj.1 hconcat.symm
  obtain ⟨hrst, hok⟩ := hgs g (by simp)
  obtain ⟨u, hu⟩ := holdsFrame hst hlen hmax (hiByte (frameCrc s.cfg id p))
  obtain ⟨o', hfeed, -⟩ := hu.consumes
  have hread : feed (bytesOf ((hs ++ [g]).take hs.length)) s = .next { u with out := o ++ o' } := by
    rw [List.take_left, hhead, feed_append]
    exact followedBy_eq_next.2 ⟨_, _, hv, (feed_out _ s o).trans hfeed, rfl⟩
  obtain ⟨w, rest, hw, ⟨hcfg, hses, hrx⟩, hflight, hin⟩ := hfeeds.run_take (by simp) hread
  rw [List.drop_left] at hin
  obtain ⟨t, ht, haccepted⟩ := hu.step_accepts ⟨hcfg, hses, hrx⟩ hin hrst hok hflight hbyte
  refine ⟨t, ?_, haccepted⟩
  rw [List.length_append]
  exact (run_add hw 1).trans ((run_succ_of_step ht 0).trans rfl)

/-- Settles O42: garbage moves the decoder between its hunting states, and leaves it as it was. -/
theorem resyncAfterGarbage : Obligations.ResyncAfterGarbage := by
  refine ⟨fun s gs g hst hg hfeeds k hk => ?_, fun s gs g id p hst hg hmax hlen hfeeds hends => ?_⟩
  · obtain ⟨⟨rest, hin⟩, rfl, hgs, henc, -⟩ := hfeeds
    obtain ⟨t, ht, hhunting, hhunts, hend⟩ :=
      run_garbage (sync := false) hin.symm hgs (inFlightOk_of_encoderOk henc) hst hg hk
    exact ⟨t, ht, hhunts.ses, hhunting, hhunts.rx, fun hno => hhunts.kept (by simpa using hno), hend⟩
  · obtain ⟨o, ho⟩ := feed_garbage_waitSync1 hst hg
    obtain ⟨t, ht, haccepted⟩ := frame_accepted_after hst ho hlen.symm hmax hfeeds hends
    exact ⟨t, ht, haccepted.shown, haccepted.status, haccepted.id, haccepted.len, haccepted.inside, haccepted.ses⟩

/-! ### Phantom frames (R184 c) -/

/-- The two bytes are the id of a frame under way (R143). -/
structure BeginsFrame (hi lo : Byte) (s t : State) : Prop where
  id : t.rx.id = joinBytes hi lo
  len : t.rx.len = s.cfg.lenOf (joinBytes hi lo)
  midFrame : hunting t.ses.st = false

/-- At the entry to `ReadId` any two bytes are an id (R143). -/
theorem feed_id {s : State} {hi lo : Byte} (hst : s.ses.st = .readId) (h0 : s.ses.fcnt = 0)
    (hlen : s.cfg.lenOf (joinBytes hi lo) ≤ s.cfg.maxLen) :
    ∃ u, feed [hi, lo] s = .next u ∧ BeginsFrame hi lo s u := by
  have hfield : shiftIn (firstIdByte hi s).ses.facc lo = joinBytes hi lo := shiftIn_shiftIn s.ses.facc hi lo
  rw [← hfield] at hlen
  have hsecond := byteStep_readId_second (s := firstIdByte hi s) hst Fin.zero_ne_one.symm hlen
  obtain ⟨hbody, -⟩ := latchId_inBody (s := firstIdByte hi s) hlen
  exact ⟨_, followedBy_eq_next.2 ⟨_, _, byteStep_readId_first hst h0 hi, (feed_singleton lo _).trans hsecond, rfl⟩,
    hfield, congrArg s.cfg.lenOf hfield, hbody.not_hunting⟩

/-- In `WaitSync2` a sync byte completes a pair, and the two bytes after it are an id (R142, R143). -/
theorem feed_pair_id {s : State} {hi lo : Byte} (hst : s.ses.st = .waitSync2)
    (hlen : s.cfg.lenOf (joinBytes hi lo) ≤ s.cfg.maxLen) :
    ∃ u, feed [s.cfg.sync, hi, lo] s = .next u ∧ BeginsFrame hi lo s u := by
  have hpair : byteStep s.cfg.sync s = .next (startTransaction s) := by
    rw [byteStep_waitSync2 hst, if_pos rfl]
  obtain ⟨u, hu, hbegins⟩ := feed_id (s := startTransaction s) rfl rfl hlen
  exact ⟨_, followedBy_eq_next.2 ⟨_, u, hpair, hu, rfl⟩, hbegins.id, hbegins.len, hbegins.midFrame⟩

/-- After garbage and a sync pair, the next two bytes are an id (R184 c). -/
theorem feed_garbage_pair_id {s : State} {g : List Byte} {hi lo : Byte} (hst : s.ses.st = .waitSync1)
    (hg : noSyncPair s.cfg false g = true) (hlen : s.cfg.lenOf (joinBytes hi lo) ≤ s.cfg.maxLen) :
    ∃ u, feed (g ++ [s.cfg.sync, s.cfg.sync, hi, lo]) s = .next u ∧ BeginsFrame hi lo s u := by
  obtain ⟨o, ho⟩ := feed_garbage_waitSync1 hst hg
  have hcfg : (huntSync1 s.cfg.sync s).cfg = s.cfg := huntSync1_cfg _ s
  obtain ⟨u, hu, hid, hulen, hmid⟩ := feed_pair_id (s := huntSync1 s.cfg.sync s) (hi := hi) (lo := lo)
    (by rw [huntSync1_sync]) (by rwa [hcfg])
  rw [hcfg] at hu hulen
  have hpair := followedBy_eq_next.2 ⟨_, u, byteStep_waitSync1 hst s.cfg.sync, hu, rfl⟩
  rw [← feed_cons] at hpair
  have hfeed := followedBy_eq_next.2 ⟨_, _, ho, (feed_out _ s o).trans hpair, rfl⟩
  rw [← feed_append] at hfeed
  exact ⟨_, hfeed, hid, hulen, hmid⟩

/-- A delivery of bytes that begin a frame leaves the decoder in it (R187). -/
theorem Feeds.beginsFrame {s : State} {gs : List Signals} {w : List Byte} {hi lo : Byte} (h : Feeds s gs w)
    (hbegins : ∃ u, feed w s = .next u ∧ BeginsFrame hi lo s u) :
    ∃ t, run gs.length s = .next t ∧ t.rx.id = joinBytes hi lo ∧ t.rx.len = s.cfg.lenOf (joinBytes hi lo)
      ∧ hunting t.ses.st = false := by
  obtain ⟨u, hu, hid, hlen, hmid⟩ := hbegins
  obtain ⟨t, ht, -, ⟨n, hses⟩, ⟨v, hrx⟩⟩ := h.run_reads hu
  exact ⟨t, ht, by rw [hrx]; exact hid, by rw [hrx]; exact hlen, by rw [hses]; exact hmid⟩

/-- Settles O44: in `WaitSync2` a sync byte and two more begin a frame, and a sync byte after garbage leads there. -/
theorem straySyncByteMakesAPhantomFrame : Obligations.StraySyncByteMakesAPhantomFrame := by
  refine ⟨fun s gs id p hst hlen hfeeds => ?_, fun s gs g id p hst hg hlen hfeeds => ?_,
    fun s gs g hi lo hst hg hlen hfeeds => ?_⟩
  · exact hfeeds.beginsFrame (feed_pair_id hst hlen)
  · rw [List.append_assoc] at hfeeds
    exact hfeeds.beginsFrame (feed_garbage_pair_id hst hg hlen)
  · exact hfeeds.beginsFrame (feed_garbage_pair_id hst hg hlen)

/-! ### The source's scenario (R185) -/

/-- The scenario's streams are frames of id `0x0102` (R81). -/
theorem scenario_eq_frameBytes {c : Config} (hsync : c.sync = 0xFF) (x y hi lo : Byte) :
    [0xFF, 0xFF, 0x01, 0x02, x, y, hi, lo] = frameBytes c 0x0102 [x, y] (joinBytes hi lo) := by
  rw [frameBytes, hsync, hiByte_joinBytes, loByte_joinBytes]
  rfl

/-- The CRC field of those frames (R81, R113). -/
theorem scenario_frameCrc (c : Config) (x y : Byte) : frameCrc c 0x0102 [x, y] = crcOf c [0x01, 0x02, x, y] := rfl

/-- Settles O45: the values by computation; both streams are frames, judged by their CRC field. -/
theorem concreteScenario : Obligations.ConcreteScenario := by
  refine ⟨fun c hc => ?_, fun s gs hi lo hsync hst hlen hmax hcrc hends => ⟨fun hfeeds => ?_, fun hne hfeeds => ?_⟩⟩
  · obtain ⟨-, -, -, -, -, -, hvalue⟩ := crcCheckValues c hc
    have ⟨hsync, hinit, hfn⟩ := hc
    have hfield : crcOf c [0x01, 0x02, 0x0A, 0x0B] = joinBytes 0xC2 0xB4 := hvalue.trans (by decide)
    refine ⟨?_, hvalue, by simp [crcOf_division hfn, hinit, crcDivide_eq_byteForm, crcByteTerm, hiByte]⟩
    rw [scenario_eq_frameBytes hsync, frameOf, scenario_frameCrc, hfield]
  · rw [scenario_eq_frameBytes hsync] at hfeeds
    obtain ⟨t, ht, -, -, hstatus, hid, -, hcells⟩ :=
      frame_delivered (p := [0x0A, 0x0B]) hst hlen.symm hmax hfeeds hends
    exact ⟨t, ht, hid, hcells 0 (by decide), hcells 1 (by decide), hstatus.trans (if_pos hcrc)⟩
  · rw [scenario_eq_frameBytes hsync] at hfeeds
    obtain ⟨t, ht, -, -, hstatus, -, -, hcells⟩ :=
      frame_delivered (p := [0x0A, 0x0C]) hst hlen.symm hmax hfeeds hends
    refine ⟨t, ht, hcells 0 (by decide), hcells 1 (by decide), hstatus.trans (if_neg fun h => hne ?_)⟩
    exact hcrc.symm.trans h

end Sys2Proof.Machine
end

section
/-! Statements of the model's choices: where it stops, by name (O60). -/

namespace Sys2Proof.Machine

/-! ### Operations the state does not select (R92, R93) -/

theorem whenDec_of_ne {st : DSt} {s : State} (h : s.ses.st ≠ st) (r : Result) :
    whenDec st s r = .refused .notSelected :=
  if_neg h

/-- A put is guarded by the one state that selects it (R93). -/
theorem exec_put_of_ne {st : ESt} {put : Instr} {s : State} (hput : putOp st = some put) (h : s.enc.st ≠ st) :
    exec put s = .refused .notSelected := by
  cases st <;> cases hput <;> exact if_neg h

/-! ### Indices past the buffers and lengths above `MAX_LEN` (R60, R143, U6) -/

/-- `Payload` with the cursor past TXBUF offers nothing (R121). -/
theorem offeredByte_past_txBuf {s : State} (hst : s.enc.st = .payload) (hcur : s.cfg.maxLen ≤ s.enc.cur) :
    offeredByte s = none := by
  rw [offeredByte_of_payload hst, txCell_eq, if_neg (Nat.not_lt.2 hcur)]

theorem exec_putPay_of_none {s : State} (hst : s.enc.st = .payload) (hb : offeredByte s = none) :
    exec .encPutPay s = .fault (.txbufIndex s.enc.cur) := by
  simp only [exec, execEncPutPay, whenPut, if_pos hst, hb]

theorem exec_decline_of_none {s : State} (hst : s.enc.st ≠ .idle) (hb : offeredByte s = none) :
    exec .encDecline s = .fault (.txbufIndex s.enc.cur) := by
  simp only [exec, execEncDecline, if_neg hst, hb]

theorem exec_decPay_past_rxBuf {s : State} (hst : s.ses.st = .readPayload) (hcur : s.cfg.maxLen ≤ s.ses.cur)
    (b : Byte) : exec (.decPay b) s = .fault (.rxbufIndex s.ses.cur) :=
  (whenDec_of_eq hst _).trans (if_neg (Nat.not_lt.2 hcur))

theorem completeId_of_lenOf_above {s : State} {b : Byte} (h : s.cfg.maxLen < s.cfg.lenOf (shiftIn s.ses.facc b)) :
    completeId b s = .refused (.lenOfAboveMax (shiftIn s.ses.facc b)) :=
  if_neg (Nat.not_le.2 h)

theorem exec_decId_of_lenOf_above {s : State} {b : Byte} (hst : s.ses.st = .readId) (hcnt : s.ses.fcnt ≠ 0)
    (h : s.cfg.maxLen < s.cfg.lenOf (shiftIn s.ses.facc b)) :
    exec (.decId b) s = .refused (.lenOfAboveMax (shiftIn s.ses.facc b)) :=
  (whenDec_of_eq hst _).trans ((if_neg hcnt).trans (completeId_of_lenOf_above h))

/-! ### The statement -/

/-- Settles O60: the decoder's and the encoder's guards, then the bounds behind them. -/
theorem whereTheModelStops : Obligations.WhereTheModelStops := by
  refine ⟨fun s b => ⟨?_, ?_, ?_, ?_, ?_, fun hst hcur => exec_decPay_past_rxBuf hst hcur b,
    exec_decId_of_lenOf_above⟩, fun s id len => ⟨fun h => ⟨if_neg h, if_neg h⟩, fun h => if_pos h,
    fun hst hlen => (if_pos hst).trans (if_neg (Nat.not_le.2 hlen)), fun hst hcur => ?_, fun _ _ => exec_put_of_ne⟩⟩
  iterate 5 exact fun h => whenDec_of_ne h _
  have hnone := offeredByte_past_txBuf hst hcur
  have hidle : s.enc.st ≠ .idle := by rw [hst]; decide
  exact ⟨exec_putPay_of_none hst hnone, exec_decline_of_none hidle hnone⟩

end Sys2Proof.Machine
end
